-- ==== Sys2Proof/Word.lean ====
section
/-! DEFINITION. The widths of the cipher-mode engine (spec 10_state.md R21 to R31, 00_scope.md R7). -/

namespace Sys2Proof

/-- A byte of buffer memory or of a byte string (R7). -/
abbrev Byte := BitVec 8

/-- A 16-byte block. Byte 0 of the string is the most significant byte, so that `toNat` is the rule's
`int_be` and the bit `x_0` of R141 is the most significant bit. -/
abbrev Block := BitVec 128

/-- The 32-bit registers CMD, STATUS and CAPS (R22, R24, R25). -/
abbrev Word32 := BitVec 32

/-- The 64-bit registers ARG0..ARG6 and RESULT (R21, R23), and buffer-memory addresses (R60). -/
abbrev Word64 := BitVec 64

/-- The HANDLE field of a command (R81). -/
abbrev Handle := BitVec 16

end Sys2Proof
end

