-- ==== Sys2Proof/Config.lean ====
section
/-! DEFINITION. The implementation parameters of 00_scope.md R6: what a platform fixes, as plain data that can
only be legal, and the opaque constants that stand for a platform nobody has named. Log entries 1, 2, 3, 16, 23, 24. -/

namespace Sys2Proof

/-- A key of the block primitive, in its three lengths (R9). Byte 0 of the key is the most significant. -/
inductive AesKey where
  | k128 (k : BitVec 128)
  | k192 (k : BitVec 192)
  | k256 (k : BitVec 256)
  deriving DecidableEq, Repr, Inhabited

/-- CAPS fields `AES_HW` and `VAES_WIDTH` together: the four legal pairs of R25 (a vector width without
`AES_HW`, and the width 3, are no legal `CAPS_VALUE`; U5). -/
inductive AesSupport where
  | absent
  | narrow
  | wide256
  | wide512
  deriving DecidableEq, Repr, Inhabited

/-- The capability record `CAPS_VALUE` (R25). -/
structure CapsRecord where
  aes : AesSupport
  digestAccel : Bool
  hostLe : Bool
  deriving DecidableEq, Repr, Inhabited

/-- The table `WIDE_OK(mode, keySize)`, two modes by three key sizes (R6, R200). An entry that a platform does not give is
true: the default of R6. DESIGN CHOICE (log entry 24): the platform of `State.reset` does not take that default; its
table is OPEN, as D16 has it. -/
structure WideTable where
  cbc16 : Bool := true
  cbc24 : Bool := true
  cbc32 : Bool := true
  aead16 : Bool := true
  aead24 : Bool := true
  aead32 : Bool := true
  deriving DecidableEq, Repr, Inhabited

/-- An interval of buffer memory, `base .. base + len - 1`. -/
structure Region where
  base : Nat
  len : Nat
  deriving DecidableEq, Repr, Inhabited

/-- What is assumed of the block primitive `AES_Enc`, `AES_Dec` (R9, U14): nothing but P1 (`uninterpreted`), or
that it is the cipher of FIPS-197 (`fips197`, property P2), for known-answer claims and for runs. -/
inductive BlockPrimitive where
  | uninterpreted
  | fips197
  deriving DecidableEq, Repr, Inhabited

/-- The parameters of a platform (R6, OPEN parameters of 92_eei_decisions.md). -/
structure Platform where
  /-- `NUM_SESSIONS - 1`: the parameter is 1 to 65535 (D7). -/
  lastSession : Fin 65535
  /-- `CAPS_VALUE` (D14). -/
  caps : CapsRecord
  /-- `WIDE_OK` (D16). -/
  wideOk : WideTable
  /-- `Accessible`: the maximal accessible intervals (D8; log entry 2). -/
  regions : List Region
  /-- `MMIO_BASE` (D3). The width is a DESIGN CHOICE (log entry 23): the spec gives host physical addresses none, and the
  model takes 64 bits. -/
  mmioBase : Word64
  /-- `AES_Enc` and `AES_Dec` (R9). -/
  primitive : BlockPrimitive
  deriving DecidableEq, Repr, Inhabited

/-- The platform of the machine that `State.reset` describes: every parameter is OPEN (U13), so the constant has
no value a proof could use, the table `WIDE_OK` included (log entries 1, 24). -/
opaque Config.platform : Platform

/-- The block primitive where only P1 is assumed. A function family on 16-byte blocks that has a left inverse for
each key (P1) is a family of permutations, and its inverse is unique, so this is P1 and nothing else (R9). -/
opaque Config.aes : AesKey → Equiv.Perm Block

/-- The key of a slot with keySize 0, which is a free slot and has no key: a free value (log entry 16). -/
opaque Config.noKey : AesKey

end Sys2Proof
end

