-- ==== Sys2Proof/Machine/Aes.lean ====
section
/-! DEFINITION. The block primitive (00_scope.md R9): `AES_Enc` and `AES_Dec` of a platform. Where the platform's primitive is
uninterpreted they are the opaque permutations of `Config.aes` (property P1). Where it is `fips197` they are the
cipher of FIPS-197 (property P2), written here: the spec names that cipher and its known answers (95_test_vectors.md
1.2) and does not give its text, so this text is PRESUMED (log entry 3). -/

namespace Sys2Proof.Machine

/-- The S-box, entry `x` in bits `8x+7 : 8x`. PRESUMED (FIPS-197). -/
def sboxTable : Nat :=
  0x16bb54b00f2d99416842e6bf0d89a18cdf2855cee9871e9b948ed9691198f8e1 * 2 ^ 1792 +
  0x9e1dc186b95735610ef6034866b53e708a8bbd4b1f74dde8c6b4a61c2e2578ba * 2 ^ 1536 +
  0x08ae7a65eaf4566ca94ed58d6d37c8e779e4959162acd3c25c2406490a3a32e0 * 2 ^ 1280 +
  0xdb0b5ede14b8ee4688902a22dc4f816073195d643d7ea7c41744975fec130ccd * 2 ^ 1024 +
  0xd2f3ff1021dab6bcf5389d928f40a351a89f3c507f02f94585334d43fbaaefd0 * 2 ^ 768 +
  0xcf584c4a39becb6a5bb1fc20ed00d153842fe329b3d63b52a05a6e1b1a2c8309 * 2 ^ 512 +
  0x75b227ebe28012079a059618c323c7041531d871f1e5a534ccf73f362693fdb7 * 2 ^ 256 +
  0xc072a49cafa2d4adf04759fa7dc982ca76abd7fe2b670130c56f6bf27b777c63

/-- The inverse S-box, entry `x` in bits `8x+7 : 8x`. PRESUMED (FIPS-197). -/
def invSboxTable : Nat :=
  0x7d0c2155631469e126d677ba7e042b17619953833cbbebc8b0f52aae4d3be0a0 * 2 ^ 1792 +
  0xef9cc9939f7ae52d0d4ab519a97f51605fec8027591012b131c7078833a8dd1f * 2 ^ 1536 +
  0xf45acd78fec0db9a2079d2c64b3e56fc1bbe18aa0e62b76f89c5291d711af147 * 2 ^ 1280 +
  0x6edf751ce837f9e28535ade72274ac9673e6b4f0cecff297eadc674f4111913a * 2 ^ 1024 +
  0x6b8a130103bdafc1020f3fca8f1e2cd00645b3b80558e4f70ad3bc8c00abd890 * 2 ^ 768 +
  0x849d8da75746155edab9edfd5048706c92b6655dcc5ca4d41698688664f6f872 * 2 ^ 512 +
  0x25d18b6d49a25b76b224d92866a12e084ec3fa420b954cee3d23c2a632947b54 * 2 ^ 256 +
  0xcbe9dec444438e3487ff2f9b8239e37cfbd7f3819ea340bf38a53630d56a0952

/-- `SubBytes` on one byte. PRESUMED (FIPS-197). -/
def subByte (b : Byte) : Byte := BitVec.ofNat 8 (sboxTable >>> (8 * b.toNat))

/-- `InvSubBytes` on one byte. PRESUMED (FIPS-197). -/
def invSubByte (b : Byte) : Byte := BitVec.ofNat 8 (invSboxTable >>> (8 * b.toNat))

/-- A column of the cipher's state, or a word of the key schedule: four bytes, byte 0 first. -/
structure AesCol where
  b0 : Byte
  b1 : Byte
  b2 : Byte
  b3 : Byte
  deriving DecidableEq, Repr

/-- The cipher's state, or a round key: four columns. -/
structure AesState where
  c0 : AesCol
  c1 : AesCol
  c2 : AesCol
  c3 : AesCol
  deriving DecidableEq, Repr

/-- Exclusive or of columns. -/
def xorCol (a b : AesCol) : AesCol := ⟨a.b0 ^^^ b.b0, a.b1 ^^^ b.b1, a.b2 ^^^ b.b2, a.b3 ^^^ b.b3⟩

/-- The column at bits `lo+31 : lo` of a block or a key, its first byte most significant. -/
def colAt (w : Nat) (x : BitVec w) (lo : Nat) : AesCol :=
  ⟨x.extractLsb' (lo + 24) 8, x.extractLsb' (lo + 16) 8, x.extractLsb' (lo + 8) 8, x.extractLsb' lo 8⟩

/-- The state of a 16-byte input block: byte `i` stands in column `i / 4`, row `i % 4`. -/
def aesOfBlock (x : Block) : AesState := ⟨colAt 128 x 96, colAt 128 x 64, colAt 128 x 32, colAt 128 x 0⟩

/-- The bits of a column. -/
def colBits (c : AesCol) : BitVec 32 := c.b0 ++ c.b1 ++ c.b2 ++ c.b3

/-- The output block of a state. -/
def aesToBlock (s : AesState) : Block := colBits s.c0 ++ colBits s.c1 ++ colBits s.c2 ++ colBits s.c3

/-- `AddRoundKey`. PRESUMED (FIPS-197). -/
def addRoundKey (s k : AesState) : AesState := ⟨xorCol s.c0 k.c0, xorCol s.c1 k.c1, xorCol s.c2 k.c2, xorCol s.c3 k.c3⟩

/-- `SubBytes` on a column, the key schedule's `SubWord`. -/
def subCol (c : AesCol) : AesCol := ⟨subByte c.b0, subByte c.b1, subByte c.b2, subByte c.b3⟩

/-- `InvSubBytes` on a column. -/
def invSubCol (c : AesCol) : AesCol := ⟨invSubByte c.b0, invSubByte c.b1, invSubByte c.b2, invSubByte c.b3⟩

/-- `SubBytes`. -/
def subBytes (s : AesState) : AesState := ⟨subCol s.c0, subCol s.c1, subCol s.c2, subCol s.c3⟩

/-- `InvSubBytes`. -/
def invSubBytes (s : AesState) : AesState := ⟨invSubCol s.c0, invSubCol s.c1, invSubCol s.c2, invSubCol s.c3⟩

/-- `ShiftRows`: row `r` moves left by `r` columns. PRESUMED (FIPS-197). -/
def shiftRows (s : AesState) : AesState :=
  ⟨⟨s.c0.b0, s.c1.b1, s.c2.b2, s.c3.b3⟩, ⟨s.c1.b0, s.c2.b1, s.c3.b2, s.c0.b3⟩,
   ⟨s.c2.b0, s.c3.b1, s.c0.b2, s.c1.b3⟩, ⟨s.c3.b0, s.c0.b1, s.c1.b2, s.c2.b3⟩⟩

/-- `InvShiftRows`: row `r` moves right by `r` columns. PRESUMED (FIPS-197). -/
def invShiftRows (s : AesState) : AesState :=
  ⟨⟨s.c0.b0, s.c3.b1, s.c2.b2, s.c1.b3⟩, ⟨s.c1.b0, s.c0.b1, s.c3.b2, s.c2.b3⟩,
   ⟨s.c2.b0, s.c1.b1, s.c0.b2, s.c3.b3⟩, ⟨s.c3.b0, s.c2.b1, s.c1.b2, s.c0.b3⟩⟩

/-- Multiplication by `x` in GF(2^8) modulo `x^8 + x^4 + x^3 + x + 1`. PRESUMED (FIPS-197). -/
def xtime (a : Byte) : Byte := if a.getLsbD 7 then (a <<< 1) ^^^ 0x1B else a <<< 1

/-- One output byte of `MixColumns`: `2a + 3b + c + d`. -/
def mixByte (a b c d : Byte) : Byte := xtime a ^^^ (xtime b ^^^ b) ^^^ c ^^^ d

/-- `MixColumns` on a column. PRESUMED (FIPS-197). -/
def mixCol (c : AesCol) : AesCol :=
  ⟨mixByte c.b0 c.b1 c.b2 c.b3, mixByte c.b1 c.b2 c.b3 c.b0, mixByte c.b2 c.b3 c.b0 c.b1, mixByte c.b3 c.b0 c.b1 c.b2⟩

/-- Multiplication by 9, 11, 13 and 14 in GF(2^8). -/
def mul9 (a : Byte) : Byte := xtime (xtime (xtime a)) ^^^ a

/-- See `mul9`. -/
def mul11 (a : Byte) : Byte := xtime (xtime (xtime a)) ^^^ xtime a ^^^ a

/-- See `mul9`. -/
def mul13 (a : Byte) : Byte := xtime (xtime (xtime a)) ^^^ xtime (xtime a) ^^^ a

/-- See `mul9`. -/
def mul14 (a : Byte) : Byte := xtime (xtime (xtime a)) ^^^ xtime (xtime a) ^^^ xtime a

/-- One output byte of `InvMixColumns`: `14a + 11b + 13c + 9d`. -/
def invMixByte (a b c d : Byte) : Byte := mul14 a ^^^ mul11 b ^^^ mul13 c ^^^ mul9 d

/-- `InvMixColumns` on a column. PRESUMED (FIPS-197). -/
def invMixCol (c : AesCol) : AesCol :=
  ⟨invMixByte c.b0 c.b1 c.b2 c.b3, invMixByte c.b1 c.b2 c.b3 c.b0, invMixByte c.b2 c.b3 c.b0 c.b1,
   invMixByte c.b3 c.b0 c.b1 c.b2⟩

/-- `MixColumns`. -/
def mixColumns (s : AesState) : AesState := ⟨mixCol s.c0, mixCol s.c1, mixCol s.c2, mixCol s.c3⟩

/-- `InvMixColumns`. -/
def invMixColumns (s : AesState) : AesState := ⟨invMixCol s.c0, invMixCol s.c1, invMixCol s.c2, invMixCol s.c3⟩

/-- The rounds of the cipher after the first `AddRoundKey`, one round key each; the last has no `MixColumns`.
PRESUMED (FIPS-197). -/
def encRounds (ks : List AesState) (s : AesState) : AesState :=
  match ks with
  | [] => s
  | k :: rest =>
    match rest with
    | [] => addRoundKey (shiftRows (subBytes s)) k
    | _ :: _ => encRounds rest (addRoundKey (mixColumns (shiftRows (subBytes s))) k)

/-- The rounds of the inverse cipher, undoing `encRounds` from its last round to its first. PRESUMED (FIPS-197). -/
def decRounds (ks : List AesState) (s : AesState) : AesState :=
  match ks with
  | [] => s
  | k :: rest =>
    match rest with
    | [] => invSubBytes (invShiftRows (addRoundKey s k))
    | _ :: _ => invSubBytes (invShiftRows (invMixColumns (addRoundKey (decRounds rest s) k)))

/-- The round constant of step `j`: `x^(j-1)`. PRESUMED (FIPS-197). -/
def rcon (j : Nat) : Byte :=
  match j with
  | 0 => 0
  | 1 => 1
  | k + 2 => xtime (rcon (k + 1))

/-- Word `i` of the key schedule, from the words before it, the last one first; `nk` is the key length in words.
PRESUMED (FIPS-197). -/
def nextWord (nk i : Nat) (rev : List AesCol) : AesCol :=
  let t := rev.headD ⟨0, 0, 0, 0⟩
  let t' :=
    if i % nk = 0 then xorCol (subCol ⟨t.b1, t.b2, t.b3, t.b0⟩) ⟨rcon (i / nk), 0, 0, 0⟩
    else if 6 < nk ∧ i % nk = 4 then subCol t
    else t
  xorCol (rev.getD (nk - 1) ⟨0, 0, 0, 0⟩) t'

/-- The key schedule: `fuel` more words after the `i` words of `rev` (the last one first). -/
def expandKey (nk fuel i : Nat) (rev : List AesCol) : List AesCol :=
  match fuel with
  | 0 => rev.reverse
  | f + 1 => expandKey nk f (i + 1) (nextWord nk i rev :: rev)

/-- Four words of the key schedule make a round key. -/
def roundKeys (ws : List AesCol) : List AesState :=
  match ws with
  | a :: b :: c :: d :: rest => ⟨a, b, c, d⟩ :: roundKeys rest
  | _ => []

/-- The words of a key of `nk` words, the last one first: word `i` stands at bits `32(nk-1-i)` and up. -/
def keyWordsRev (w : Nat) (k : BitVec w) (nk : Nat) : List AesCol := (List.range nk).map fun j => colAt w k (32 * j)

/-- The round keys of a key: 11, 13 or 15 of them (10, 12 or 14 rounds). PRESUMED (FIPS-197). -/
def keySchedule (k : AesKey) : List AesState :=
  match k with
  | .k128 k => roundKeys (expandKey 4 40 4 (keyWordsRev 128 k 4))
  | .k192 k => roundKeys (expandKey 6 46 6 (keyWordsRev 192 k 6))
  | .k256 k => roundKeys (expandKey 8 52 8 (keyWordsRev 256 k 8))

/-- The cipher of FIPS-197 under a list of round keys. -/
def aesCipher (ks : List AesState) (x : Block) : Block :=
  match ks with
  | [] => x
  | k :: rest => aesToBlock (encRounds rest (addRoundKey (aesOfBlock x) k))

/-- The inverse cipher of FIPS-197 under a list of round keys. -/
def aesInvCipher (ks : List AesState) (x : Block) : Block :=
  match ks with
  | [] => x
  | k :: rest => aesToBlock (addRoundKey (decRounds rest (aesOfBlock x)) k)

/-- `AES_Enc(k, x)` of a platform (R9). -/
def aesEnc (p : Platform) (k : AesKey) (x : Block) : Block :=
  match p.primitive with
  | .uninterpreted => Config.aes k x
  | .fips197 => aesCipher (keySchedule k) x

/-- `AES_Dec(k, x)` of a platform (R9). -/
def aesDec (p : Platform) (k : AesKey) (x : Block) : Block :=
  match p.primitive with
  | .uninterpreted => (Config.aes k).symm x
  | .fips197 => aesInvCipher (keySchedule k) x

end Sys2Proof.Machine
end

