-- ==== Sys2Proof/Machine/Bytes.lean ====
section
/-! DEFINITION. Byte strings and their conversions (00_scope.md R7, R8; 20_memory.md R64, R65). A byte string is a list,
byte 0 first; a block is a 128-bit value whose most significant byte is byte 0. -/

namespace Sys2Proof.Machine

/-- `int_be(b)`: the integer whose big-endian encoding is `b` (R8). -/
def intBe (b : List Byte) : Nat := b.foldl (fun acc x => acc * 256 + x.toNat) 0

/-- `be_n(v)`: the `n`-byte big-endian encoding of `v mod 2^(8n)` (R8). -/
def beBytes (n v : Nat) : List Byte :=
  match n with
  | 0 => []
  | k + 1 => BitVec.ofNat 8 (v / 256 ^ k) :: beBytes k v

/-- The 16-byte block of a byte string of length 16. -/
def blockOfBytes (b : List Byte) : Block := BitVec.ofNat 128 (intBe b)

/-- The 16 bytes of a block, byte 0 first. -/
def bytesOfBlock (x : Block) : List Byte := beBytes 16 x.toNat

/-- `pad16(b)`: `b` and the fewest zero bytes that make its length a multiple of 16 (R8). -/
def pad16 (b : List Byte) : List Byte := b ++ List.replicate ((16 - b.length % 16) % 16) 0

/-- The first `n` blocks of a byte string: `b[16i : 16i+16]` for `i < n` (R112, R143). -/
def blocksOf (n : Nat) (b : List Byte) : List Block :=
  match n with
  | 0 => []
  | k + 1 => blockOfBytes (b.take 16) :: blocksOf k (b.drop 16)

/-- The byte string of a list of blocks, in order. -/
def bytesOfBlocks (xs : List Block) : List Byte := xs.flatMap bytesOfBlock

/-- `a XOR b` on byte strings, of the length of the shorter (R7). -/
def xorBytes (a b : List Byte) : List Byte := List.zipWith (· ^^^ ·) a b

/-- The bytes of a register in little-endian order: the lowest address holds bits 7:0 (R63). -/
def leBytes (n v : Nat) : List Byte :=
  match n with
  | 0 => []
  | k + 1 => BitVec.ofNat 8 v :: leBytes k (v / 256)

/-- The value of a register access, the lowest address first (R63). -/
def intLe (b : List Byte) : Nat :=
  match b with
  | [] => 0
  | x :: rest => x.toNat + 256 * intLe rest

end Sys2Proof.Machine
end

