-- ==== Sys2Proof/Machine/Probe.lean ====
section
/-! DEFINITION. The capability record as the 32-bit value of the CAPS register (10_state.md R25), and the record of a
failed probe (40_capability.md R101). -/

namespace Sys2Proof

/-- `AES_HW`, bit 0 of CAPS (R25). -/
def aesHwBit (a : AesSupport) : Bool :=
  match a with
  | .absent => false
  | .narrow | .wide256 | .wide512 => true

/-- `VAES_WIDTH`, bits 2:1 of CAPS (R25). -/
def vaesWidthBits (a : AesSupport) : BitVec 2 :=
  match a with
  | .absent | .narrow => 0
  | .wide256 => 1
  | .wide512 => 2

/-- `CAPS_VALUE` of a record: AES_HW, VAES_WIDTH, DIGEST_ACCEL, HOST_LE, and 0 in bits 31:5 (R25). -/
def capsWord (c : CapsRecord) : Word32 :=
  0#27 ++ BitVec.ofBool c.hostLe ++ BitVec.ofBool c.digestAccel ++ vaesWidthBits c.aes ++ BitVec.ofBool (aesHwBit c.aes)

/-- The record of a failed probe: all capabilities absent, the host's byte order still reported (R101). -/
def failedProbe (hostLe : Bool) : CapsRecord := ⟨.absent, false, hostLe⟩

/-- `NUM_SESSIONS` (R6, D7). -/
def numSessions (p : Platform) : Nat := p.lastSession.val + 1

end Sys2Proof
end

