-- ==== Sys2Proof/Syntax.lean ====
section
/-! DEFINITION. The commands of 30_encoding.md: the CMD word's fields as data (R81 to R83), one constructor per row of
the opcode table (R82), and the argument registers that carry a command's operands (R80, R84). -/

namespace Sys2Proof

/-- The MODE of a session: CBC (0) or AEAD (1) (R11, R81). -/
inductive Mode where
  | cbc
  | aead
  deriving DecidableEq, Repr

/-- The direction: encrypt (0) or decrypt (1) (R11, R81). -/
inductive Dir where
  | encrypt
  | decrypt
  deriving DecidableEq, Repr

/-- The opcodes of R82, one per row of its table. -/
inductive Op where
  | caps
  | create
  | dispose
  | blksz
  | cbcInit
  | cbcProcess
  | cbcReset
  | gcmInit
  | gcmAadByte
  | gcmAadBytes
  | gcmByte
  | gcmBytes
  | gcmFinal
  | gcmUosize
  | gcmOsize
  | gcmMac
  | gcmReset
  deriving DecidableEq, Repr

/-- A command with the CMD fields it uses (R82, R83). Its operands stand in the argument registers (R80). -/
inductive Instr where
  | caps
  | create (dir : Dir) (mode : Mode)
  | dispose (h : Handle)
  | blksz
  | cbcInit (h : Handle)
  | cbcProcess (h : Handle)
  | cbcReset (h : Handle)
  | gcmInit (h : Handle) (dir : Dir)
  | gcmAadByte (h : Handle)
  | gcmAadBytes (h : Handle)
  | gcmByte (h : Handle)
  | gcmBytes (h : Handle)
  | gcmFinal (h : Handle)
  | gcmUosize (h : Handle)
  | gcmOsize (h : Handle)
  | gcmMac (h : Handle)
  | gcmReset (h : Handle) (keep : Bool)
  deriving DecidableEq, Repr

/-- The names of the argument registers (R21). -/
inductive ArgReg where
  | arg0
  | arg1
  | arg2
  | arg3
  | arg4
  | arg5
  | arg6
  deriving DecidableEq, Repr

/-- The seven 64-bit argument registers (R21). -/
structure Args where
  arg0 : Word64
  arg1 : Word64
  arg2 : Word64
  arg3 : Word64
  arg4 : Word64
  arg5 : Word64
  arg6 : Word64
  deriving DecidableEq, Repr

/-- All argument registers 0, their reset value (R21, R250). -/
def Args.zero : Args := ⟨0, 0, 0, 0, 0, 0, 0⟩

end Sys2Proof
end

