-- ==== Sys2Proof/Machine/State.lean ====
section
/-! DEFINITION. The state of the engine (10_state.md R20 to R38) as plain data, the host's accesses, the reasons a step
can stop, and the state after reset (70_reset_and_hazards.md R250). -/

namespace Sys2Proof.Machine

/-- `keySize` of a slot: 0 in a free slot, else the key length it was created for (R29). -/
inductive KeySize where
  | none
  | b16
  | b24
  | b32
  deriving DecidableEq, Repr

/-- `path`: SOFT (0), NARROW (1), WIDE (2); 3 never occurs (R29). -/
inductive Path where
  | soft
  | narrow
  | wide
  deriving DecidableEq, Repr

/-- `phase`: a CBC session is `uninit` (0) or `ready` (1) (R30, R110); an AEAD session is `uninit` (0), `aad` (1),
`data` (2) or `final` (3) (R32). -/
inductive Phase where
  | uninit
  | ready
  | aad
  | data
  | final
  deriving DecidableEq, Repr

/-- One slot of the session table: the fields of R29, R30 and R31. -/
structure Slot where
  alloc : Bool
  mode : Mode
  dir : Dir
  keySize : KeySize
  path : Path
  phase : Phase
  /-- Raw key bytes, byte 0 most significant; only the first `keySize` bytes are meaningful (R29). -/
  key : BitVec 256
  iv : Block
  chain : Block
  /-- The hash subkey `H`. -/
  hkey : Block
  j0 : Block
  ctr : Block
  /-- The hash accumulator `S`. -/
  acc : Block
  aadCount : Word64
  dataCount : Word64
  aadBuf : List Byte
  dataBuf : List Byte
  tagLen : BitVec 5
  tag : Block
  tagValid : Bool
  /-- The checkpoint of R33. -/
  ckAcc : Block
  ckAadCount : Word64
  ckAadBuf : List Byte
  deriving DecidableEq, Repr

/-- The free slot: "value in a free slot" of R29 and "value after CREATE" of R30 and R31 (R37, R38, R202, R250). -/
def Slot.free : Slot where
  alloc := false
  mode := .cbc
  dir := .encrypt
  keySize := .none
  path := .soft
  phase := .uninit
  key := 0
  iv := 0
  chain := 0
  hkey := 0
  j0 := 0
  ctr := 0
  acc := 0
  aadCount := 0
  dataCount := 0
  aadBuf := []
  dataBuf := []
  tagLen := 0
  tag := 0
  tagValid := false
  ckAcc := 0
  ckAadCount := 0
  ckAadBuf := []

/-- The session table: the slots that differ from the free slot, by rising handle; every other slot is
`Slot.free` (R28; log entry 5). -/
abbrev SessTable := List (Nat × Slot)

/-- Buffer memory: the bytes that differ from `unwrittenByte`, by rising address (R60; log entry 4). -/
abbrev Memory := List Host.Cell

/-- What a byte of buffer memory that nothing has written reads as. DESIGN CHOICE, unsafe (log entry 4): R37 leaves the
content of memory at reset to the platform. -/
def unwrittenByte : Byte := 0

/-- One access of the host or the platform (R12, R71, R250, R260). Window addresses are host physical addresses (R62), 64 bits
wide by DESIGN CHOICE (log entry 23); memory addresses are buffer-memory addresses (R60). -/
inductive HostAccess where
  /-- A write of the register window; the access width is the number of bytes, lowest address first. -/
  | windowWrite (addr : Word64) (bytes : List Byte)
  /-- A read of `n` bytes of the register window. -/
  | windowRead (addr : Word64) (n : Nat)
  /-- A write of buffer memory. -/
  | memWrite (addr : Word64) (bytes : List Byte)
  /-- A read of `n` bytes of buffer memory. -/
  | memRead (addr : Word64) (n : Nat)
  /-- The platform's reset input (R250). -/
  | reset
  deriving DecidableEq, Repr

/-- The state of the engine, R20, and the model's own fields `cfg`, `cmdStarted`, `host`, `busReply`
(log entries 1 and 6). -/
structure State where
  /-- `CMD` (R22). -/
  cmd : Word32
  /-- `ARG0` to `ARG6` (R21). -/
  args : Args
  /-- `RESULT` (R23). -/
  result : Word64
  /-- `STATUS.ERR` (R24); the other bits of STATUS are hardwired 0. -/
  err : Byte
  /-- `CAPS` (R25). -/
  caps : Word32
  /-- `SESS` (R28). -/
  sess : SessTable
  /-- `MEM` (R60). -/
  mem : Memory
  /-- The platform's parameters (R6); configuration, changed by no step. -/
  cfg : Platform
  /-- The host's CMD write has been accepted, and the engine executes it in its next step (R12). -/
  cmdStarted : Bool
  /-- The accesses the host has still to make, the next one first (R26, R71). -/
  host : List HostAccess
  /-- The bytes the host's last read returned, lowest address first (R63). -/
  busReply : List Byte
  deriving DecidableEq, Repr

/-- Why the machine stops. No command of the engine faults: every command ends in `finish` (R220). -/
inductive Fault where
  /-- Raised by the host's own buffer-memory access (`HostAccess.memWrite`, `HostAccess.memRead`) where it names a byte past
  address 2^64 - 1, which does not exist (R60). Safe: the engine itself answers such a range with `BusError`
  (R61), so no command ends here (log entry 10). -/
  | noSuchAddress
  deriving DecidableEq, Repr

/-- What the model gives no meaning to. No command of the engine is refused by its meaning. -/
inductive Refusal where
  /-- Raised by `exec` for an instruction without a meaning; no arm does so now. Safe. -/
  | notModelled (mnemonic : String)
  /-- Raised by a window access that is misaligned, of another width than 4 or 8 bytes, or not of the width of the register it
  names: the host's platform answers it with a bus error (R63; "`refuse` in an engine model", U7). Safe (log
  entry 7). -/
  | hostBusError
  /-- Raised by a window access at a host address outside the 256 bytes at MMIO_BASE (R62): it does not reach the engine.
  Safe (log entry 9). -/
  | outsideWindow
  deriving DecidableEq, Repr

/-- The effect of a reset on a machine (R250, R251): registers 0, every slot free, CAPS latched from the platform. Buffer
memory, the platform and the host's further accesses are not the engine's to change (log entry 14). -/
def State.afterReset (s : State) : State :=
  { s with
    cmd := 0
    args := Args.zero
    result := 0
    err := 0
    caps := capsWord s.cfg.caps
    sess := []
    cmdStarted := false
    busReply := [] }

/-- A machine of platform `p` after reset with the buffer-memory image `m` and the host's accesses `host`: the launch
premises of R262. -/
def State.launch (p : Platform) (m : Memory) (host : List HostAccess) : State :=
  State.afterReset ⟨0, Args.zero, 0, 0, 0, [], m, p, false, host, []⟩

/-- The machine right after reset (R37, R250), on the platform of `Config.platform`, with no byte of memory listed and no
access of the host pending (log entries 1, 4, 6). -/
def State.reset : State := State.launch Config.platform [] []

end Sys2Proof.Machine
end

