-- ==== Sys2Proof/Machine/Flags.lean ====
section
/-! DEFINITION. `STATUS.ERR`, the engine's only flag (10_state.md R24, R27), and the error codes of 60_exceptions.md R221. -/

namespace Sys2Proof.Machine

/-- The outcomes of a command (R221). -/
inductive ErrCode where
  | ok
  | invalidKeySize
  | invalidIVLength
  | invalidTagLength
  | invalidStateTransition
  | outputLengthException
  | authenticationFailure
  | unsupportedKeySize
  | outputBufferTooShort
  | invalidHandle
  | noFreeSession
  | illegalCommand
  | dataLimitExceeded
  | busError
  deriving DecidableEq, Repr

/-- The number of an outcome in `STATUS.ERR` (R221). -/
def errByte (e : ErrCode) : Byte :=
  match e with
  | .ok => 0
  | .invalidKeySize => 1
  | .invalidIVLength => 2
  | .invalidTagLength => 3
  | .invalidStateTransition => 4
  | .outputLengthException => 5
  | .authenticationFailure => 6
  | .unsupportedKeySize => 7
  | .outputBufferTooShort => 8
  | .invalidHandle => 9
  | .noFreeSession => 10
  | .illegalCommand => 11
  | .dataLimitExceeded => 12
  | .busError => 13

/-- The 32-bit STATUS register: ERR in bits 7:0, bits 31:8 hardwired 0 (R24). -/
def State.status (s : State) : Word32 := 0#24 ++ s.err

/-- `finish(err, res)`: the end of every command (R10, R220). It writes `STATUS.ERR` and `RESULT`. -/
def State.finish (s : State) (e : ErrCode) (res : Word64) : State := { s with err := errByte e, result := res }

/-- `raise E`: the end of a command that changes nothing else, with `RESULT` 0 (R10, R222). The engine has no trap
to take and none to return from (R227). -/
def State.raise (s : State) (e : ErrCode) : State := s.finish e 0

end Sys2Proof.Machine
end

