-- ==== Sys2Proof/Decode.lean ====
section
/-! DEFINITION. Decoding and encoding of the CMD word (30_encoding.md R81 to R83, R87, R88, and the CMD half of
`Decode` in R92). The operand half of `Decode` is `Sys2Proof.operandsLegal` of Machine/Operands.lean, checked first by every
meaning (log entry 18). -/

namespace Sys2Proof

/-- `OP = CMD[7:0]` (R81). -/
def opField (w : Word32) : Byte := w.extractLsb' 0 8

/-- `DIR = CMD[8]` (R81). -/
def dirField (w : Word32) : Bool := w.getLsbD 8

/-- `KEEP = CMD[9]` (R81). -/
def keepField (w : Word32) : Bool := w.getLsbD 9

/-- `MODE = CMD[11:10]` (R81). -/
def modeField (w : Word32) : BitVec 2 := w.extractLsb' 10 2

/-- `RSV = CMD[15:12]` (R81). -/
def rsvField (w : Word32) : BitVec 4 := w.extractLsb' 12 4

/-- `HANDLE = CMD[31:16]` (R81). -/
def handleField (w : Word32) : Handle := w.extractLsb' 16 16

/-- The opcode map (R82). -/
def Op.code (op : Op) : Byte :=
  match op with
  | .caps => 0x01
  | .create => 0x02
  | .dispose => 0x03
  | .blksz => 0x04
  | .cbcInit => 0x10
  | .cbcProcess => 0x11
  | .cbcReset => 0x12
  | .gcmInit => 0x20
  | .gcmAadByte => 0x21
  | .gcmAadBytes => 0x22
  | .gcmByte => 0x23
  | .gcmBytes => 0x24
  | .gcmFinal => 0x25
  | .gcmUosize => 0x26
  | .gcmOsize => 0x27
  | .gcmMac => 0x28
  | .gcmReset => 0x29

/-- The row of R82 an OP value selects; `none` for a reserved OP (R87). -/
def opOfByte (b : Byte) : Option Op :=
  match b.toNat with
  | 0x01 => some .caps
  | 0x02 => some .create
  | 0x03 => some .dispose
  | 0x04 => some .blksz
  | 0x10 => some .cbcInit
  | 0x11 => some .cbcProcess
  | 0x12 => some .cbcReset
  | 0x20 => some .gcmInit
  | 0x21 => some .gcmAadByte
  | 0x22 => some .gcmAadBytes
  | 0x23 => some .gcmByte
  | 0x24 => some .gcmBytes
  | 0x25 => some .gcmFinal
  | 0x26 => some .gcmUosize
  | 0x27 => some .gcmOsize
  | 0x28 => some .gcmMac
  | 0x29 => some .gcmReset
  | _ => none

/-- The opcodes that use DIR (R83). -/
def Op.usesDir (op : Op) : Bool :=
  match op with
  | .create | .gcmInit => true
  | .caps | .dispose | .blksz | .cbcInit | .cbcProcess | .cbcReset | .gcmAadByte | .gcmAadBytes | .gcmByte
  | .gcmBytes | .gcmFinal | .gcmUosize | .gcmOsize | .gcmMac | .gcmReset => false

/-- The opcodes that use KEEP (R83). -/
def Op.usesKeep (op : Op) : Bool :=
  match op with
  | .gcmReset => true
  | .caps | .create | .dispose | .blksz | .cbcInit | .cbcProcess | .cbcReset | .gcmInit | .gcmAadByte
  | .gcmAadBytes | .gcmByte | .gcmBytes | .gcmFinal | .gcmUosize | .gcmOsize | .gcmMac => false

/-- The opcodes that use MODE (R83). -/
def Op.usesMode (op : Op) : Bool :=
  match op with
  | .create => true
  | .caps | .dispose | .blksz | .cbcInit | .cbcProcess | .cbcReset | .gcmInit | .gcmAadByte | .gcmAadBytes
  | .gcmByte | .gcmBytes | .gcmFinal | .gcmUosize | .gcmOsize | .gcmMac | .gcmReset => false

/-- The opcodes that use HANDLE: every session command (R83). -/
def Op.usesHandle (op : Op) : Bool :=
  match op with
  | .caps | .create | .blksz => false
  | .dispose | .cbcInit | .cbcProcess | .cbcReset | .gcmInit | .gcmAadByte | .gcmAadBytes | .gcmByte | .gcmBytes
  | .gcmFinal | .gcmUosize | .gcmOsize | .gcmMac | .gcmReset => true

/-- Why a CMD word is no command (R83, R87). Each of them is `IllegalCommand` to the host. -/
inductive DecodeError where
  /-- OP is not in the table of R82. -/
  | reservedOp
  /-- RSV is not 0. -/
  | reservedBits
  /-- A field the opcode does not use is not 0. -/
  | unusedField
  /-- MODE 2 or 3 on CREATE. -/
  | reservedMode
  deriving DecidableEq, Repr

/-- A field the opcode does not use is nonzero (R83, R92). -/
def unusedFieldSet (op : Op) (w : Word32) : Bool :=
  (dirField w && !op.usesDir) || (keepField w && !op.usesKeep) || (modeField w != 0 && !op.usesMode) ||
    (handleField w != 0 && !op.usesHandle)

/-- DIR as a direction (R11). -/
def dirOfBit (b : Bool) : Dir := if b then .decrypt else .encrypt

/-- MODE as a mode: 0 CBC, 1 AEAD, 2 and 3 reserved (R81). -/
def modeOfBits (m : BitVec 2) : Option Mode :=
  match m.toNat with
  | 0 => some .cbc
  | 1 => some .aead
  | _ => none

/-- The command of opcode `op` with the fields of the CMD word `w` (R81, R82). -/
def buildInstr (op : Op) (w : Word32) : Except DecodeError Instr :=
  let h := handleField w
  match op with
  | .caps => .ok .caps
  | .create =>
    match modeOfBits (modeField w) with
    | some m => .ok (.create (dirOfBit (dirField w)) m)
    | none => .error .reservedMode
  | .dispose => .ok (.dispose h)
  | .blksz => .ok .blksz
  | .cbcInit => .ok (.cbcInit h)
  | .cbcProcess => .ok (.cbcProcess h)
  | .cbcReset => .ok (.cbcReset h)
  | .gcmInit => .ok (.gcmInit h (dirOfBit (dirField w)))
  | .gcmAadByte => .ok (.gcmAadByte h)
  | .gcmAadBytes => .ok (.gcmAadBytes h)
  | .gcmByte => .ok (.gcmByte h)
  | .gcmBytes => .ok (.gcmBytes h)
  | .gcmFinal => .ok (.gcmFinal h)
  | .gcmUosize => .ok (.gcmUosize h)
  | .gcmOsize => .ok (.gcmOsize h)
  | .gcmMac => .ok (.gcmMac h)
  | .gcmReset => .ok (.gcmReset h (keepField w))

/-- The CMD half of `Decode` (R92), total on every 32-bit value (R88): OP, then RSV, then the unused fields, then
CREATE's MODE. -/
def decode (w : Word32) : Except DecodeError Instr :=
  match opOfByte (opField w) with
  | none => .error .reservedOp
  | some op =>
    if rsvField w ≠ 0 then .error .reservedBits
    else if unusedFieldSet op w then .error .unusedField
    else buildInstr op w

/-- The opcode of a command. -/
def opOf (i : Instr) : Op :=
  match i with
  | .caps => .caps
  | .create _ _ => .create
  | .dispose _ => .dispose
  | .blksz => .blksz
  | .cbcInit _ => .cbcInit
  | .cbcProcess _ => .cbcProcess
  | .cbcReset _ => .cbcReset
  | .gcmInit _ _ => .gcmInit
  | .gcmAadByte _ => .gcmAadByte
  | .gcmAadBytes _ => .gcmAadBytes
  | .gcmByte _ => .gcmByte
  | .gcmBytes _ => .gcmBytes
  | .gcmFinal _ => .gcmFinal
  | .gcmUosize _ => .gcmUosize
  | .gcmOsize _ => .gcmOsize
  | .gcmMac _ => .gcmMac
  | .gcmReset _ _ => .gcmReset

/-- DIR of a direction (R11). -/
def bitOfDir (d : Dir) : Bool :=
  match d with
  | .encrypt => false
  | .decrypt => true

/-- MODE of a mode (R11). -/
def bitsOfMode (m : Mode) : BitVec 2 :=
  match m with
  | .cbc => 0
  | .aead => 1

/-- The CMD word of an opcode and its fields: the pattern of R81, most significant bit first, RSV 0. -/
def cmdWord (op : Op) (dir keep : Bool) (mode : BitVec 2) (h : Handle) : Word32 :=
  h ++ 0#4 ++ mode ++ BitVec.ofBool keep ++ BitVec.ofBool dir ++ op.code

/-- The CMD word of a command, every field it does not use 0 (R81 to R83). -/
def encode (i : Instr) : Word32 :=
  match i with
  | .caps => cmdWord .caps false false 0 0
  | .create d m => cmdWord .create (bitOfDir d) false (bitsOfMode m) 0
  | .dispose h => cmdWord .dispose false false 0 h
  | .blksz => cmdWord .blksz false false 0 0
  | .cbcInit h => cmdWord .cbcInit false false 0 h
  | .cbcProcess h => cmdWord .cbcProcess false false 0 h
  | .cbcReset h => cmdWord .cbcReset false false 0 h
  | .gcmInit h d => cmdWord .gcmInit (bitOfDir d) false 0 h
  | .gcmAadByte h => cmdWord .gcmAadByte false false 0 h
  | .gcmAadBytes h => cmdWord .gcmAadBytes false false 0 h
  | .gcmByte h => cmdWord .gcmByte false false 0 h
  | .gcmBytes h => cmdWord .gcmBytes false false 0 h
  | .gcmFinal h => cmdWord .gcmFinal false false 0 h
  | .gcmUosize h => cmdWord .gcmUosize false false 0 h
  | .gcmOsize h => cmdWord .gcmOsize false false 0 h
  | .gcmMac h => cmdWord .gcmMac false false 0 h
  | .gcmReset h keep => cmdWord .gcmReset false keep 0 h

/-- The command that the decoder reads from the `nbits` low bits of `w`, every bit above them 0. The one word of a
command is the CMD word; its operands are registers (R80), so they play no part in this. -/
def decodeTableWord (nbits w : Nat) : Option Instr :=
  match decode (BitVec.ofNat 32 (w % 2 ^ nbits)) with
  | .ok i => some i
  | .error _ => none

end Sys2Proof
end

