-- ==== Sys2Proof/Machine/Operands.lean ====
section
/-! DEFINITION. The operands of the commands: which argument register carries which form (30_encoding.md R84), and
the checks of the forms (R85, R86), the operand half of `Decode` (R92). -/

namespace Sys2Proof

/-- The value of an argument register (R10). -/
def getArg (a : Args) (r : ArgReg) : Word64 :=
  match r with
  | .arg0 => a.arg0
  | .arg1 => a.arg1
  | .arg2 => a.arg2
  | .arg3 => a.arg3
  | .arg4 => a.arg4
  | .arg5 => a.arg5
  | .arg6 => a.arg6

/-- The argument registers with one of them written (R21). -/
def setArg (a : Args) (r : ArgReg) (v : Word64) : Args :=
  match r with
  | .arg0 => { a with arg0 := v }
  | .arg1 => { a with arg1 := v }
  | .arg2 => { a with arg2 := v }
  | .arg3 => { a with arg3 := v }
  | .arg4 => { a with arg4 := v }
  | .arg5 => { a with arg5 := v }
  | .arg6 => { a with arg6 := v }

/-- The forms of an operand (R84 to R86). -/
inductive OperandForm where
  /-- A buffer-memory address, used as is. -/
  | addr
  /-- An unsigned 32-bit length, count or capacity; bits 63:32 must be 0. -/
  | len32
  /-- A byte; bits 63:8 must be 0. -/
  | byte8
  /-- CREATE's keySize, compared whole. -/
  | value64
  deriving DecidableEq, Repr

/-- The operand registers of each opcode (R84); a register that is not listed is ignored. -/
def operandsOf (op : Op) : List (ArgReg × OperandForm) :=
  match op with
  | .caps | .dispose | .blksz | .cbcReset | .gcmReset => []
  | .create => [(.arg0, .value64)]
  | .cbcInit => [(.arg0, .addr), (.arg1, .len32), (.arg2, .addr), (.arg3, .len32)]
  | .cbcProcess => [(.arg0, .addr), (.arg1, .len32), (.arg2, .len32), (.arg3, .addr), (.arg4, .len32)]
  | .gcmInit =>
    [(.arg0, .addr), (.arg1, .len32), (.arg2, .addr), (.arg3, .len32), (.arg4, .addr), (.arg5, .len32), (.arg6, .len32)]
  | .gcmAadByte => [(.arg0, .byte8)]
  | .gcmAadBytes => [(.arg0, .addr), (.arg1, .len32)]
  | .gcmByte => [(.arg0, .byte8), (.arg3, .addr), (.arg4, .len32)]
  | .gcmBytes => [(.arg0, .addr), (.arg1, .len32), (.arg3, .addr), (.arg4, .len32)]
  | .gcmFinal => [(.arg3, .addr), (.arg4, .len32)]
  | .gcmUosize => [(.arg1, .len32)]
  | .gcmOsize => [(.arg1, .len32)]
  | .gcmMac => [(.arg3, .addr), (.arg4, .len32)]

/-- A register value is legal for a form (R85, R86). -/
def formLegal (f : OperandForm) (v : Word64) : Bool :=
  match f with
  | .addr => true
  | .len32 => v.extractLsb' 32 32 == 0
  | .byte8 => v.extractLsb' 8 56 == 0
  | .value64 => true

/-- Every operand of the opcode is legal: the operand half of `Decode` (R92). -/
def operandsLegal (op : Op) (a : Args) : Bool := (operandsOf op).all fun x => formLegal x.2 (getArg a x.1)

/-- The value of a `len32` operand, `x[ARGi][31:0]` (R85). -/
def len32 (a : Args) (r : ArgReg) : Nat := ((getArg a r).extractLsb' 0 32).toNat

/-- The value of a `byte8` operand, `x[ARG0][7:0]` (R86). -/
def byte8 (a : Args) : Byte := (getArg a .arg0).extractLsb' 0 8

/-- The value of an `addr` operand as a buffer-memory address (R84). -/
def addrOf (a : Args) (r : ArgReg) : Nat := (getArg a r).toNat

end Sys2Proof
end

