-- ==== Sys2Proof/Machine/Ops.lean ====
section
/-! DEFINITION. The named operations over memory and the session table (20_memory.md R60 to R69, 10_state.md R28), the admission of
memory (R61), the resolution of a handle (30_encoding.md R92), and the frame every session command shares. -/

namespace Sys2Proof.Machine

/-- What a step of the machine answers. -/
abbrev Res := Host.Outcome State Fault Refusal

/-! Sparse stores: memory and the session table keep one canonical form. -/

/-- The value at key `k`; a key that is not listed holds `d`. -/
def sparseGet {α : Type} (d : α) (l : List (Nat × α)) (k : Nat) : α :=
  match l with
  | [] => d
  | e :: t => if e.1 = k then e.2 else sparseGet d t k

/-- The store with key `k` not listed. -/
def sparseErase {α : Type} (l : List (Nat × α)) (k : Nat) : List (Nat × α) := l.filter fun e => e.1 != k

/-- The store with `v` listed at key `k`, keys rising. -/
def sparseInsert {α : Type} (l : List (Nat × α)) (k : Nat) (v : α) : List (Nat × α) :=
  match l with
  | [] => [(k, v)]
  | e :: t => if k < e.1 then (k, v) :: e :: t else if k = e.1 then (k, v) :: t else e :: sparseInsert t k v

/-- The store with `v` at key `k`; a key that holds `d` is not listed. -/
def sparseSet {α : Type} [DecidableEq α] (d : α) (l : List (Nat × α)) (k : Nat) (v : α) : List (Nat × α) :=
  if v = d then sparseErase l k else sparseInsert l k v

/-- The canonical form: keys strictly rising, and no entry that holds `d`. -/
abbrev SparseWf {α : Type} (d : α) (l : List (Nat × α)) : Prop :=
  l.Pairwise (fun x y => x.1 < y.1) ∧ ∀ e ∈ l, e.2 ≠ d

/-! Buffer memory. -/

/-- `MEM[a]` (R60). -/
def memByte (m : Memory) (a : Nat) : Byte := sparseGet unwrittenByte m a

/-- `MemRead(a, n)` (R60). -/
def memRead (m : Memory) (a n : Nat) : List Byte :=
  match n with
  | 0 => []
  | k + 1 => memByte m a :: memRead m (a + 1) k

/-- `MemWrite(a, len(v), v)`, in increasing address order (R60, R68). -/
def memWrite (m : Memory) (a : Nat) (v : List Byte) : Memory :=
  match v with
  | [] => m
  | x :: rest => memWrite (sparseSet unwrittenByte m a x) (a + 1) rest

/-- The canonical form of buffer memory: rising addresses that exist (R60), no entry equal to what an unlisted address
reads as. -/
abbrev MemoryWf (m : Memory) : Prop := SparseWf unwrittenByte m ∧ ∀ e ∈ m, e.1 < 2 ^ 64

/-- `Accessible(a, n)` (R61): the empty range, or a range inside an accessible interval of the address space. -/
def accessible (p : Platform) (a n : Nat) : Bool :=
  n == 0 || p.regions.any fun r => decide (r.base ≤ a) && decide (a + n ≤ r.base + r.len) && decide (r.base + r.len ≤ 2 ^ 64)

/-- The state with `v` stored at `a` in buffer memory. -/
def State.store (s : State) (a : Nat) (v : List Byte) : State := { s with mem := memWrite s.mem a v }

/-! The session table. -/

/-- `SESS[h]` (R28). -/
def State.slot (s : State) (h : Nat) : Slot := sparseGet Slot.free s.sess h

/-- The state with `SESS[h]` written. -/
def State.setSlot (s : State) (h : Nat) (x : Slot) : State := { s with sess := sparseSet Slot.free s.sess h x }

/-- `Resolve(m)` (R92): the slot of the handle, unless the handle is 0, out of range or free, or the slot is of another
mode than the command's; `m = none` is ANY. -/
def State.resolve (s : State) (m : Option Mode) (h : Handle) : Option Slot :=
  if h.toNat = 0 ∨ (s.slot h.toNat).alloc = false ∨ numSessions s.cfg < h.toNat then none
  else if m ≠ none ∧ m ≠ some (s.slot h.toNat).mode then none
  else some (s.slot h.toNat)

/-- The frame of every session command (R92): the operand half of `Decode`, then `Resolve`, then the command's own rule on
its slot. -/
def sessionCommand (op : Op) (m : Option Mode) (h : Handle) (s : State) (body : Slot → State) : Res :=
  if operandsLegal op s.args then
    match s.resolve m h with
    | some x => .next (body x)
    | none => .next (s.raise .invalidHandle)
  else .next (s.raise .illegalCommand)

/-! Keys. -/

/-- The bytes of a key size (R29). -/
def keyBytes (k : KeySize) : Nat :=
  match k with
  | .none => 0
  | .b16 => 16
  | .b24 => 24
  | .b32 => 32

/-- The key size of a number of bytes: 16, 24 or 32 (R6). -/
def keySizeOf (n : Nat) : Option KeySize :=
  match n with
  | 16 => some .b16
  | 24 => some .b24
  | 32 => some .b32
  | _ => none

/-- `k || 0^(32 - keyLen)` (R111, R149). -/
def keyField (k : List Byte) : BitVec 256 := BitVec.ofNat 256 (intBe (k ++ List.replicate (32 - k.length) 0))

/-- `K = S.key[0:S.keySize]` (41_cbc.md, 42_aead.md). A free slot (keySize 0) has no key and no command uses one; the value
there is free (log entry 16). -/
def slotKey (x : Slot) : AesKey :=
  match x.keySize with
  | .none => Config.noKey
  | .b16 => .k128 (x.key.extractLsb' 128 128)
  | .b24 => .k192 (x.key.extractLsb' 64 192)
  | .b32 => .k256 x.key

end Sys2Proof.Machine
end

