-- ==== Sys2Proof/Machine/Cbc.lean ====
section
/-! DEFINITION. The chained-block mode engine (41_cbc.md R110 to R114): BLKSZ, CBC.INIT, CBC.PROCESS, CBC.RESET. -/

namespace Sys2Proof.Machine

/-- The loop of R112, encrypt: the output blocks and the chaining value after them. -/
def cbcEncrypt (p : Platform) (k : AesKey) (c : Block) (xs : List Block) : List Block × Block :=
  match xs with
  | [] => ([], c)
  | x :: rest =>
    let y := aesEnc p k (x ^^^ c)
    let r := cbcEncrypt p k y rest
    (y :: r.1, r.2)

/-- The loop of R112, decrypt. -/
def cbcDecrypt (p : Platform) (k : AesKey) (c : Block) (xs : List Block) : List Block × Block :=
  match xs with
  | [] => ([], c)
  | x :: rest =>
    let y := aesDec p k x ^^^ c
    let r := cbcDecrypt p k x rest
    (y :: r.1, r.2)

/-- The loop of R112 in the session's direction. -/
def cbcCrypt (p : Platform) (x : Slot) (xs : List Block) : List Block × Block :=
  match x.dir with
  | .encrypt => cbcEncrypt p (slotKey x) x.chain xs
  | .decrypt => cbcDecrypt p (slotKey x) x.chain xs

/-- BLKSZ (R114). -/
def execBlksz (s : State) : Res := .next (s.finish .ok 16)

/-- CBC.INIT (R111). -/
def execCbcInit (h : Handle) (s : State) : Res :=
  sessionCommand .cbcInit (some .cbc) h s fun x =>
    let keyAddr := addrOf s.args .arg0
    let keyLen := len32 s.args .arg1
    let ivAddr := addrOf s.args .arg2
    let ivLen := len32 s.args .arg3
    if keySizeOf keyLen = none ∨ keyLen ≠ keyBytes x.keySize then s.raise .invalidKeySize
    else if ivLen ≠ 16 then s.raise .invalidIVLength
    else if ¬ accessible s.cfg keyAddr keyLen ∨ ¬ accessible s.cfg ivAddr 16 then s.raise .busError
    else
      let v := blockOfBytes (memRead s.mem ivAddr 16)
      (s.setSlot h.toNat
        { x with key := keyField (memRead s.mem keyAddr keyLen), iv := v, chain := v, phase := .ready }).finish .ok 0

/-- CBC.PROCESS (R112). All input is read before any output is written (R68). -/
def execCbcProcess (h : Handle) (s : State) : Res :=
  sessionCommand .cbcProcess (some .cbc) h s fun x =>
    let inAddr := addrOf s.args .arg0
    let inCap := len32 s.args .arg1
    let n := len32 s.args .arg2
    let outAddr := addrOf s.args .arg3
    let outCap := len32 s.args .arg4
    if x.phase ≠ .ready then s.raise .invalidStateTransition
    else if inCap < 16 * n ∨ outCap < 16 * n then s.raise .outputBufferTooShort
    else if ¬ accessible s.cfg inAddr (16 * n) ∨ ¬ accessible s.cfg outAddr (16 * n) then s.raise .busError
    else
      let r := cbcCrypt s.cfg x (blocksOf n (memRead s.mem inAddr (16 * n)))
      ((s.setSlot h.toNat { x with chain := r.2 }).store outAddr (bytesOfBlocks r.1)).finish .ok
        (BitVec.ofNat 64 (16 * n))

/-- CBC.RESET (R113). -/
def execCbcReset (h : Handle) (s : State) : Res :=
  sessionCommand .cbcReset (some .cbc) h s fun x =>
    if x.phase ≠ .ready then s.raise .invalidStateTransition
    else (s.setSlot h.toNat { x with chain := x.iv }).finish .ok 0

end Sys2Proof.Machine
end

