-- ==== Sys2Proof/Machine/Dispatcher.lean ====
section
/-! DEFINITION. The capability query (40_capability.md R102) and the engine factory (44_dispatcher.md R200 to R202):
CAPS, CREATE, DISPOSE. -/

namespace Sys2Proof.Machine

/-- CAPS.AES_HW (R25). -/
def capsAesHw (c : Word32) : Bool := c.getLsbD 0

/-- CAPS.VAES_WIDTH (R25). -/
def capsVaesWidth (c : Word32) : BitVec 2 := c.extractLsb' 1 2

/-- `WIDE_OK(m, k)` (R200). A free slot's key size 0 is no entry of the table. -/
def wideOk (t : WideTable) (m : Mode) (k : KeySize) : Bool :=
  match m, k with
  | _, .none => false
  | .cbc, .b16 => t.cbc16
  | .cbc, .b24 => t.cbc24
  | .cbc, .b32 => t.cbc32
  | .aead, .b16 => t.aead16
  | .aead, .b24 => t.aead24
  | .aead, .b32 => t.aead32

/-- `SelectPath(m, k)` (R200). -/
def selectPath (caps : Word32) (t : WideTable) (m : Mode) (k : KeySize) : Path :=
  if capsAesHw caps = true ∧ capsVaesWidth caps ≠ 0 ∧ wideOk t m k = true then .wide
  else if capsAesHw caps = true then .narrow
  else .soft

/-- The number of a path (R29). -/
def pathNumber (p : Path) : Nat :=
  match p with
  | .soft => 0
  | .narrow => 1
  | .wide => 2

/-- The least `h` among `lo, lo + 1, .. lo + n - 1` whose slot is free (R201). -/
def firstFree (s : State) (n lo : Nat) : Option Nat :=
  match n with
  | 0 => none
  | k + 1 => if (s.slot lo).alloc then firstFree s k (lo + 1) else some lo

/-- The slot a successful CREATE leaves (R38, R201). -/
def createdSlot (m : Mode) (d : Dir) (k : KeySize) (p : Path) : Slot :=
  { Slot.free with alloc := true, mode := m, dir := d, keySize := k, path := p }

/-- CAPS (R102). -/
def execCaps (s : State) : Res := .next (s.finish .ok (s.caps.setWidth 64))

/-- CREATE (R201). The key size is compared on all 64 bits of ARG0 (R85). -/
def execCreate (d : Dir) (m : Mode) (s : State) : Res :=
  if operandsLegal .create s.args then
    match keySizeOf (getArg s.args .arg0).toNat with
    | none => .next (s.raise .unsupportedKeySize)
    | some k =>
      match firstFree s (numSessions s.cfg) 1 with
      | none => .next (s.raise .noFreeSession)
      | some h =>
        let p := selectPath s.caps s.cfg.wideOk m k
        .next ((s.setSlot h (createdSlot m d k p)).finish .ok (BitVec.ofNat 64 (pathNumber p * 2 ^ 16 + h)))
  else .next (s.raise .illegalCommand)

/-- DISPOSE (R202): either mode, any phase. -/
def execDispose (h : Handle) (s : State) : Res :=
  sessionCommand .dispose none h s fun _ => (s.setSlot h.toNat Slot.free).finish .ok 0

end Sys2Proof.Machine
end

