-- ==== Sys2Proof/Machine/Gf.lean ====
section
/-! DEFINITION. The algebra of the AEAD engine (42_aead.md R141 to R144): GF(2^128) multiplication, the counter
increment, GHASH and the base counter block. -/

namespace Sys2Proof.Machine

/-- The block `R = E1 00 .. 00` (R141). -/
def gfR : Block := 0xE1#128 <<< 120

/-- The loop of `GFMul` with `n` iterations left: bit `x_i` with `i = 128 - n` is next (R141). -/
def gfLoop (x : Block) (n : Nat) (z v : Block) : Block :=
  match n with
  | 0 => z
  | k + 1 =>
    gfLoop x k (if x.getMsbD (127 - k) then z ^^^ v else z) (if v.getLsbD 0 then (v >>> 1) ^^^ gfR else v >>> 1)

/-- `GFMul(X, Y)` (R141). -/
def gfMul (x y : Block) : Block := gfLoop x 128 0 y

/-- `inc32(X)`: the last 4 bytes count, big-endian, mod 2^32; bytes 0..11 stay (R142). -/
def inc32 (x : Block) : Block := x.extractLsb' 32 96 ++ (x.extractLsb' 0 32 + 1#32)

/-- `inc32^n` (R34 (h)). -/
def inc32Iter (n : Nat) (x : Block) : Block :=
  match n with
  | 0 => x
  | k + 1 => inc32 (inc32Iter k x)

/-- The accumulator over a list of blocks, from `y` (R143, R145). -/
def ghashFrom (h y : Block) (xs : List Block) : Block := xs.foldl (fun acc x => gfMul (acc ^^^ x) h) y

/-- `GHASH(H, X)` for a byte string whose length is a multiple of 16 (R143). -/
def ghash (h : Block) (x : List Byte) : Block := ghashFrom h 0 (blocksOf (x.length / 16) x)

/-- `DeriveJ0(H, N)` (R144). -/
def deriveJ0 (h : Block) (nonce : List Byte) : Block :=
  if nonce.length = 12 then blockOfBytes (nonce ++ [0, 0, 0, 1])
  else ghash h (pad16 nonce ++ List.replicate 8 0 ++ beBytes 8 (8 * nonce.length))

end Sys2Proof.Machine
end

