-- ==== Sys2Proof/Machine/Aead.lean ====
section
/-! DEFINITION. The procedures the AEAD commands share (42_aead.md R145 to R153, R157, R158), on one slot. -/

namespace Sys2Proof.Machine

/-- `DATA_MAX = 2^36 - 32` (R6, R148). -/
def dataMax : Nat := 2 ^ 36 - 32

/-- `AAD_MAX = 2^61 - 1` (R6, R148). -/
def aadMax : Nat := 2 ^ 61 - 1

/-- `Fold(S, X)` (R145). -/
def foldBlock (x : Slot) (b : Block) : Slot := { x with acc := gfMul (x.acc ^^^ b) x.hkey }

/-- One byte of `AbsorbAAD` (R150). -/
def absorbAadByte (x : Slot) (b : Byte) : Slot :=
  if (x.aadBuf ++ [b]).length = 16 then { foldBlock x (blockOfBytes (x.aadBuf ++ [b])) with aadBuf := [] }
  else { x with aadBuf := x.aadBuf ++ [b] }

/-- `AbsorbAAD(S, A)` (R150). -/
def absorbAad (x : Slot) (a : List Byte) : Slot :=
  { a.foldl absorbAadByte x with aadCount := x.aadCount + BitVec.ofNat 64 a.length }

/-- `CloseAAD(S)` (R151). -/
def closeAad (x : Slot) : Slot :=
  if 0 < x.aadBuf.length then { foldBlock x (blockOfBytes (pad16 x.aadBuf)) with aadBuf := [], phase := .data }
  else { x with phase := .data }

/-- `if S.phase == AAD: CloseAAD(S)` (R156, R159, R160). -/
def enterData (x : Slot) : Slot := if x.phase = .aad then closeAad x else x

/-- `DataBlock(S, X)` (R152): the slot after it and the output block. -/
def dataBlock (p : Platform) (x : Slot) (b : Block) : Slot × Block :=
  let y := b ^^^ aesEnc p (slotKey x) x.ctr
  let c := match x.dir with
    | .encrypt => y
    | .decrypt => b
  ({ foldBlock x c with ctr := inc32 x.ctr, dataCount := x.dataCount + 16 }, y)

/-- How many bytes `dataBuf` holds before a block is processed (R153). -/
def holdLen (x : Slot) : Nat :=
  match x.dir with
  | .encrypt => 16
  | .decrypt => 16 + x.tagLen.toNat

/-- One byte of `AbsorbData` (R153). -/
def absorbDataByte (p : Platform) (x : Slot) (b : Byte) : Slot × List Byte :=
  if (x.dataBuf ++ [b]).length = holdLen x then
    let r := dataBlock p x (blockOfBytes ((x.dataBuf ++ [b]).take 16))
    ({ r.1 with dataBuf := (x.dataBuf ++ [b]).drop 16 }, bytesOfBlock r.2)
  else ({ x with dataBuf := x.dataBuf ++ [b] }, [])

/-- `AbsorbData(S, D)` (R153): the slot after it and the output bytes. -/
def absorbData (p : Platform) (x : Slot) (d : List Byte) : Slot × List Byte :=
  match d with
  | [] => (x, [])
  | b :: rest =>
    let r := absorbDataByte p x b
    let q := absorbData p r.1 rest
    (q.1, r.2 ++ q.2)

/-- `Pending(S, n)` (R157). -/
def pending (x : Slot) (n : Nat) : Nat :=
  match x.dir with
  | .encrypt => x.dataBuf.length + n
  | .decrypt => x.dataBuf.length + n - x.tagLen.toNat

/-- `UOSize(S, n)` (R157). -/
def uoSize (x : Slot) (n : Nat) : Nat := pending x n - pending x n % 16

/-- `OSize(S, n)` (R158). -/
def oSize (x : Slot) (n : Nat) : Nat :=
  match x.dir with
  | .encrypt => x.dataBuf.length + n + x.tagLen.toNat
  | .decrypt => x.dataBuf.length + n - x.tagLen.toNat

/-- `LengthBlock(S)` (R147). -/
def lengthBlock (x : Slot) : Block :=
  blockOfBytes (beBytes 8 (8 * x.aadCount.toNat) ++ beBytes 8 (8 * x.dataCount.toNat))

/-- `TagOf(S)` (R146). -/
def tagOf (p : Platform) (x : Slot) : Block := aesEnc p (slotKey x) x.j0 ^^^ x.acc

/-- The first `tagLen` bytes of the tag (R146, R164). -/
def tagBytes (x : Slot) : List Byte := (bytesOfBlock x.tag).take x.tagLen.toNat

/-- The data bytes GCM.FINAL has still to process, `m` of R160. -/
def finalLen (x : Slot) : Nat :=
  match x.dir with
  | .encrypt => x.dataBuf.length
  | .decrypt => x.dataBuf.length - x.tagLen.toNat

/-- The last partial block of R160: the slot after it and the output bytes `Y`. -/
def finalBlock (p : Platform) (x : Slot) : Slot × List Byte :=
  let m := finalLen x
  if 0 < m then
    let d := x.dataBuf.take m
    let y := xorBytes d (bytesOfBlock (aesEnc p (slotKey x) x.ctr))
    let c := match x.dir with
      | .encrypt => y
      | .decrypt => d
    ({ foldBlock x (blockOfBytes (pad16 c)) with dataCount := x.dataCount + BitVec.ofNat 64 m }, y)
  else (x, [])

/-- The end of R160: the length block folded, the tag computed, the session finalized. -/
def sealTag (p : Platform) (x : Slot) : Slot :=
  let f := foldBlock x (lengthBlock x)
  { f with tag := tagOf p f, tagValid := true, dataBuf := [], phase := .final }

end Sys2Proof.Machine
end

