-- ==== Sys2Proof/Machine/Gcm.lean ====
section
/-! DEFINITION. The commands of the counter-mode AEAD engine (42_aead.md R149, R154 to R156, R159 to R165). -/

namespace Sys2Proof.Machine

/-- The slot a successful GCM.INIT leaves, from the key, nonce and AAD it read (R149, R33). -/
def initSlot (p : Platform) (x : Slot) (d : Dir) (key nonce aad : List Byte) (tagBits : Nat) : Slot :=
  let k := { x with key := keyField key, dir := d }
  let hk := aesEnc p (slotKey k) 0
  let j := deriveJ0 hk nonce
  let fresh : Slot :=
    { k with
      hkey := hk, j0 := j, ctr := inc32 j, acc := 0, aadCount := 0, dataCount := 0, aadBuf := [], dataBuf := [],
      tagLen := BitVec.ofNat 5 (tagBits / 8), tag := 0, tagValid := false, phase := .aad }
  let y := absorbAad fresh aad
  { y with ckAcc := y.acc, ckAadCount := y.aadCount, ckAadBuf := y.aadBuf }

/-- GCM.INIT (R149). -/
def execGcmInit (h : Handle) (d : Dir) (s : State) : Res :=
  sessionCommand .gcmInit (some .aead) h s fun x =>
    let keyAddr := addrOf s.args .arg0
    let keyLen := len32 s.args .arg1
    let nonceAddr := addrOf s.args .arg2
    let nonceLen := len32 s.args .arg3
    let aadAddr := addrOf s.args .arg4
    let aadLen := len32 s.args .arg5
    let tagBits := len32 s.args .arg6
    if keySizeOf keyLen = none ∨ keyLen ≠ keyBytes x.keySize then s.raise .invalidKeySize
    else if nonceLen = 0 then s.raise .invalidIVLength
    else if tagBits % 8 ≠ 0 ∨ tagBits < 32 ∨ 128 < tagBits then s.raise .invalidTagLength
    else if ¬ accessible s.cfg keyAddr keyLen ∨ ¬ accessible s.cfg nonceAddr nonceLen ∨
        ¬ accessible s.cfg aadAddr aadLen then s.raise .busError
    else
      (s.setSlot h.toNat
        (initSlot s.cfg x d (memRead s.mem keyAddr keyLen) (memRead s.mem nonceAddr nonceLen)
          (memRead s.mem aadAddr aadLen) tagBits)).finish .ok 0

/-- GCM.AADBYTE (R154). -/
def execGcmAadByte (h : Handle) (s : State) : Res :=
  sessionCommand .gcmAadByte (some .aead) h s fun x =>
    if x.phase ≠ .aad then s.raise .invalidStateTransition
    else if aadMax < x.aadCount.toNat + 1 then s.raise .dataLimitExceeded
    else (s.setSlot h.toNat (absorbAad x [byte8 s.args])).finish .ok 0

/-- GCM.AADBYTES (R155). -/
def execGcmAadBytes (h : Handle) (s : State) : Res :=
  sessionCommand .gcmAadBytes (some .aead) h s fun x =>
    let aadAddr := addrOf s.args .arg0
    let n := len32 s.args .arg1
    if x.phase ≠ .aad then s.raise .invalidStateTransition
    else if aadMax < x.aadCount.toNat + n then s.raise .dataLimitExceeded
    else if ¬ accessible s.cfg aadAddr n then s.raise .busError
    else (s.setSlot h.toNat (absorbAad x (memRead s.mem aadAddr n))).finish .ok 0

/-- GCM.BYTE (R156). -/
def execGcmByte (h : Handle) (s : State) : Res :=
  sessionCommand .gcmByte (some .aead) h s fun x =>
    let outAddr := addrOf s.args .arg3
    let outCap := len32 s.args .arg4
    let need := uoSize x 1
    if x.phase ≠ .aad ∧ x.phase ≠ .data then s.raise .invalidStateTransition
    else if outCap < need then s.raise .outputLengthException
    else if dataMax < x.dataCount.toNat + pending x 1 then s.raise .dataLimitExceeded
    else if ¬ accessible s.cfg outAddr need then s.raise .busError
    else
      let r := absorbData s.cfg (enterData x) [byte8 s.args]
      ((s.setSlot h.toNat r.1).store outAddr r.2).finish .ok (BitVec.ofNat 64 need)

/-- GCM.BYTES (R159). All input is read before any output is written (R68). -/
def execGcmBytes (h : Handle) (s : State) : Res :=
  sessionCommand .gcmBytes (some .aead) h s fun x =>
    let inAddr := addrOf s.args .arg0
    let n := len32 s.args .arg1
    let outAddr := addrOf s.args .arg3
    let outCap := len32 s.args .arg4
    let need := uoSize x n
    if x.phase ≠ .aad ∧ x.phase ≠ .data then s.raise .invalidStateTransition
    else if n = 0 then s.finish .ok 0
    else if outCap < need then s.raise .outputLengthException
    else if dataMax < x.dataCount.toNat + pending x n then s.raise .dataLimitExceeded
    else if ¬ accessible s.cfg inAddr n ∨ ¬ accessible s.cfg outAddr need then s.raise .busError
    else
      let r := absorbData s.cfg (enterData x) (memRead s.mem inAddr n)
      ((s.setSlot h.toNat r.1).store outAddr r.2).finish .ok (BitVec.ofNat 64 need)

/-- GCM.FINAL (R160, R161). -/
def execGcmFinal (h : Handle) (s : State) : Res :=
  sessionCommand .gcmFinal (some .aead) h s fun x =>
    let outAddr := addrOf s.args .arg3
    let outCap := len32 s.args .arg4
    let m := finalLen x
    let nOut := match x.dir with
      | .encrypt => m + x.tagLen.toNat
      | .decrypt => m
    if x.phase ≠ .aad ∧ x.phase ≠ .data then s.raise .invalidStateTransition
    else if x.dir = .decrypt ∧ x.dataBuf.length < x.tagLen.toNat then
      (s.setSlot h.toNat { enterData x with dataBuf := [], tagValid := false, phase := .final }).finish
        .authenticationFailure 0
    else if outCap < nOut then s.raise .outputLengthException
    else if ¬ accessible s.cfg outAddr nOut then s.raise .busError
    else
      let r := finalBlock s.cfg (enterData x)
      let z := sealTag s.cfg r.1
      let t := s.setSlot h.toNat z
      match x.dir with
      | .encrypt => (t.store outAddr (r.2 ++ tagBytes z)).finish .ok (BitVec.ofNat 64 nOut)
      | .decrypt =>
        (t.store outAddr r.2).finish (if tagBytes z = x.dataBuf.drop m then .ok else .authenticationFailure)
          (BitVec.ofNat 64 m)

/-- GCM.UOSIZE (R162). -/
def execGcmUosize (h : Handle) (s : State) : Res :=
  sessionCommand .gcmUosize (some .aead) h s fun x =>
    if x.phase = .uninit then s.raise .invalidStateTransition
    else s.finish .ok (BitVec.ofNat 64 (uoSize x (len32 s.args .arg1)))

/-- GCM.OSIZE (R163). -/
def execGcmOsize (h : Handle) (s : State) : Res :=
  sessionCommand .gcmOsize (some .aead) h s fun x =>
    if x.phase = .uninit then s.raise .invalidStateTransition
    else s.finish .ok (BitVec.ofNat 64 (oSize x (len32 s.args .arg1)))

/-- GCM.MAC (R164). -/
def execGcmMac (h : Handle) (s : State) : Res :=
  sessionCommand .gcmMac (some .aead) h s fun x =>
    let outAddr := addrOf s.args .arg3
    let outCap := len32 s.args .arg4
    if x.phase ≠ .final ∨ x.dir ≠ .encrypt ∨ x.tagValid = false then s.raise .invalidStateTransition
    else if outCap < x.tagLen.toNat then s.raise .outputLengthException
    else if ¬ accessible s.cfg outAddr x.tagLen.toNat then s.raise .busError
    else (s.store outAddr (tagBytes x)).finish .ok (BitVec.ofNat 64 x.tagLen.toNat)

/-- The slot GCM.RESET with KEEP = 1 leaves: the checkpoint (R33, R165). -/
def restartSlot (x : Slot) : Slot :=
  { x with
    ctr := inc32 x.j0, acc := x.ckAcc, aadCount := x.ckAadCount, aadBuf := x.ckAadBuf, dataCount := 0, dataBuf := [],
    tag := 0, tagValid := false, phase := .aad }

/-- The slot GCM.RESET with KEEP = 0 leaves: every field of R31 and the key at its value after CREATE, in UNINIT; `alloc`,
`mode`, `dir`, `keySize`, `path` unchanged (R165), and with them `iv` and `chain`, which are not of R31. -/
def clearedSlot (x : Slot) : Slot :=
  { Slot.free with
    alloc := x.alloc, mode := x.mode, dir := x.dir, keySize := x.keySize, path := x.path, iv := x.iv, chain := x.chain }

/-- GCM.RESET (R165). -/
def execGcmReset (h : Handle) (keep : Bool) (s : State) : Res :=
  sessionCommand .gcmReset (some .aead) h s fun x =>
    if keep then
      if x.phase = .uninit then s.raise .invalidStateTransition
      else (s.setSlot h.toNat (restartSlot x)).finish .ok 0
    else (s.setSlot h.toNat (clearedSlot x)).finish .ok 0

end Sys2Proof.Machine
end

