-- ==== Sys2Proof/Machine/Dispatch.lean ====
section
/-! DEFINITION. One arm per command (30_encoding.md R82), each a direct call of its meaning. -/

namespace Sys2Proof.Machine

def exec (i : Instr) (s : State) : Host.Outcome State Fault Refusal :=
  match i with
  | .caps => Sys2Proof.Machine.execCaps s
  | .create d m => Sys2Proof.Machine.execCreate d m s
  | .dispose h => Sys2Proof.Machine.execDispose h s
  | .blksz => Sys2Proof.Machine.execBlksz s
  | .cbcInit h => Sys2Proof.Machine.execCbcInit h s
  | .cbcProcess h => Sys2Proof.Machine.execCbcProcess h s
  | .cbcReset h => Sys2Proof.Machine.execCbcReset h s
  | .gcmInit h d => Sys2Proof.Machine.execGcmInit h d s
  | .gcmAadByte h => Sys2Proof.Machine.execGcmAadByte h s
  | .gcmAadBytes h => Sys2Proof.Machine.execGcmAadBytes h s
  | .gcmByte h => Sys2Proof.Machine.execGcmByte h s
  | .gcmBytes h => Sys2Proof.Machine.execGcmBytes h s
  | .gcmFinal h => Sys2Proof.Machine.execGcmFinal h s
  | .gcmUosize h => Sys2Proof.Machine.execGcmUosize h s
  | .gcmOsize h => Sys2Proof.Machine.execGcmOsize h s
  | .gcmMac h => Sys2Proof.Machine.execGcmMac h s
  | .gcmReset h keep => Sys2Proof.Machine.execGcmReset h keep s

end Sys2Proof.Machine
end

