-- ==== Sys2Proof/Machine/Window.lean ====
section
/-! DEFINITION. The host's accesses (20_memory.md R62, R63, R71; 70_reset_and_hazards.md R250, R260): the register window and
buffer memory. -/

namespace Sys2Proof.Machine

/-- The offset in the 256-byte window at MMIO_BASE of a host address (R62). DESIGN CHOICE (log entry 23): host addresses have
64 bits and do not wrap, so of a window whose base is above 2^64 - 256 the end has no address. -/
def windowOffset (p : Platform) (addr : Word64) : Option Nat :=
  if p.mmioBase.toNat ≤ addr.toNat ∧ addr.toNat < p.mmioBase.toNat + 256 then some (addr.toNat - p.mmioBase.toNat)
  else none

/-- A naturally aligned access of 4 or 8 bytes, of the width of the registers it covers (R63): the locations below 0x10 are
32-bit, from 0x10 on 64-bit registers with their halves, and the reserved range from 0x50 (log entries 7, 8). -/
def accessLegal (off n : Nat) : Bool :=
  (n == 4 && off % 4 == 0) || (n == 8 && off % 8 == 0 && decide (0x10 ≤ off))

/-- The argument register at an offset of the map (R62). -/
def argAtOffset (off : Nat) : Option ArgReg :=
  match off / 8 with
  | 2 => some .arg0
  | 3 => some .arg1
  | 4 => some .arg2
  | 5 => some .arg3
  | 6 => some .arg4
  | 7 => some .arg5
  | 8 => some .arg6
  | _ => none

/-- The half of a 64-bit register at an aligned offset: bits 31:0 at the register's offset, bits 63:32 at the offset + 4
(R63). -/
def halfAt (off : Nat) (v : Word64) : Word32 := if off % 8 = 4 then v.extractLsb' 32 32 else v.extractLsb' 0 32

/-- A 64-bit register with the half at an aligned offset written (R63). -/
def setHalfAt (off : Nat) (v : Word64) (w : Word32) : Word64 :=
  if off % 8 = 4 then w ++ v.extractLsb' 0 32 else v.extractLsb' 32 32 ++ w

/-- The 32-bit word a read at an aligned offset returns (R62): CMD, STATUS, CAPS, the halves of ARG0..ARG6 and RESULT, and 0 at
every reserved location. -/
def windowWord (s : State) (off : Nat) : Word32 :=
  if off = 0x00 then s.cmd
  else if off = 0x04 then s.status
  else if off = 0x08 then s.caps
  else
    match argAtOffset off with
    | some r => halfAt off (getArg s.args r)
    | none => if off / 8 = 9 then halfAt off s.result else 0

/-- The bytes a legal read of the window returns, little-endian (R63). -/
def windowLoad (s : State) (off n : Nat) : List Byte :=
  if n = 8 then leBytes 4 (windowWord s off).toNat ++ leBytes 4 (windowWord s (off + 4)).toNat
  else leBytes 4 (windowWord s off).toNat

/-- A 32-bit write at an aligned offset (R62, R63): CMD starts a command; a half of ARGi changes only that half; a read-only or
reserved location ignores it. -/
def writeWord (s : State) (off : Nat) (w : Word32) : State :=
  if off = 0x00 then { s with cmd := w, cmdStarted := true }
  else
    match argAtOffset off with
    | some r => { s with args := setArg s.args r (setHalfAt off (getArg s.args r) w) }
    | none => s

/-- A legal write of the window, little-endian (R63). -/
def windowStore (s : State) (off : Nat) (bytes : List Byte) : State :=
  if bytes.length = 8 then
    writeWord (writeWord s off (BitVec.ofNat 32 (intLe (bytes.take 4)))) (off + 4) (BitVec.ofNat 32 (intLe (bytes.drop 4)))
  else writeWord s off (BitVec.ofNat 32 (intLe bytes))

/-- One access of the host or the platform (R12, R260). -/
def hostAccess (a : HostAccess) (s : State) : Res :=
  match a with
  | .windowWrite addr bytes =>
    match windowOffset s.cfg addr with
    | none => .refused .outsideWindow
    | some off => if accessLegal off bytes.length then .next (windowStore s off bytes) else .refused .hostBusError
  | .windowRead addr n =>
    match windowOffset s.cfg addr with
    | none => .refused .outsideWindow
    | some off => if accessLegal off n then .next { s with busReply := windowLoad s off n } else .refused .hostBusError
  | .memWrite addr bytes =>
    if addr.toNat + bytes.length ≤ 2 ^ 64 then .next (s.store addr.toNat bytes) else .fault .noSuchAddress
  | .memRead addr n =>
    if addr.toNat + n ≤ 2 ^ 64 then .next { s with busReply := memRead s.mem addr.toNat n } else .fault .noSuchAddress
  | .reset => .next s.afterReset

end Sys2Proof.Machine
end

