-- ==== Sys2Proof/Machine/Step.lean ====
section
/-! DEFINITION. One step of the machine (00_scope.md R12): the engine executes the command in the register file when a CMD
write has been accepted; otherwise the host makes its next access; with none to make the engine holds its state
(60_exceptions.md R233). Log entry 6. -/

namespace Sys2Proof.Machine

/-- The engine's step: decode the CMD word and execute the command; a word that is no command is `IllegalCommand`
(R87, R88, R92). -/
def runCommand (s : State) : Host.Outcome State Fault Refusal :=
  match decode s.cmd with
  | .ok i => exec i s
  | .error _ => .next (s.raise .illegalCommand)

/-- One step (R12). A command that has been started runs before the host's next access is accepted. -/
def step (s : State) : Host.Outcome State Fault Refusal :=
  if s.cmdStarted then runCommand { s with cmdStarted := false }
  else
    match s.host with
    | [] => .next s
    | a :: rest => hostAccess a { s with host := rest }

/-- `s` with the host's write of the CMD word `w` accepted, so that the next step executes it (R22). The operands are the
argument registers, which stay (R80; log entry 6). -/
def State.withFetchWord (s : State) (nbits w : Nat) : State :=
  { s with cmd := BitVec.ofNat 32 (w % 2 ^ nbits), cmdStarted := true }

end Sys2Proof.Machine
end

