-- ==== Sys2Proof/Safety.lean ====
section
/-! DEFINITION. The terms of the claims about the engine: what a command leaves unchanged, the checks of a command in their order,
the state machines of the sessions, the invariants, and the one-shot forms of the two modes. -/

namespace Sys2Proof.Machine

/-! What a command leaves as it was. -/

/-- The registers no command writes: `CMD`, `ARG0..ARG6`, `CAPS` (R220, R21, R100), and the model's own fields. -/
def RegistersKept (s t : State) : Prop :=
  t.cmd = s.cmd ∧ t.args = s.args ∧ t.caps = s.caps ∧ t.cfg = s.cfg ∧ t.cmdStarted = s.cmdStarted ∧ t.host = s.host ∧
    t.busReply = s.busReply

/-- Every slot of the table is as before. -/
def SlotsKept (s t : State) : Prop := ∀ j, t.slot j = s.slot j

/-- Every slot but `h` is as before (R39). -/
def OtherSlotsKept (h : Nat) (s t : State) : Prop := ∀ j, j ≠ h → t.slot j = s.slot j

/-- Every byte of buffer memory reads as before. -/
def MemoryKept (s t : State) : Prop := ∀ b, memByte t.mem b = memByte s.mem b

/-- Every byte outside `a .. a + n - 1` reads as before (R69). -/
def MemoryKeptOutside (a n : Nat) (s t : State) : Prop := ∀ b, b < a ∨ a + n ≤ b → memByte t.mem b = memByte s.mem b

/-- The command has ended in `finish(e, r)` (R220). -/
def Finished (e : ErrCode) (r : Nat) (t : State) : Prop := t.err = errByte e ∧ t.result.toNat = r

/-- A command that ends in OK (R221). -/
def RunsOk (i : Instr) (s t : State) : Prop := exec i s = .next t ∧ t.err = errByte .ok

/-- The handle names an allocated session `x` of mode `m` (R28, R92). -/
def Names (s : State) (h : Handle) (m : Mode) (x : Slot) : Prop :=
  0 < h.toNat ∧ h.toNat ≤ numSessions s.cfg ∧ s.slot h.toNat = x ∧ x.alloc = true ∧ x.mode = m

/-! The commands as the tables of the spec sort them. -/

/-- HANDLE of a session command (R83). -/
def handleOf (i : Instr) : Option Handle :=
  match i with
  | .caps => none
  | .create _ _ => none
  | .dispose h => some h
  | .blksz => none
  | .cbcInit h => some h
  | .cbcProcess h => some h
  | .cbcReset h => some h
  | .gcmInit h _ => some h
  | .gcmAadByte h => some h
  | .gcmAadBytes h => some h
  | .gcmByte h => some h
  | .gcmBytes h => some h
  | .gcmFinal h => some h
  | .gcmUosize h => some h
  | .gcmOsize h => some h
  | .gcmMac h => some h
  | .gcmReset h _ => some h

/-- The mode a session command needs; `none` is ANY (R92). -/
def modeOf (i : Instr) : Option Mode :=
  match i with
  | .caps | .create _ _ | .blksz | .dispose _ => none
  | .cbcInit _ | .cbcProcess _ | .cbcReset _ => some .cbc
  | .gcmInit _ _ | .gcmAadByte _ | .gcmAadBytes _ | .gcmByte _ | .gcmBytes _ | .gcmFinal _ | .gcmUosize _ | .gcmOsize _
  | .gcmMac _ | .gcmReset _ _ => some .aead

/-- The commands with an output range, which starts at `x[ARG3]` (R84). -/
def writesOutput (i : Instr) : Bool :=
  match i with
  | .cbcProcess _ | .gcmByte _ | .gcmBytes _ | .gcmFinal _ | .gcmMac _ => true
  | .caps | .create _ _ | .blksz | .dispose _ | .cbcInit _ | .cbcReset _ | .gcmInit _ _ | .gcmAadByte _ | .gcmAadBytes _
  | .gcmUosize _ | .gcmOsize _ | .gcmReset _ _ => false

/-- The opcodes that may end in each outcome, the last column of R221. -/
def raisedBy (e : ErrCode) (op : Op) : Bool :=
  match e with
  | .ok => true
  | .invalidKeySize => op == .cbcInit || op == .gcmInit
  | .invalidIVLength => op == .cbcInit || op == .gcmInit
  | .invalidTagLength => op == .gcmInit
  | .invalidStateTransition =>
    op == .cbcProcess || op == .cbcReset || op == .gcmAadByte || op == .gcmAadBytes || op == .gcmByte || op == .gcmBytes ||
      op == .gcmFinal || op == .gcmUosize || op == .gcmOsize || op == .gcmMac || op == .gcmReset
  | .outputLengthException => op == .gcmByte || op == .gcmBytes || op == .gcmFinal || op == .gcmMac
  | .authenticationFailure => op == .gcmFinal
  | .unsupportedKeySize => op == .create
  | .outputBufferTooShort => op == .cbcProcess
  | .invalidHandle => op.usesHandle
  | .noFreeSession => op == .create
  | .illegalCommand => true
  | .dataLimitExceeded => op == .gcmAadByte || op == .gcmAadBytes || op == .gcmByte || op == .gcmBytes
  | .busError =>
    op == .cbcInit || op == .cbcProcess || op == .gcmInit || op == .gcmAadBytes || op == .gcmByte || op == .gcmBytes ||
      op == .gcmFinal || op == .gcmMac

/-! The rows of opcode_table.json. -/

/-- "mask" of an opcode's row. -/
def rowMask (op : Op) : Word32 :=
  match op with
  | .caps | .blksz => 0xFFFFFFFF
  | .create => 0xFFFFFAFF
  | .gcmInit => 0x0000FEFF
  | .gcmReset => 0x0000FDFF
  | .dispose | .cbcInit | .cbcProcess | .cbcReset | .gcmAadByte | .gcmAadBytes | .gcmByte | .gcmBytes | .gcmFinal
  | .gcmUosize | .gcmOsize | .gcmMac => 0x0000FFFF

/-- "match" of an opcode's row. -/
def rowMatch (op : Op) : Word32 :=
  match op with
  | .caps => 0x00000001
  | .create => 0x00000002
  | .dispose => 0x00000003
  | .blksz => 0x00000004
  | .cbcInit => 0x00000010
  | .cbcProcess => 0x00000011
  | .cbcReset => 0x00000012
  | .gcmInit => 0x00000020
  | .gcmAadByte => 0x00000021
  | .gcmAadBytes => 0x00000022
  | .gcmByte => 0x00000023
  | .gcmBytes => 0x00000024
  | .gcmFinal => 0x00000025
  | .gcmUosize => 0x00000026
  | .gcmOsize => 0x00000027
  | .gcmMac => 0x00000028
  | .gcmReset => 0x00000029

/-! The register window. -/

/-- The offset of an argument register in the window (R62). -/
def argOffset (r : ArgReg) : Nat :=
  match r with
  | .arg0 => 0x10
  | .arg1 => 0x18
  | .arg2 => 0x20
  | .arg3 => 0x28
  | .arg4 => 0x30
  | .arg5 => 0x38
  | .arg6 => 0x40

/-- The engine is between commands, and `a` is the host's next access (R12). -/
def HostNext (s : State) (a : HostAccess) (rest : List HostAccess) : Prop := s.cmdStarted = false ∧ s.host = a :: rest

/-- A host address is at an offset of the window (R62). -/
def AtOffset (s : State) (addr : Word64) (off : Nat) : Prop := addr.toNat = s.cfg.mmioBase.toNat + off ∧ off < 256

/-! The checks of a command, in the order of R224. -/

/-- The place of an error in the order of R224. -/
def precedence (e : ErrCode) : Nat :=
  match e with
  | .ok => 0
  | .illegalCommand => 1
  | .invalidHandle => 2
  | .invalidStateTransition => 3
  | .invalidKeySize => 4
  | .unsupportedKeySize => 4
  | .invalidIVLength => 5
  | .noFreeSession => 5
  | .invalidTagLength => 6
  | .outputBufferTooShort => 7
  | .outputLengthException => 7
  | .dataLimitExceeded => 8
  | .busError => 9
  | .authenticationFailure => 10

/-- The handle names no session the command may run on (R92). -/
def badHandle (s : State) (i : Instr) : Bool :=
  match handleOf i with
  | none => false
  | some h =>
    h.toNat == 0 || decide (numSessions s.cfg < h.toNat) || !(s.slot h.toNat).alloc ||
      (modeOf i != none && modeOf i != some (s.slot h.toNat).mode)

/-- The key length of an INIT command is wrong (R111, R149). -/
def badKeyLen (s : State) (x : Slot) : Bool :=
  let n := len32 s.args .arg1
  (n != 16 && n != 24 && n != 32) || n != keyBytes x.keySize

/-- The checks of a command that are its own rule's, each with the error it raises and whether it fails. -/
def ownChecks (i : Instr) (s : State) : List (ErrCode × Bool) :=
  let a := s.args
  let inaccessible := fun r n => !accessible s.cfg (addrOf a r) n
  match i with
  | .caps | .blksz | .dispose _ => []
  | .create _ _ =>
    [(.unsupportedKeySize, a.arg0 != 16 && a.arg0 != 24 && a.arg0 != 32),
      (.noFreeSession, (List.range (numSessions s.cfg)).all fun j => (s.slot (j + 1)).alloc)]
  | .cbcInit h =>
    [(.invalidKeySize, badKeyLen s (s.slot h.toNat)), (.invalidIVLength, len32 a .arg3 != 16),
      (.busError, inaccessible .arg0 (len32 a .arg1) || inaccessible .arg2 16)]
  | .cbcProcess h =>
    let n := 16 * len32 a .arg2
    [(.invalidStateTransition, (s.slot h.toNat).phase != .ready),
      (.outputBufferTooShort, decide (len32 a .arg1 < n) || decide (len32 a .arg4 < n)),
      (.busError, inaccessible .arg0 n || inaccessible .arg3 n)]
  | .cbcReset h => [(.invalidStateTransition, (s.slot h.toNat).phase != .ready)]
  | .gcmInit h _ =>
    let tagBits := len32 a .arg6
    [(.invalidKeySize, badKeyLen s (s.slot h.toNat)), (.invalidIVLength, len32 a .arg3 == 0),
      (.invalidTagLength, tagBits % 8 != 0 || decide (tagBits < 32) || decide (128 < tagBits)),
      (.busError,
        inaccessible .arg0 (len32 a .arg1) || inaccessible .arg2 (len32 a .arg3) || inaccessible .arg4 (len32 a .arg5))]
  | .gcmAadByte h =>
    let x := s.slot h.toNat
    [(.invalidStateTransition, x.phase != .aad), (.dataLimitExceeded, decide (aadMax < x.aadCount.toNat + 1))]
  | .gcmAadBytes h =>
    let x := s.slot h.toNat
    let n := len32 a .arg1
    [(.invalidStateTransition, x.phase != .aad), (.dataLimitExceeded, decide (aadMax < x.aadCount.toNat + n)),
      (.busError, inaccessible .arg0 n)]
  | .gcmByte h =>
    let x := s.slot h.toNat
    [(.invalidStateTransition, x.phase != .aad && x.phase != .data),
      (.outputLengthException, decide (len32 a .arg4 < uoSize x 1)),
      (.dataLimitExceeded, decide (dataMax < x.dataCount.toNat + pending x 1)),
      (.busError, inaccessible .arg3 (uoSize x 1))]
  | .gcmBytes h =>
    let x := s.slot h.toNat
    let n := len32 a .arg1
    [(.invalidStateTransition, x.phase != .aad && x.phase != .data),
      (.outputLengthException, n != 0 && decide (len32 a .arg4 < uoSize x n)),
      (.dataLimitExceeded, n != 0 && decide (dataMax < x.dataCount.toNat + pending x n)),
      (.busError, n != 0 && (inaccessible .arg0 n || inaccessible .arg3 (uoSize x n)))]
  | .gcmFinal h =>
    let x := s.slot h.toNat
    let short := x.dir == .decrypt && decide (x.dataBuf.length < x.tagLen.toNat)
    let nOut := oSize x 0
    [(.invalidStateTransition, x.phase != .aad && x.phase != .data),
      (.outputLengthException, !short && decide (len32 a .arg4 < nOut)), (.busError, !short && inaccessible .arg3 nOut)]
  | .gcmUosize h => [(.invalidStateTransition, (s.slot h.toNat).phase == .uninit)]
  | .gcmOsize h => [(.invalidStateTransition, (s.slot h.toNat).phase == .uninit)]
  | .gcmMac h =>
    let x := s.slot h.toNat
    [(.invalidStateTransition, x.phase != .final || x.dir != .encrypt || !x.tagValid),
      (.outputLengthException, decide (len32 a .arg4 < x.tagLen.toNat)), (.busError, inaccessible .arg3 x.tagLen.toNat)]
  | .gcmReset h keep => [(.invalidStateTransition, keep && (s.slot h.toNat).phase == .uninit)]

/-- Every check of a command (R224): the operand half of `Decode`, `Resolve`, its own. -/
def checks (i : Instr) (s : State) : List (ErrCode × Bool) :=
  (.illegalCommand, !operandsLegal (opOf i) s.args) :: (.invalidHandle, badHandle s i) :: ownChecks i s

/-- The error of the first check that fails (R224). -/
def firstError (l : List (ErrCode × Bool)) : Option ErrCode := (l.find? fun c => c.2).map fun c => c.1

/-! The state machines of the sessions. -/

/-- The phase a command leaves its session in, `none` where the phase does not admit it: the tables of R110 and R140. `n` is the
length operand of GCM.BYTES. -/
def phaseAfter (i : Instr) (n : Nat) (x : Slot) : Option Phase :=
  match i with
  | .caps | .create _ _ | .blksz => some x.phase
  | .dispose _ => some .uninit
  | .cbcInit _ => some .ready
  | .cbcProcess _ | .cbcReset _ => if x.phase = .ready then some .ready else none
  | .gcmInit _ _ => some .aad
  | .gcmAadByte _ | .gcmAadBytes _ => if x.phase = .aad then some .aad else none
  | .gcmByte _ => if x.phase = .aad ∨ x.phase = .data then some .data else none
  | .gcmBytes _ => if x.phase = .aad ∨ x.phase = .data then some (if n = 0 then x.phase else .data) else none
  | .gcmFinal _ => if x.phase = .aad ∨ x.phase = .data then some .final else none
  | .gcmUosize _ | .gcmOsize _ => if x.phase = .uninit then none else some x.phase
  | .gcmMac _ => if x.phase = .final ∧ x.dir = .encrypt then some .final else none
  | .gcmReset _ keep => if keep then if x.phase = .uninit then none else some .aad else some .uninit

/-! Invariants. -/

/-- The invariants (a) to (h) of R34 of an AEAD slot. -/
structure AeadInv (x : Slot) : Prop where
  aadBuf_short : x.aadBuf.length ≤ 15
  aadBuf_phase : 0 < x.aadBuf.length → x.phase = .aad
  dataBuf_phase : 0 < x.dataBuf.length → x.phase = .data
  dataBuf_short : x.dataBuf.length ≤ (match x.dir with | .encrypt => 15 | .decrypt => 15 + x.tagLen.toNat)
  dataCount_blocks : x.phase = .aad ∨ x.phase = .data → x.dataCount.toNat % 16 = 0
  aadCount_max : x.aadCount.toNat ≤ aadMax
  dataCount_max : x.dataCount.toNat + pending x 0 ≤ dataMax
  tagValid_phase : x.tagValid = true → x.phase = .final
  ctr_position : x.phase = .aad ∨ x.phase = .data → x.ctr = inc32Iter (1 + x.dataCount.toNat / 16) x.j0

/-- What else the model's AEAD slots keep, so that R34 is inductive and R31, R32, R164 hold: no CBC phase; the tag length 4 to 16
from the first INIT on; the checkpoint in its bounds; a finished encrypt message has its tag. -/
structure AeadAux (x : Slot) : Prop where
  phase : x.phase ≠ .ready
  tagLen_range : x.phase ≠ .uninit → 4 ≤ x.tagLen.toNat ∧ x.tagLen.toNat ≤ 16
  ckAadBuf_short : x.ckAadBuf.length ≤ 15
  ckAadCount_max : x.ckAadCount.toNat ≤ aadMax
  final_tag : x.phase = .final → x.dir = .encrypt → x.tagValid = true

/-- The invariants of an allocated slot (R29, R30, R34). -/
def SlotInv (x : Slot) : Prop :=
  x.alloc = true →
    x.keySize ≠ .none ∧ (x.mode = .cbc → x.phase = .uninit ∨ x.phase = .ready) ∧
      (x.mode = .aead → AeadInv x ∧ AeadAux x)

/-- Every slot keeps its invariants. -/
def SlotsInv (s : State) : Prop := ∀ h, SlotInv (s.slot h)

/-- The stores have their canonical forms, and the session table lists allocated slots of the table only. -/
def StoresInv (s : State) : Prop :=
  MemoryWf s.mem ∧ SparseWf Slot.free s.sess ∧ ∀ e ∈ s.sess, 0 < e.1 ∧ e.1 ≤ numSessions s.cfg ∧ e.2.alloc = true

/-! Sessions over several commands. -/

/-- What may happen between two commands on session `h`: host accesses, and commands on other sessions. Nothing is asked of the
state but that the slot and the platform are the same. -/
def Between (h : Handle) (s t : State) : Prop := t.slot h.toNat = s.slot h.toNat ∧ t.cfg = s.cfg

/-- The output bytes of a command that ran from `s` to `t` (R84, R220). -/
def outputOf (s t : State) : List Byte := memRead t.mem (addrOf s.args .arg3) t.result.toNat

/-- Successful CBC.PROCESS commands on session `h` from `s`: their input bytes, their output bytes, the state after them. -/
inductive CbcFeed (h : Handle) (s : State) : List Byte → List Byte → State → Prop
  | start : CbcFeed h s [] [] s
  | between {inp out : List Byte} {t u : State} : CbcFeed h s inp out t → Between h t u → CbcFeed h s inp out u
  | process {inp out : List Byte} {t u : State} : CbcFeed h s inp out t → RunsOk (.cbcProcess h) t u →
      CbcFeed h s (inp ++ memRead t.mem (addrOf t.args .arg0) (16 * len32 t.args .arg2)) (out ++ outputOf t u) u

/-- Successful AAD and data commands on session `h` from `s`: their AAD bytes, data bytes, output bytes, the state after
them. -/
inductive GcmFeed (h : Handle) (s : State) : List Byte → List Byte → List Byte → State → Prop
  | start : GcmFeed h s [] [] [] s
  | between {aad data out : List Byte} {t u : State} : GcmFeed h s aad data out t → Between h t u →
      GcmFeed h s aad data out u
  | aadByte {aad data out : List Byte} {t u : State} : GcmFeed h s aad data out t → RunsOk (.gcmAadByte h) t u →
      GcmFeed h s (aad ++ [byte8 t.args]) data out u
  | aadBytes {aad data out : List Byte} {t u : State} : GcmFeed h s aad data out t → RunsOk (.gcmAadBytes h) t u →
      GcmFeed h s (aad ++ memRead t.mem (addrOf t.args .arg0) (len32 t.args .arg1)) data out u
  | byte {aad data out : List Byte} {t u : State} : GcmFeed h s aad data out t → RunsOk (.gcmByte h) t u →
      GcmFeed h s aad (data ++ [byte8 t.args]) (out ++ outputOf t u) u
  | bytes {aad data out : List Byte} {t u : State} : GcmFeed h s aad data out t → RunsOk (.gcmBytes h) t u →
      GcmFeed h s aad (data ++ memRead t.mem (addrOf t.args .arg0) (len32 t.args .arg1)) (out ++ outputOf t u) u

/-- A successful CBC.INIT with this key and IV (R111). -/
def CbcStarts (h : Handle) (key iv : List Byte) (t : State) : Prop :=
  ∃ s, RunsOk (.cbcInit h) s t ∧ key = memRead s.mem (addrOf s.args .arg0) (len32 s.args .arg1) ∧
    iv = memRead s.mem (addrOf s.args .arg2) (len32 s.args .arg3)

/-- A successful GCM.INIT with this direction, key, nonce, AAD and tag length in bytes (R149). -/
def GcmStarts (h : Handle) (d : Dir) (key nonce aad : List Byte) (tagLen : Nat) (t : State) : Prop :=
  ∃ s, RunsOk (.gcmInit h d) s t ∧ key = memRead s.mem (addrOf s.args .arg0) (len32 s.args .arg1) ∧
    nonce = memRead s.mem (addrOf s.args .arg2) (len32 s.args .arg3) ∧
    aad = memRead s.mem (addrOf s.args .arg4) (len32 s.args .arg5) ∧ len32 s.args .arg6 = 8 * tagLen

/-- A whole message: GCM.INIT, AAD and data commands. `aad` is the AAD of all of them, `t` the state before GCM.FINAL. -/
def GcmMessage (h : Handle) (d : Dir) (key nonce aad : List Byte) (tagLen : Nat) (data out : List Byte) (t : State) : Prop :=
  ∃ s aad0 aad1, GcmStarts h d key nonce aad0 tagLen s ∧ GcmFeed h s aad1 data out t ∧ aad = aad0 ++ aad1

/-! The modes in one shot. -/

/-- A key from its raw bytes (R9). -/
def rawKey (key : List Byte) : Option AesKey :=
  match key.length with
  | 16 => some (.k128 (BitVec.ofNat 128 (intBe key)))
  | 24 => some (.k192 (BitVec.ofNat 192 (intBe key)))
  | 32 => some (.k256 (BitVec.ofNat 256 (intBe key)))
  | _ => none

/-- `n` blocks of keystream from the counter block `ctr` (R152). -/
def keystream (p : Platform) (k : AesKey) (ctr : Block) (n : Nat) : List Byte :=
  bytesOfBlocks ((List.range n).map fun j => aesEnc p k (inc32Iter j ctr))

/-- Counter mode over a whole string from the counter block `ctr` (R152, R160). -/
def gctr (p : Platform) (k : AesKey) (ctr : Block) (d : List Byte) : List Byte :=
  xorBytes d (keystream p k ctr ((d.length + 15) / 16))

/-- The base counter block of a key and a nonce (R149). -/
def baseCounter (p : Platform) (k : AesKey) (nonce : List Byte) : Block := deriveJ0 (aesEnc p k 0) nonce

/-- Counter-mode encryption, which is its own inverse, under a key and a nonce (R149, R152). -/
def gcmCrypt (p : Platform) (k : AesKey) (nonce d : List Byte) : List Byte := gctr p k (inc32 (baseCounter p k nonce)) d

/-- The tag of a whole message, from its AAD and ciphertext (R143 to R147). -/
def gcmTag (p : Platform) (k : AesKey) (nonce aad ciphertext : List Byte) (tagLen : Nat) : List Byte :=
  (bytesOfBlock
    (aesEnc p k (baseCounter p k nonce) ^^^
      ghash (aesEnc p k 0)
        (pad16 aad ++ pad16 ciphertext ++ beBytes 8 (8 * aad.length) ++ beBytes 8 (8 * ciphertext.length)))).take tagLen

/-- CBC over a whole string (R112): the output bytes. -/
def cbcBytes (p : Platform) (d : Dir) (k : AesKey) (iv inp : List Byte) : List Byte :=
  let xs := blocksOf (inp.length / 16) inp
  match d with
  | .encrypt => bytesOfBlocks (cbcEncrypt p k (blockOfBytes iv) xs).1
  | .decrypt => bytesOfBlocks (cbcDecrypt p k (blockOfBytes iv) xs).1

end Sys2Proof.Machine
end

