-- ==== Sys2Proof/WellFormed.lean ====
section
/-! DEFINITION. Which commands are well formed. `Instr` can hold no ill-formed CMD word: reserved opcodes, RSV, unused
fields and reserved modes (R83, R87) are rejected by name by `decode`. What is left to check is the operands: a
command is its CMD word together with the argument registers (R80), and a `len32` or `byte8` operand may be out of
range (R85, R86). -/

namespace Sys2Proof

/-- A command and the argument registers it is issued with have operands in range (R85, R86). -/
def WellFormed (i : Instr) (a : Args) : Bool := operandsLegal (opOf i) a

end Sys2Proof
end

