-- ==== Sys2Proof/Certificates/Slice0/Obligations.lean ====
section
/-! DEFINITION. The statements for the provers. Each docstring says which rule of the spec it formalises. -/

open Sys2Proof Sys2Proof.Machine

/-! Decoding. -/

/-- Decode and encode agree (R81 to R83): the CMD word of every command, with every field at every value, decodes to that
command. -/
def Obligations.DecodeEncodeAgree : Prop := ∀ i : Instr, decode (encode i) = .ok i

/-- R88, R83: a CMD word that decodes is the encoding of what it decodes to, so each command has one CMD word and no bit of a
word is ignored. -/
def Obligations.DecodeOnlyEncodings : Prop := ∀ (w : Word32) (i : Instr), decode w = .ok i → encode i = w

/-- R88 with the rows of opcode_table.json: a CMD word decodes to a command of the row it matches, and to no command where it
matches no row. So it matches one row at most. -/
def Obligations.TableRowsDecideDecoding : Prop :=
  ∀ (w : Word32) (op : Op), w &&& rowMask op = rowMatch op ↔ ∃ i, decode w = .ok i ∧ opOf i = op

/-- R81, R82: words written out from the pattern `HHHHHHHHHHHHHHHH 0000 MM K D OOOOOOOO`. -/
def Obligations.WrittenWordsDecode : Prop :=
  decode 0b00000000000000000000000000000001 = .ok .caps ∧
    decode 0b00000000000000000000010100000010 = .ok (.create .decrypt .aead) ∧
    decode 0b00000000000000110000000000010001 = .ok (.cbcProcess 3) ∧
    decode 0b00000000000000010000000100100000 = .ok (.gcmInit 1 .decrypt) ∧
    decode 0b10000000000000010000001000101001 = .ok (.gcmReset 0x8001 true)

/-- R12, R22: when the host's CMD write has been accepted, the next step is the command the CMD word decodes to, run on the state
as it stands (the model's own mark that a command is due is cleared: log entry 6). -/
def Obligations.StepRunsDecodedCommand : Prop :=
  ∀ (s : State) (i : Instr), s.cmdStarted = true → decode s.cmd = .ok i → step s = exec i { s with cmdStarted := false }

/-- R87: every reserved encoding raises IllegalCommand and changes nothing but STATUS and RESULT: first the CMD word's, then the
operands'. -/
def Obligations.IllegalEncodingsChangeNothing : Prop :=
  (∀ s : State, s.cmdStarted = true →
    ((∀ op : Op, s.cmd.extractLsb' 0 8 ≠ op.code) ∨ s.cmd.extractLsb' 12 4 ≠ 0 ∨
      (∃ op : Op, s.cmd.extractLsb' 0 8 = op.code ∧
        ((s.cmd.getLsbD 8 = true ∧ op.usesDir = false) ∨ (s.cmd.getLsbD 9 = true ∧ op.usesKeep = false) ∨
          (s.cmd.extractLsb' 10 2 ≠ 0 ∧ op.usesMode = false) ∨ (s.cmd.extractLsb' 16 16 ≠ 0 ∧ op.usesHandle = false))) ∨
      (s.cmd.extractLsb' 0 8 = Op.create.code ∧ 1 < (s.cmd.extractLsb' 10 2).toNat)) →
    step s = .next { s with cmdStarted := false, err := 11, result := 0 }) ∧
  (∀ (i : Instr) (s : State),
    (∃ x ∈ operandsOf (opOf i), (x.2 = .len32 ∧ (getArg s.args x.1).extractLsb' 32 32 ≠ 0) ∨
      (x.2 = .byte8 ∧ (getArg s.args x.1).extractLsb' 8 56 ≠ 0)) →
    exec i s = .next { s with err := 11, result := 0 })

/-- R92: a session command whose handle is 0, out of range, free, or of another mode than the command's raises InvalidHandle, and
changes nothing else. -/
def Obligations.BadHandlesAreRefused : Prop :=
  ∀ (i : Instr) (h : Handle) (s : State), handleOf i = some h → WellFormed i s.args = true →
    (h = 0 ∨ numSessions s.cfg < h.toNat ∨ (s.slot h.toNat).alloc = false ∨
      ∃ m, modeOf i = some m ∧ (s.slot h.toNat).mode ≠ m) →
    exec i s = .next { s with err := 9, result := 0 }

/-! Every command. -/

/-- R220, R259: every command, in every state, completes. -/
def Obligations.EveryCommandCompletes : Prop := ∀ (i : Instr) (s : State), ∃ t, exec i s = .next t

/-- R222: a command that ends in any code other than 0 and 6 changes no state except STATUS and RESULT, and sets RESULT
to 0. -/
def Obligations.ErrorsChangeNothing : Prop :=
  ∀ (i : Instr) (s t : State), exec i s = .next t → t.err ≠ 0 → t.err ≠ 6 → t = { s with err := t.err, result := 0 }

/-- R220, R221: nothing in the register file but STATUS and RESULT changes, and STATUS.ERR takes a code of the table of R221
that its last column gives the command. -/
def Obligations.CommandsReportInStatus : Prop :=
  ∀ (i : Instr) (s t : State), exec i s = .next t →
    RegistersKept s t ∧ ∃ e, raisedBy e (opOf i) = true ∧ t.err = errByte e

/-- R224: the error reported is that of the first check that fails, the checks standing in the rule's order; where none fails the
command ends in OK, or, for GCM.FINAL alone, in AuthenticationFailure. -/
def Obligations.FirstFailingCheckIsReported : Prop :=
  ∀ (i : Instr) (s : State),
    (checks i s).Pairwise (fun c d => precedence c.1 < precedence d.1) ∧
      (∀ e, firstError (checks i s) = some e → exec i s = .next { s with err := errByte e, result := 0 }) ∧
      (firstError (checks i s) = none →
        ∃ t, exec i s = .next t ∧ (t.err = errByte .ok ∨ (opOf i = .gcmFinal ∧ t.err = errByte .authenticationFailure)))

/-- R223: AuthenticationFailure is raised only by a decrypt GCM.FINAL; the session is then in phase FINAL, RESULT holds the number
of bytes written, and no byte beyond those is changed. -/
def Obligations.AuthenticationFailureOnlyAtFinal : Prop :=
  ∀ (i : Instr) (s t : State), exec i s = .next t → t.err = errByte .authenticationFailure →
    ∃ h, i = .gcmFinal h ∧ (s.slot h.toNat).dir = .decrypt ∧ (t.slot h.toNat).phase = .final ∧
      t.result.toNat = (s.slot h.toNat).dataBuf.length - (s.slot h.toNat).tagLen.toNat ∧ OtherSlotsKept h.toNat s t ∧
      MemoryKeptOutside (addrOf s.args .arg3) t.result.toNat s t

/-- R39: a command that names handle `h` reads and writes only `SESS[h]` of the session table. Two machines with the same
operands, memory and platform, whose tables agree on `h` and perhaps nowhere else, get the same outcome, and neither
changes another slot. -/
def Obligations.SessionsAreIsolated : Prop :=
  ∀ (i : Instr) (h : Handle) (s s' t : State), handleOf i = some h → s'.args = s.args → s'.mem = s.mem → s'.cfg = s.cfg →
    s'.slot h.toNat = s.slot h.toNat → exec i s = .next t →
    OtherSlotsKept h.toNat s t ∧
      ∃ t', exec i s' = .next t' ∧ t'.err = t.err ∧ t'.result = t.result ∧ t'.mem = t.mem ∧
        t'.slot h.toNat = t.slot h.toNat ∧ OtherSlotsKept h.toNat s' t'

/-- R69, R61: a command writes only inside its output range, the RESULT bytes from `x[ARG3]` on, and only where the platform
admits it; a command with no output range writes no byte. -/
def Obligations.OnlyOutputBytesChange : Prop :=
  ∀ (i : Instr) (s t : State), exec i s = .next t →
    if writesOutput i then
      MemoryKeptOutside (addrOf s.args .arg3) t.result.toNat s t ∧
        accessible s.cfg (addrOf s.args .arg3) t.result.toNat = true
    else MemoryKept s t

/-- R28: only CREATE allocates a slot, and only DISPOSE, of its own handle, frees one. -/
def Obligations.OnlyCreateAndDisposeAllocate : Prop :=
  ∀ (i : Instr) (s t : State) (j : Nat), exec i s = .next t →
    ((s.slot j).alloc = false → (t.slot j).alloc = true → ∃ d m, i = .create d m) ∧
      ((s.slot j).alloc = true → (t.slot j).alloc = false → ∃ h, i = .dispose h ∧ h.toNat = j)

/-- R103: the bytes a command writes and the values it returns, other than CREATE's path and CAPS itself, do not depend on CAPS, on
WIDE_OK or on any session's path. -/
def Obligations.ResultsDoNotDependOnPath : Prop :=
  ∀ (i : Instr) (s s' t : State), i ≠ .caps → s'.args = s.args → s'.mem = s.mem →
    s'.cfg = { s.cfg with caps := s'.cfg.caps, wideOk := s'.cfg.wideOk } →
    (∀ h, s'.slot h = { s.slot h with path := (s'.slot h).path }) → exec i s = .next t →
    ∃ t', exec i s' = .next t' ∧ t'.err = t.err ∧ t'.mem = t.mem ∧
      (if opOf i = .create then t'.result.extractLsb' 0 16 = t.result.extractLsb' 0 16 else t'.result = t.result) ∧
      ∀ h, t'.slot h = { t.slot h with path := (t'.slot h).path }

/-- R100: no command and no host access but a reset changes CAPS; a reset gives it CAPS_VALUE. -/
def Obligations.CapsChangesOnlyAtReset : Prop :=
  ∀ s t : State, step s = .next t →
    if s.cmdStarted = false ∧ s.host.head? = some .reset then t.caps = capsWord s.cfg.caps else t.caps = s.caps

/-- R71 (c): STATUS and RESULT hold a command's outcome until the next command: no host access but a reset changes them. -/
def Obligations.OutcomeStaysUntilNextCommand : Prop :=
  ∀ s t : State, step s = .next t → s.cmdStarted = false → s.host.head? ≠ some .reset →
    t.status = s.status ∧ t.result = s.result ∧ t.sess = s.sess

/-! Reset. -/

/-- R250: what a reset leaves, in any state in which it comes. -/
def Obligations.ResetGivesTheResetState : Prop :=
  ∀ (s : State) (rest : List HostAccess), HostNext s .reset rest →
    ∃ t, step s = .next t ∧ t.cmd = 0 ∧ t.cmdStarted = false ∧ t.args = ⟨0, 0, 0, 0, 0, 0, 0⟩ ∧ t.result = 0 ∧ t.status = 0 ∧
      t.caps = capsWord s.cfg.caps ∧
      (∀ h, t.slot h =
        ⟨false, .cbc, .encrypt, .none, .soft, .uninit, 0, 0, 0, 0, 0, 0, 0, 0, 0, [], [], 0, 0, false, 0, 0, []⟩) ∧
      MemoryKept s t ∧ t.cfg = s.cfg ∧ t.host = rest

/-! Invariants. -/

/-- Every step keeps the canonical forms of memory and of the session table, whose entries are allocated slots of the table. -/
def Obligations.StoresStayCanonical : Prop := ∀ s t : State, StoresInv s → step s = .next t → StoresInv t

/-- R34: every step keeps the invariants of the allocated slots, (a) to (h) of R34 among them. -/
def Obligations.SlotInvariantsAreKept : Prop := ∀ s t : State, SlotsInv s → step s = .next t → SlotsInv t

/-- The state after reset has both invariants. -/
def Obligations.ResetMeetsTheInvariants : Prop := StoresInv State.reset ∧ SlotsInv State.reset

/-- R29, R30, R33, R113, R165: what belongs to a session while it stays allocated. Mode, key size and path are CREATE's for good;
the direction changes at GCM.INIT only; the key at an INIT or GCM.RESET with KEEP = 0; the IV at CBC.INIT; the chaining value
at a CBC command; the hash subkey, base counter, tag length and checkpoint at GCM.INIT or GCM.RESET with KEEP = 0. -/
def Obligations.KeysChangeOnlyAtInit : Prop :=
  ∀ (i : Instr) (s t : State) (j : Nat) (x y : Slot), exec i s = .next t → s.slot j = x → t.slot j = y → x.alloc = true →
    y.alloc = true →
    y.mode = x.mode ∧ y.keySize = x.keySize ∧ y.path = x.path ∧
      (y.dir ≠ x.dir → ∃ h d, i = .gcmInit h d ∧ h.toNat = j) ∧
      (y.key ≠ x.key → ∃ h, h.toNat = j ∧ (i = .cbcInit h ∨ (∃ d, i = .gcmInit h d) ∨ i = .gcmReset h false)) ∧
      (y.iv ≠ x.iv → ∃ h, i = .cbcInit h ∧ h.toNat = j) ∧
      (y.chain ≠ x.chain → ∃ h, h.toNat = j ∧ (i = .cbcInit h ∨ i = .cbcProcess h ∨ i = .cbcReset h)) ∧
      ((y.hkey, y.j0, y.tagLen, y.ckAcc, y.ckAadCount, y.ckAadBuf) ≠
          (x.hkey, x.j0, x.tagLen, x.ckAcc, x.ckAadCount, x.ckAadBuf) →
        ∃ h, h.toNat = j ∧ ((∃ d, i = .gcmInit h d) ∨ i = .gcmReset h false))

/-! Queries, CREATE and DISPOSE. -/

/-- R102: CAPS returns the capability register and changes nothing else. -/
def Obligations.CapsReturnsTheRecord : Prop :=
  ∀ s : State, ∃ t, exec .caps s = .next t ∧ Finished .ok s.caps.toNat t ∧ RegistersKept s t ∧ SlotsKept s t ∧ MemoryKept s t

/-- R114: BLKSZ returns 16, whatever sessions there are, and changes nothing else. -/
def Obligations.BlkszReturnsSixteen : Prop :=
  ∀ s : State, ∃ t, exec .blksz s = .next t ∧ Finished .ok 16 t ∧ RegistersKept s t ∧ SlotsKept s t ∧ MemoryKept s t

/-- R201, R38: CREATE of a legal key size allocates the least free handle, puts its slot in the state after CREATE, and returns
the path and the handle. -/
def Obligations.CreateAllocatesTheLeastFreeHandle : Prop :=
  ∀ (d : Dir) (m : Mode) (s : State) (k : KeySize) (h : Nat), k ≠ .none → s.args.arg0.toNat = keyBytes k → 1 ≤ h →
    h ≤ numSessions s.cfg → (s.slot h).alloc = false → (∀ j, 1 ≤ j → j < h → (s.slot j).alloc = true) →
    ∃ t, exec (.create d m) s = .next t ∧ t.err = errByte .ok ∧ t.result.extractLsb' 0 16 = BitVec.ofNat 16 h ∧
      (t.result.extractLsb' 16 2).toNat = pathNumber (selectPath s.caps s.cfg.wideOk m k) ∧
      t.result.extractLsb' 18 46 = 0 ∧
      t.slot h =
        ⟨true, m, d, k, selectPath s.caps s.cfg.wideOk m k, .uninit, 0, 0, 0, 0, 0, 0, 0, 0, 0, [], [], 0, 0, false, 0, 0, []⟩ ∧
      OtherSlotsKept h s t ∧ RegistersKept s t ∧ MemoryKept s t

/-- R200, R101: the path of each mode and key size for each capability record, and SOFT for a failed probe. -/
def Obligations.PathFollowsTheCapabilities : Prop :=
  ∀ (c : CapsRecord) (w : WideTable) (m : Mode) (k : KeySize) (hostLe : Bool),
    selectPath (capsWord c) w m k =
        (match c.aes with
          | .absent => .soft
          | .narrow => .narrow
          | .wide256 => if wideOk w m k then .wide else .narrow
          | .wide512 => if wideOk w m k then .wide else .narrow) ∧
      capsAesHw (capsWord (failedProbe hostLe)) = false ∧ capsVaesWidth (capsWord (failedProbe hostLe)) = 0 ∧
      (capsWord (failedProbe hostLe)).getLsbD 3 = false ∧ (capsWord (failedProbe hostLe)).getLsbD 4 = hostLe ∧
      selectPath (capsWord (failedProbe hostLe)) w m k = .soft

/-- R203: CREATE's outcome is a function of CAPS, the WIDE_OK table, the `alloc` bits and the operands (on a table of one
size). -/
def Obligations.CreateIsDeterministic : Prop :=
  ∀ (d : Dir) (m : Mode) (s s' t : State), s'.caps = s.caps → s'.cfg.wideOk = s.cfg.wideOk →
    s'.cfg.lastSession = s.cfg.lastSession → s'.args.arg0 = s.args.arg0 → (∀ h, (s'.slot h).alloc = (s.slot h).alloc) →
    exec (.create d m) s = .next t →
    ∃ t', exec (.create d m) s' = .next t' ∧ t'.err = t.err ∧ t'.result = t.result ∧
      ∀ h, t.slot h = s.slot h ∧ t'.slot h = s'.slot h ∨ t'.slot h = t.slot h

/-- R202, R38: DISPOSE of an allocated session, of either mode and in any phase, leaves the free slot; a second DISPOSE of the
handle raises InvalidHandle. -/
def Obligations.DisposeFreesTheSlot : Prop :=
  ∀ (h : Handle) (s : State) (m : Mode) (x : Slot), Names s h m x →
    ∃ t, exec (.dispose h) s = .next t ∧ Finished .ok 0 t ∧ t.slot h.toNat = Slot.free ∧ OtherSlotsKept h.toNat s t ∧
      RegistersKept s t ∧ MemoryKept s t ∧ exec (.dispose h) t = .next { t with err := errByte .invalidHandle, result := 0 }

/-! The chained-block engine. -/

/-- R111: CBC.INIT of a key of the session's size and a 16-byte IV, from any phase. -/
def Obligations.CbcInitLoadsKeyAndIv : Prop :=
  ∀ (h : Handle) (s : State) (x : Slot), Names s h .cbc x → WellFormed (.cbcInit h) s.args = true → x.keySize ≠ .none →
    len32 s.args .arg1 = keyBytes x.keySize → len32 s.args .arg3 = 16 →
    accessible s.cfg (addrOf s.args .arg0) (len32 s.args .arg1) = true → accessible s.cfg (addrOf s.args .arg2) 16 = true →
    ∃ t, exec (.cbcInit h) s = .next t ∧ Finished .ok 0 t ∧
      t.slot h.toNat =
        { x with
          key := keyField (memRead s.mem (addrOf s.args .arg0) (len32 s.args .arg1)),
          iv := blockOfBytes (memRead s.mem (addrOf s.args .arg2) 16),
          chain := blockOfBytes (memRead s.mem (addrOf s.args .arg2) 16), phase := .ready } ∧
      OtherSlotsKept h.toNat s t ∧ RegistersKept s t ∧ MemoryKept s t

/-- R112, encrypt: each output block is the encryption of the input block XOR the output block before it (the chaining value for
the first), the last output block becomes the chaining value, and nothing past the output is written. -/
def Obligations.CbcProcessEncrypts : Prop :=
  ∀ (h : Handle) (s : State) (x : Slot), Names s h .cbc x → WellFormed (.cbcProcess h) s.args = true → x.phase = .ready →
    x.dir = .encrypt → 16 * len32 s.args .arg2 ≤ len32 s.args .arg1 → 16 * len32 s.args .arg2 ≤ len32 s.args .arg4 →
    accessible s.cfg (addrOf s.args .arg0) (16 * len32 s.args .arg2) = true →
    accessible s.cfg (addrOf s.args .arg3) (16 * len32 s.args .arg2) = true →
    ∃ (t : State) (c : Nat → Block), exec (.cbcProcess h) s = .next t ∧ Finished .ok (16 * len32 s.args .arg2) t ∧
      c 0 = x.chain ∧
      (∀ j, j < len32 s.args .arg2 →
        c (j + 1) = aesEnc s.cfg (slotKey x) (blockOfBytes (memRead s.mem (addrOf s.args .arg0 + 16 * j) 16) ^^^ c j) ∧
          memRead t.mem (addrOf s.args .arg3 + 16 * j) 16 = bytesOfBlock (c (j + 1))) ∧
      t.slot h.toNat = { x with chain := c (len32 s.args .arg2) } ∧ OtherSlotsKept h.toNat s t ∧ RegistersKept s t ∧
      MemoryKeptOutside (addrOf s.args .arg3) (16 * len32 s.args .arg2) s t

/-- R112, decrypt: each output block is the decryption of the input block XOR the input block before it (the chaining value for the
first), and the last input block, as it was before the command, becomes the chaining value. -/
def Obligations.CbcProcessDecrypts : Prop :=
  ∀ (h : Handle) (s : State) (x : Slot), Names s h .cbc x → WellFormed (.cbcProcess h) s.args = true → x.phase = .ready →
    x.dir = .decrypt → 16 * len32 s.args .arg2 ≤ len32 s.args .arg1 → 16 * len32 s.args .arg2 ≤ len32 s.args .arg4 →
    accessible s.cfg (addrOf s.args .arg0) (16 * len32 s.args .arg2) = true →
    accessible s.cfg (addrOf s.args .arg3) (16 * len32 s.args .arg2) = true →
    ∃ (t : State) (c : Nat → Block), exec (.cbcProcess h) s = .next t ∧ Finished .ok (16 * len32 s.args .arg2) t ∧
      c 0 = x.chain ∧
      (∀ j, j < len32 s.args .arg2 →
        c (j + 1) = blockOfBytes (memRead s.mem (addrOf s.args .arg0 + 16 * j) 16) ∧
          memRead t.mem (addrOf s.args .arg3 + 16 * j) 16 = bytesOfBlock (aesDec s.cfg (slotKey x) (c (j + 1)) ^^^ c j)) ∧
      t.slot h.toNat = { x with chain := c (len32 s.args .arg2) } ∧ OtherSlotsKept h.toNat s t ∧ RegistersKept s t ∧
      MemoryKeptOutside (addrOf s.args .arg3) (16 * len32 s.args .arg2) s t

/-- R113: CBC.RESET returns the chaining value to the IV and keeps the key; done again, it changes nothing more. -/
def Obligations.CbcResetRestoresTheChain : Prop :=
  ∀ (h : Handle) (s : State) (x : Slot), Names s h .cbc x → x.phase = .ready →
    ∃ t, exec (.cbcReset h) s = .next t ∧ Finished .ok 0 t ∧ t.slot h.toNat = { x with chain := x.iv } ∧
      OtherSlotsKept h.toNat s t ∧ RegistersKept s t ∧ MemoryKept s t ∧ exec (.cbcReset h) t = .next t

/-- R115: the output and the chaining value do not depend on how a string of blocks is cut into CBC.PROCESS commands, nor on what
happens between them. -/
def Obligations.CbcBatchesAgree : Prop :=
  ∀ (h : Handle) (s : State) (inp out out' : List Byte) (t t' : State), CbcFeed h s inp out t → CbcFeed h s inp out' t' →
    out' = out ∧ t'.slot h.toNat = t.slot h.toNat

/-- R117: what an encrypt session put out, in any cut, a decrypt session with the same key and IV turns back into the
plaintext. The sessions may share the machine or not. -/
def Obligations.CbcRoundTrip : Prop :=
  ∀ (h h' : Handle) (key iv pt ct pt' : List Byte) (s s' t t' : State), CbcStarts h key iv s → CbcStarts h' key iv s' →
    (s.slot h.toNat).dir = .encrypt → (s'.slot h'.toNat).dir = .decrypt → s'.cfg.primitive = s.cfg.primitive →
    CbcFeed h s pt ct t → CbcFeed h' s' ct pt' t' → pt' = pt

/-! The AEAD engine. -/

/-- R140 and R110: for a session command on a slot that meets the invariants, InvalidStateTransition is raised exactly where the table
says so, and a command that ends in OK or AuthenticationFailure leaves the phase the table gives. -/
def Obligations.PhasesFollowTheTables : Prop :=
  ∀ (i : Instr) (h : Handle) (m : Mode) (s t : State) (x : Slot), handleOf i = some h → Names s h m x →
    (modeOf i = none ∨ modeOf i = some m) → SlotInv x → WellFormed i s.args = true → exec i s = .next t →
    (t.err = errByte .invalidStateTransition ↔ phaseAfter i (len32 s.args .arg1) x = none) ∧
      (t.err = errByte .ok ∨ t.err = errByte .authenticationFailure →
        phaseAfter i (len32 s.args .arg1) x = some (t.slot h.toNat).phase)

/-- R149, R33: GCM.INIT of a key of the session's size, a nonce, any AAD and a legal tag length, from any phase. -/
def Obligations.GcmInitStartsAMessage : Prop :=
  ∀ (h : Handle) (d : Dir) (s : State) (x : Slot) (k : AesKey) (nonce aad : List Byte) (acc : Block) (rest : List Byte),
    Names s h .aead x → WellFormed (.gcmInit h d) s.args = true → x.keySize ≠ .none →
    len32 s.args .arg1 = keyBytes x.keySize → 0 < len32 s.args .arg3 → len32 s.args .arg6 % 8 = 0 →
    32 ≤ len32 s.args .arg6 → len32 s.args .arg6 ≤ 128 →
    accessible s.cfg (addrOf s.args .arg0) (len32 s.args .arg1) = true →
    accessible s.cfg (addrOf s.args .arg2) (len32 s.args .arg3) = true →
    accessible s.cfg (addrOf s.args .arg4) (len32 s.args .arg5) = true →
    rawKey (memRead s.mem (addrOf s.args .arg0) (len32 s.args .arg1)) = some k →
    nonce = memRead s.mem (addrOf s.args .arg2) (len32 s.args .arg3) →
    aad = memRead s.mem (addrOf s.args .arg4) (len32 s.args .arg5) →
    acc = ghashFrom (aesEnc s.cfg k 0) 0 (blocksOf (aad.length / 16) aad) → rest = aad.drop (aad.length / 16 * 16) →
    ∃ t, exec (.gcmInit h d) s = .next t ∧ Finished .ok 0 t ∧
      t.slot h.toNat =
        { x with
          dir := d, key := keyField (memRead s.mem (addrOf s.args .arg0) (len32 s.args .arg1)), hkey := aesEnc s.cfg k 0,
          j0 := deriveJ0 (aesEnc s.cfg k 0) nonce, ctr := inc32 (deriveJ0 (aesEnc s.cfg k 0) nonce), acc := acc,
          aadCount := BitVec.ofNat 64 aad.length, dataCount := 0, aadBuf := rest, dataBuf := [],
          tagLen := BitVec.ofNat 5 (len32 s.args .arg6 / 8), tag := 0, tagValid := false, phase := .aad, ckAcc := acc,
          ckAadCount := BitVec.ofNat 64 aad.length, ckAadBuf := rest } ∧
      OtherSlotsKept h.toNat s t ∧ RegistersKept s t ∧ MemoryKept s t

/-- R154, R155, R150: the AAD commands in phase AAD. Whole blocks are folded into the accumulator, the rest is buffered, the count
grows by the length, and nothing else changes. -/
def Obligations.AadCommandsAbsorb : Prop :=
  ∀ (i : Instr) (h : Handle) (s : State) (x : Slot) (a : List Byte), Names s h .aead x → WellFormed i s.args = true →
    x.phase = .aad → x.aadBuf.length < 16 →
    (i = .gcmAadByte h ∧ a = [byte8 s.args] ∨
      i = .gcmAadBytes h ∧ a = memRead s.mem (addrOf s.args .arg0) (len32 s.args .arg1) ∧
        accessible s.cfg (addrOf s.args .arg0) (len32 s.args .arg1) = true) →
    x.aadCount.toNat + a.length ≤ aadMax →
    ∃ t, exec i s = .next t ∧ Finished .ok 0 t ∧
      t.slot h.toNat =
        { x with
          acc := ghashFrom x.hkey x.acc (blocksOf ((x.aadBuf ++ a).length / 16) (x.aadBuf ++ a)),
          aadBuf := (x.aadBuf ++ a).drop ((x.aadBuf ++ a).length / 16 * 16),
          aadCount := x.aadCount + BitVec.ofNat 64 a.length } ∧
      OtherSlotsKept h.toNat s t ∧ RegistersKept s t ∧ MemoryKept s t

/-- R156, R159, R151 to R153: the data commands in phase AAD or DATA, with room for their output. With the bytes held back in the
session in front of the new ones, as many whole blocks as the update size says are encrypted or decrypted in counter mode, the
ciphertext is folded, the rest is kept, and the AAD phase is closed. -/
def Obligations.DataCommandsProcessWholeBlocks : Prop :=
  ∀ (i : Instr) (h : Handle) (s : State) (x : Slot) (d ct : List Byte) (need : Nat) (acc : Block), Names s h .aead x →
    WellFormed i s.args = true → AeadInv x → x.phase = .aad ∨ x.phase = .data →
    (i = .gcmByte h ∧ d = [byte8 s.args] ∨
      i = .gcmBytes h ∧ d = memRead s.mem (addrOf s.args .arg0) (len32 s.args .arg1) ∧ 0 < len32 s.args .arg1 ∧
        accessible s.cfg (addrOf s.args .arg0) (len32 s.args .arg1) = true) →
    need = uoSize x d.length → need ≤ len32 s.args .arg4 → x.dataCount.toNat + pending x d.length ≤ dataMax →
    accessible s.cfg (addrOf s.args .arg3) need = true →
    acc = (if x.aadBuf = [] then x.acc else gfMul (x.acc ^^^ blockOfBytes (pad16 x.aadBuf)) x.hkey) →
    ct = (match x.dir with
      | .encrypt => gctr s.cfg (slotKey x) x.ctr ((x.dataBuf ++ d).take need)
      | .decrypt => (x.dataBuf ++ d).take need) →
    ∃ t, exec i s = .next t ∧ Finished .ok need t ∧
      memRead t.mem (addrOf s.args .arg3) need = gctr s.cfg (slotKey x) x.ctr ((x.dataBuf ++ d).take need) ∧
      t.slot h.toNat =
        { x with
          phase := .data, aadBuf := [], acc := ghashFrom x.hkey acc (blocksOf (need / 16) ct),
          ctr := inc32Iter (need / 16) x.ctr, dataCount := x.dataCount + BitVec.ofNat 64 need,
          dataBuf := (x.dataBuf ++ d).drop need } ∧
      OtherSlotsKept h.toNat s t ∧ RegistersKept s t ∧ MemoryKeptOutside (addrOf s.args .arg3) need s t

/-- R159: a GCM.BYTES of length 0 in phase AAD or DATA returns 0 and changes nothing; the phase stays. -/
def Obligations.GcmBytesOfNothingIsNoOp : Prop :=
  ∀ (h : Handle) (s : State) (x : Slot), Names s h .aead x → WellFormed (.gcmBytes h) s.args = true →
    x.phase = .aad ∨ x.phase = .data → len32 s.args .arg1 = 0 →
    exec (.gcmBytes h) s = .next { s with err := errByte .ok, result := 0 }

/-- R160, encrypt: GCM.FINAL writes the last partial block and the tag. -/
def Obligations.GcmFinalEmitsTheTag : Prop :=
  ∀ (h : Handle) (s : State) (x : Slot) (ct : List Byte) (acc tag : Block), Names s h .aead x →
    WellFormed (.gcmFinal h) s.args = true → AeadInv x → x.phase = .aad ∨ x.phase = .data → x.dir = .encrypt →
    x.tagLen.toNat ≤ 16 → x.dataBuf.length + x.tagLen.toNat ≤ len32 s.args .arg4 →
    accessible s.cfg (addrOf s.args .arg3) (x.dataBuf.length + x.tagLen.toNat) = true →
    ct = gctr s.cfg (slotKey x) x.ctr x.dataBuf →
    acc = ghashFrom x.hkey x.acc
      (blocksOf ((x.aadBuf.length + 15) / 16) (pad16 x.aadBuf) ++ blocksOf ((ct.length + 15) / 16) (pad16 ct) ++
        [blockOfBytes
          (beBytes 8 (8 * x.aadCount.toNat) ++ beBytes 8 (8 * (x.dataCount.toNat + x.dataBuf.length)))]) →
    tag = aesEnc s.cfg (slotKey x) x.j0 ^^^ acc →
    ∃ t, exec (.gcmFinal h) s = .next t ∧ Finished .ok (x.dataBuf.length + x.tagLen.toNat) t ∧
      memRead t.mem (addrOf s.args .arg3) (x.dataBuf.length + x.tagLen.toNat) =
        ct ++ (bytesOfBlock tag).take x.tagLen.toNat ∧
      t.slot h.toNat =
        { x with
          phase := .final, aadBuf := [], dataBuf := [], acc := acc, tag := tag, tagValid := true,
          dataCount := x.dataCount + BitVec.ofNat 64 x.dataBuf.length } ∧
      OtherSlotsKept h.toNat s t ∧ RegistersKept s t ∧
      MemoryKeptOutside (addrOf s.args .arg3) (x.dataBuf.length + x.tagLen.toNat) s t

/-- R160, R161, decrypt: GCM.FINAL writes the last partial block and compares the tag with the last bytes of the stream. -/
def Obligations.GcmFinalVerifiesTheTag : Prop :=
  ∀ (h : Handle) (s : State) (x : Slot) (m : Nat) (ct : List Byte) (acc tag : Block), Names s h .aead x →
    WellFormed (.gcmFinal h) s.args = true → AeadInv x → x.phase = .aad ∨ x.phase = .data → x.dir = .decrypt →
    x.dataBuf.length = m + x.tagLen.toNat → m ≤ len32 s.args .arg4 → accessible s.cfg (addrOf s.args .arg3) m = true →
    ct = x.dataBuf.take m →
    acc = ghashFrom x.hkey x.acc
      (blocksOf ((x.aadBuf.length + 15) / 16) (pad16 x.aadBuf) ++ blocksOf ((m + 15) / 16) (pad16 ct) ++
        [blockOfBytes (beBytes 8 (8 * x.aadCount.toNat) ++ beBytes 8 (8 * (x.dataCount.toNat + m)))]) →
    tag = aesEnc s.cfg (slotKey x) x.j0 ^^^ acc →
    ∃ t, exec (.gcmFinal h) s = .next t ∧
      Finished (if (bytesOfBlock tag).take x.tagLen.toNat = x.dataBuf.drop m then .ok else .authenticationFailure) m t ∧
      memRead t.mem (addrOf s.args .arg3) m = gctr s.cfg (slotKey x) x.ctr ct ∧
      t.slot h.toNat =
        { x with
          phase := .final, aadBuf := [], dataBuf := [], acc := acc, tag := tag, tagValid := true,
          dataCount := x.dataCount + BitVec.ofNat 64 m } ∧
      OtherSlotsKept h.toNat s t ∧ RegistersKept s t ∧ MemoryKeptOutside (addrOf s.args .arg3) m s t

/-- R161 (b): a decrypt GCM.FINAL of a stream shorter than a tag fails, writes nothing and ends the message. -/
def Obligations.GcmFinalRefusesAShortStream : Prop :=
  ∀ (h : Handle) (s : State) (x : Slot), Names s h .aead x → WellFormed (.gcmFinal h) s.args = true → AeadInv x →
    x.phase = .aad ∨ x.phase = .data → x.dir = .decrypt → x.dataBuf.length < x.tagLen.toNat →
    ∃ t, exec (.gcmFinal h) s = .next t ∧ Finished .authenticationFailure 0 t ∧
      t.slot h.toNat =
        { x with
          phase := .final, dataBuf := [], tagValid := false, aadBuf := [],
          acc := if x.aadBuf = [] then x.acc else gfMul (x.acc ^^^ blockOfBytes (pad16 x.aadBuf)) x.hkey } ∧
      OtherSlotsKept h.toNat s t ∧ RegistersKept s t ∧ MemoryKept s t

/-- R157, R158, R162, R163: the size queries in every phase but UNINIT. -/
def Obligations.SizeQueriesAnswer : Prop :=
  ∀ (h : Handle) (s : State) (x : Slot) (n : Nat), Names s h .aead x → x.phase ≠ .uninit → x.dataBuf.length < 2 ^ 32 →
    n = len32 s.args .arg1 →
    (WellFormed (.gcmUosize h) s.args = true →
      ∃ t u, exec (.gcmUosize h) s = .next t ∧ Finished .ok (u - u % 16) t ∧
        (x.dir = .encrypt → u = x.dataBuf.length + n) ∧ (x.dir = .decrypt → u = x.dataBuf.length + n - x.tagLen.toNat) ∧
        SlotsKept s t ∧ RegistersKept s t ∧ MemoryKept s t) ∧
    (WellFormed (.gcmOsize h) s.args = true →
      ∃ t u, exec (.gcmOsize h) s = .next t ∧ Finished .ok u t ∧
        (x.dir = .encrypt → u = x.dataBuf.length + n + x.tagLen.toNat) ∧
        (x.dir = .decrypt → u = x.dataBuf.length + n - x.tagLen.toNat) ∧
        SlotsKept s t ∧ RegistersKept s t ∧ MemoryKept s t)

/-- R158: GCM.OSIZE's answer for `n` more bytes is what a GCM.BYTES of `n` bytes and a GCM.FINAL write between them (log entry
21), whatever their output operands are and whatever happens on other sessions between the commands. -/
def Obligations.OutputSizeIsWhatIsWritten : Prop :=
  ∀ (h : Handle) (s s' t u u' v : State) (x : Slot), Names s h .aead x → AeadInv x → Between h s s' →
    len32 s'.args .arg1 = len32 s.args .arg1 → RunsOk (.gcmOsize h) s t → RunsOk (.gcmBytes h) s' u → Between h u u' →
    exec (.gcmFinal h) u' = .next v → v.err = errByte .ok ∨ v.err = errByte .authenticationFailure →
    t.result.toNat = u.result.toNat + v.result.toNat

/-- R164: GCM.MAC after an encrypt GCM.FINAL writes the tag and changes nothing else; done again, it writes the same bytes. -/
def Obligations.GcmMacWritesTheTag : Prop :=
  ∀ (h : Handle) (s : State) (x : Slot), Names s h .aead x → WellFormed (.gcmMac h) s.args = true → x.phase = .final →
    x.dir = .encrypt → x.tagValid = true → x.tagLen.toNat ≤ 16 → x.tagLen.toNat ≤ len32 s.args .arg4 →
    accessible s.cfg (addrOf s.args .arg3) x.tagLen.toNat = true →
    ∃ t, exec (.gcmMac h) s = .next t ∧ Finished .ok x.tagLen.toNat t ∧
      memRead t.mem (addrOf s.args .arg3) x.tagLen.toNat = (bytesOfBlock x.tag).take x.tagLen.toNat ∧ SlotsKept s t ∧
      RegistersKept s t ∧ MemoryKeptOutside (addrOf s.args .arg3) x.tagLen.toNat s t ∧
      ∃ u, exec (.gcmMac h) t = .next u ∧ MemoryKept t u ∧ Finished .ok x.tagLen.toNat u

/-- R165: GCM.RESET with KEEP = 1 restores the checkpoint; with KEEP = 0 it drops the key and all of the message. That `iv` and
`chain`, which are not fields of R31, stay at KEEP = 0 is the model's reading of R165 (log entry 22). -/
def Obligations.GcmResetRestartsOrClears : Prop :=
  ∀ (h : Handle) (s : State) (x : Slot), Names s h .aead x →
    (x.phase ≠ .uninit →
      ∃ t, exec (.gcmReset h true) s = .next t ∧ Finished .ok 0 t ∧
        t.slot h.toNat =
          { x with
            ctr := inc32 x.j0, acc := x.ckAcc, aadCount := x.ckAadCount, aadBuf := x.ckAadBuf, dataCount := 0,
            dataBuf := [], tag := 0, tagValid := false, phase := .aad } ∧
        OtherSlotsKept h.toNat s t ∧ RegistersKept s t ∧ MemoryKept s t) ∧
    ∃ t, exec (.gcmReset h false) s = .next t ∧ Finished .ok 0 t ∧
      t.slot h.toNat =
        ⟨x.alloc, x.mode, x.dir, x.keySize, x.path, .uninit, 0, x.iv, x.chain, 0, 0, 0, 0, 0, 0, [], [], 0, 0, false, 0, 0, []⟩ ∧
      OtherSlotsKept h.toNat s t ∧ RegistersKept s t ∧ MemoryKept s t

/-- R165, R33: after any AAD and data commands, and after a GCM.FINAL or without one, GCM.RESET with KEEP = 1 returns the session
to the state right after its GCM.INIT. -/
def Obligations.GcmResetReturnsToInit : Prop :=
  ∀ (h : Handle) (d : Dir) (key nonce aad0 aad data out : List Byte) (tagLen : Nat) (s t u v : State),
    GcmStarts h d key nonce aad0 tagLen s → GcmFeed h s aad data out t → u = t ∨ exec (.gcmFinal h) t = .next u →
    RunsOk (.gcmReset h true) u v → v.slot h.toNat = s.slot h.toNat

/-! The AEAD engine over whole messages. -/

/-- R145 to R153, R160: however a message is cut into commands, what an encrypt session puts out is the counter-mode ciphertext of the
whole plaintext, and then the tag of the whole AAD and ciphertext. -/
def Obligations.GcmEncryptsInOneShot : Prop :=
  ∀ (h : Handle) (key nonce aad pt out : List Byte) (tagLen : Nat) (k : AesKey) (s t : State),
    GcmMessage h .encrypt key nonce aad tagLen pt out s → rawKey key = some k → RunsOk (.gcmFinal h) s t →
    out ++ outputOf s t =
      gcmCrypt s.cfg k nonce pt ++ gcmTag s.cfg k nonce aad (gcmCrypt s.cfg k nonce pt) tagLen

/-- R153, R160, R161: however a stream of ciphertext and tag is cut into commands, what a decrypt session puts out is the counter-mode
plaintext, and GCM.FINAL ends in OK exactly where the tag is that of the AAD and the ciphertext. -/
def Obligations.GcmDecryptsInOneShot : Prop :=
  ∀ (h : Handle) (key nonce aad ct tag out : List Byte) (tagLen : Nat) (k : AesKey) (s t : State),
    GcmMessage h .decrypt key nonce aad tagLen (ct ++ tag) out s → tag.length = tagLen → rawKey key = some k →
    exec (.gcmFinal h) s = .next t → t.err = errByte .ok ∨ t.err = errByte .authenticationFailure →
    out ++ outputOf s t = gcmCrypt s.cfg k nonce ct ∧
      (t.err = errByte .ok ↔ tag = gcmTag s.cfg k nonce aad ct tagLen)

/-- R166: the output and the outcome of a message do not depend on how its AAD and its data are cut into commands, nor on what
happens between them. -/
def Obligations.StreamingIsEquivalent : Prop :=
  ∀ (h : Handle) (d : Dir) (key nonce aad data out out' : List Byte) (tagLen : Nat) (s s' t t' : State),
    GcmMessage h d key nonce aad tagLen data out s → GcmMessage h d key nonce aad tagLen data out' s' → s'.cfg = s.cfg →
    exec (.gcmFinal h) s = .next t → exec (.gcmFinal h) s' = .next t' →
    t.err = errByte .ok ∨ t.err = errByte .authenticationFailure →
    t'.err = errByte .ok ∨ t'.err = errByte .authenticationFailure →
    out' ++ outputOf s' t' = out ++ outputOf s t ∧ t'.err = t.err

/-- R168: a decrypt session fed what an encrypt session put out, with the same key, nonce, AAD and tag length, returns the plaintext,
and its GCM.FINAL, where it has room for its output, ends in OK. -/
def Obligations.AeadRoundTrip : Prop :=
  ∀ (h h' : Handle) (key nonce aad pt out out' : List Byte) (tagLen : Nat) (s s' t t' : State),
    GcmMessage h .encrypt key nonce aad tagLen pt out s → RunsOk (.gcmFinal h) s t →
    GcmMessage h' .decrypt key nonce aad tagLen (out ++ outputOf s t) out' s' → s'.cfg.primitive = s.cfg.primitive →
    exec (.gcmFinal h') s' = .next t' → t'.err = errByte .ok ∨ t'.err = errByte .authenticationFailure →
    t'.err = errByte .ok ∧ out' ++ outputOf s' t' = pt

/-! The algebra. -/

/-- R141: `GFMul` is multiplication of polynomials over GF(2) modulo z^128 + z^7 + z^2 + z + 1, where bit `x_i` is the coefficient of
z^i. -/
def Obligations.GfMulIsPolynomialMultiplication : Prop :=
  ∀ (poly : Block → Polynomial (ZMod 2)),
    (∀ x : Block, poly x = ∑ j ∈ Finset.range 128, if x.getMsbD j then Polynomial.X ^ j else 0) →
    ∀ x y : Block,
      (Polynomial.X ^ 128 + Polynomial.X ^ 7 + Polynomial.X ^ 2 + Polynomial.X + 1) ∣ poly x * poly y - poly (gfMul x y)

/-- R142: `inc32` keeps bytes 0 to 11 and adds 1 to the last four bytes, mod 2^32; `2^32 - 1` or fewer increments never return to a
counter block (R148). -/
def Obligations.CountersDoNotRepeat : Prop :=
  ∀ (x : Block) (n m : Nat), (bytesOfBlock (inc32Iter n x)).take 12 = (bytesOfBlock x).take 12 ∧
    intBe ((bytesOfBlock (inc32Iter n x)).drop 12) = (intBe ((bytesOfBlock x).drop 12) + n) % 2 ^ 32 ∧
    (n < m → m - n < 2 ^ 32 → inc32Iter n x ≠ inc32Iter m x)

/-! Memory and the register window. -/

/-- R61: the three laws of `Accessible`. -/
def Obligations.AccessibleObeysItsLaws : Prop :=
  ∀ (p : Platform) (a n : Nat), accessible p a 0 = true ∧
    (accessible p a n = true → 0 < n → a + n ≤ 2 ^ 64) ∧
    (accessible p a n = true → ∀ b k, a ≤ b → b + k ≤ a + n → accessible p b k = true)

/-- R60, R71 (a), (b): a host store to buffer memory that exists puts its bytes there and changes nothing else, and a host read
returns the bytes that stand there (the reply is the model's own field: log entry 6). -/
def Obligations.HostReachesMemory : Prop :=
  ∀ (s : State) (addr : Word64) (rest : List HostAccess),
    (∀ bytes, HostNext s (.memWrite addr bytes) rest → addr.toNat + bytes.length ≤ 2 ^ 64 →
      ∃ t, step s = .next t ∧ memRead t.mem addr.toNat bytes.length = bytes ∧
        MemoryKeptOutside addr.toNat bytes.length s t ∧ t = { s with host := rest, mem := t.mem }) ∧
    ∀ n, HostNext s (.memRead addr n) rest → addr.toNat + n ≤ 2 ^ 64 →
      step s = .next { s with host := rest, busReply := memRead s.mem addr.toNat n }

/-- R22, R62, R63: a 4-byte write of CMD holds the little-endian word, starts the command and changes nothing else (the mark that a
command is due is the model's own field: log entry 6). It is accepted for every MMIO_BASE by the model's choice: alignment is
judged on the offset in the window (log entry 8). -/
def Obligations.CmdWriteStartsACommand : Prop :=
  ∀ (s : State) (addr : Word64) (bytes : List Byte) (rest : List HostAccess), AtOffset s addr 0 → bytes.length = 4 →
    HostNext s (.windowWrite addr bytes) rest →
    step s = .next { s with host := rest, cmd := BitVec.ofNat 32 (intLe bytes), cmdStarted := true }

/-- R21, R62, R63: writes of an argument register, whole and by halves. They are accepted for every MMIO_BASE by the model's
choice: alignment is judged on the offset in the window (log entry 8). -/
def Obligations.ArgumentWrites : Prop :=
  ∀ (s : State) (r : ArgReg) (addr : Word64) (bytes : List Byte) (rest : List HostAccess),
    HostNext s (.windowWrite addr bytes) rest →
    ∃ t, (AtOffset s addr (argOffset r) → bytes.length = 8 →
        step s = .next t ∧ (getArg t.args r).toNat = intLe bytes) ∧
      (AtOffset s addr (argOffset r) → bytes.length = 4 →
        step s = .next t ∧ ((getArg t.args r).extractLsb' 0 32).toNat = intLe bytes ∧
          (getArg t.args r).extractLsb' 32 32 = (getArg s.args r).extractLsb' 32 32) ∧
      (AtOffset s addr (argOffset r + 4) → bytes.length = 4 →
        step s = .next t ∧ ((getArg t.args r).extractLsb' 32 32).toNat = intLe bytes ∧
          (getArg t.args r).extractLsb' 0 32 = (getArg s.args r).extractLsb' 0 32) ∧
      (∀ q, q ≠ r → getArg t.args q = getArg s.args q) ∧ t = { s with host := rest, args := t.args }

/-- R62, R63: a write to a read-only or reserved location is ignored; every write that is misaligned, or of another width than the
location's, is refused with the platform's bus error. That alignment is judged on the offset in the window, for every MMIO_BASE,
and that an 8-byte write is legal at the reserved locations from 0x50 on, are the model's choices (log entry 8). -/
def Obligations.OtherWindowWrites : Prop :=
  ∀ (s : State) (addr : Word64) (off : Nat) (bytes : List Byte) (rest : List HostAccess), AtOffset s addr off →
    HostNext s (.windowWrite addr bytes) rest →
    ((off = 0x04 ∨ off = 0x08 ∨ off = 0x0C ∨ off = 0x48 ∨ off = 0x4C ∨ (0x50 ≤ off ∧ off % 4 = 0)) → bytes.length = 4 →
      step s = .next { s with host := rest }) ∧
    (off % 8 = 0 → 0x48 ≤ off → bytes.length = 8 → step s = .next { s with host := rest }) ∧
    ((bytes.length ≠ 4 ∧ bytes.length ≠ 8) ∨ off % bytes.length ≠ 0 ∨ (off < 0x10 ∧ bytes.length = 8) →
      step s = .refused .hostBusError)

/-- R62, R63: what a 4-byte read of each register and an 8-byte read of each 64-bit register returns, little-endian; no such read
changes anything (the reply is the model's own field: log entry 6). Every read that is misaligned, or of another width than the
location's, is refused with the platform's bus error. That alignment is judged on the offset in the window, for every MMIO_BASE,
and that an 8-byte read is legal at the reserved locations from 0x50 on, are the model's choices (log entry 8). -/
def Obligations.WindowReads : Prop :=
  ∀ (s : State) (addr : Word64) (off n : Nat) (rest : List HostAccess), AtOffset s addr off →
    HostNext s (.windowRead addr n) rest →
    (∀ reply : List Byte,
      (n = 4 ∧ (off = 0x00 ∧ reply = leBytes 4 s.cmd.toNat ∨ off = 0x04 ∧ reply = leBytes 4 s.status.toNat ∨
          off = 0x08 ∧ reply = leBytes 4 s.caps.toNat ∨ off = 0x48 ∧ reply = leBytes 4 (s.result.extractLsb' 0 32).toNat ∨
          off = 0x4C ∧ reply = leBytes 4 (s.result.extractLsb' 32 32).toNat ∨
          (off = 0x0C ∨ (0x50 ≤ off ∧ off % 4 = 0)) ∧ reply = [0, 0, 0, 0] ∨
          (∃ r, off = argOffset r ∧ reply = leBytes 4 ((getArg s.args r).extractLsb' 0 32).toNat) ∨
          ∃ r, off = argOffset r + 4 ∧ reply = leBytes 4 ((getArg s.args r).extractLsb' 32 32).toNat) ∨
        n = 8 ∧ ((∃ r, off = argOffset r ∧ reply = leBytes 8 (getArg s.args r).toNat) ∨
          off = 0x48 ∧ reply = leBytes 8 s.result.toNat ∨
          (0x50 ≤ off ∧ off % 8 = 0) ∧ reply = [0, 0, 0, 0, 0, 0, 0, 0])) →
      step s = .next { s with host := rest, busReply := reply }) ∧
    ((n ≠ 4 ∧ n ≠ 8) ∨ off % n ≠ 0 ∨ (off < 0x10 ∧ n = 8) → step s = .refused .hostBusError)
end

