-- ==== Sys2Proof/Laws/Aes.lean ====
section
/-! SUPPORT. Property P1 of the block primitive (00_scope.md R9): decryption undoes encryption, for the uninterpreted primitive by
construction and for the cipher of FIPS-197 by proof. -/

namespace Sys2Proof.Machine

theorem invSubByte_subByte (b : Byte) : invSubByte (subByte b) = b := by
  revert b
  decide +kernel

theorem xorCol_self (a b : AesCol) : xorCol (xorCol a b) b = a := by
  simp [xorCol]

theorem addRoundKey_self (s k : AesState) : addRoundKey (addRoundKey s k) k = s := by
  simp [addRoundKey, xorCol_self]

theorem invSubBytes_subBytes (s : AesState) : invSubBytes (subBytes s) = s := by
  simp [invSubBytes, subBytes, invSubCol, subCol, invSubByte_subByte]

theorem invShiftRows_shiftRows (s : AesState) : invShiftRows (shiftRows s) = s := rfl

/-- `xtime` is linear over exclusive or. -/
theorem xtime_xor (a b : Byte) : xtime (a ^^^ b) = xtime a ^^^ xtime b := by
  unfold xtime
  rw [BitVec.getLsbD_xor, BitVec.shiftLeft_xor_distrib]
  cases a.getLsbD 7 <;> cases b.getLsbD 7 <;> simp only [Bool.xor_false, Bool.xor_true, Bool.not_true, Bool.not_false,
    if_true, if_false, Bool.false_eq_true]
  · ac_rfl
  · ac_rfl
  · have h : a <<< 1 ^^^ 0x1B#8 ^^^ (b <<< 1 ^^^ 0x1B#8) = a <<< 1 ^^^ b <<< 1 ^^^ (0x1B#8 ^^^ 0x1B#8) := by ac_rfl
    exact (h.trans (by simp)).symm

/-- The part of `InvMixColumns` after `MixColumns` that each input byte contributes. -/
theorem invMix_coefficients (a : Byte) :
    mul14 (xtime a) ^^^ mul11 a ^^^ mul13 a ^^^ mul9 (xtime a ^^^ a) = a ∧
    mul14 (xtime a ^^^ a) ^^^ mul11 (xtime a) ^^^ mul13 a ^^^ mul9 a = 0 ∧
    mul14 a ^^^ mul11 (xtime a ^^^ a) ^^^ mul13 (xtime a) ^^^ mul9 a = 0 ∧
    mul14 a ^^^ mul11 a ^^^ mul13 (xtime a ^^^ a) ^^^ mul9 (xtime a) = 0 := by
  revert a
  decide +kernel

theorem mul_xor (a b : Byte) : mul9 (a ^^^ b) = mul9 a ^^^ mul9 b ∧ mul11 (a ^^^ b) = mul11 a ^^^ mul11 b ∧
    mul13 (a ^^^ b) = mul13 a ^^^ mul13 b ∧ mul14 (a ^^^ b) = mul14 a ^^^ mul14 b := by
  simp only [mul9, mul11, mul13, mul14, xtime_xor]
  refine ⟨?_, ?_, ?_, ?_⟩ <;> ac_rfl

/-- One byte of `InvMixColumns` after `MixColumns`. -/
theorem invMixByte_mix (a b c d : Byte) :
    invMixByte (mixByte a b c d) (mixByte b c d a) (mixByte c d a b) (mixByte d a b c) = a := by
  have h9 := fun x y => (mul_xor x y).1
  have h11 := fun x y => (mul_xor x y).2.1
  have h13 := fun x y => (mul_xor x y).2.2.1
  have h14 := fun x y => (mul_xor x y).2.2.2
  have ha := (invMix_coefficients a).1
  have hb := (invMix_coefficients b).2.1
  have hc := (invMix_coefficients c).2.2.1
  have hd := (invMix_coefficients d).2.2.2
  have key : invMixByte (mixByte a b c d) (mixByte b c d a) (mixByte c d a b) (mixByte d a b c) =
      (mul14 (xtime a) ^^^ mul11 a ^^^ mul13 a ^^^ mul9 (xtime a ^^^ a)) ^^^
      (mul14 (xtime b ^^^ b) ^^^ mul11 (xtime b) ^^^ mul13 b ^^^ mul9 b) ^^^
      (mul14 c ^^^ mul11 (xtime c ^^^ c) ^^^ mul13 (xtime c) ^^^ mul9 c) ^^^
      (mul14 d ^^^ mul11 d ^^^ mul13 (xtime d ^^^ d) ^^^ mul9 (xtime d)) := by
    simp only [invMixByte, mixByte, h9, h11, h13, h14]
    ac_rfl
  rw [key, ha, hb, hc, hd]
  simp

theorem invMixCol_mixCol (c : AesCol) : invMixCol (mixCol c) = c := by
  simp [invMixCol, mixCol, invMixByte_mix]

theorem invMixColumns_mixColumns (s : AesState) : invMixColumns (mixColumns s) = s := by
  simp [invMixColumns, mixColumns, invMixCol_mixCol]

theorem decRounds_encRounds (ks : List AesState) (s : AesState) : decRounds ks (encRounds ks s) = s := by
  induction ks generalizing s with
  | nil => rfl
  | cons k rest ih =>
    cases rest with
    | nil => simp [encRounds, decRounds, addRoundKey_self, invShiftRows_shiftRows, invSubBytes_subBytes]
    | cons k' rest =>
      rw [encRounds, decRounds]
      simp only [ih, addRoundKey_self, invMixColumns_mixColumns, invShiftRows_shiftRows, invSubBytes_subBytes]

theorem extract_append_low {v w : Nat} (hi : BitVec v) (lo : BitVec w) {s n : Nat} (h : s + n ≤ w) :
    (hi ++ lo).extractLsb' s n = lo.extractLsb' s n := BitVec.extractLsb'_append_eq_of_add_le h

theorem extract_append_high {v w : Nat} (hi : BitVec v) (lo : BitVec w) {s n : Nat} (h : w ≤ s) :
    (hi ++ lo).extractLsb' s n = hi.extractLsb' (s - w) n := BitVec.extractLsb'_append_eq_of_le h

/-- The bytes of the bits of a column. -/
theorem colAt_colBits (c : AesCol) : colAt 32 (colBits c) 0 = c := by
  obtain ⟨a, b, c, d⟩ := c
  have h1 : (colBits ⟨a, b, c, d⟩).extractLsb' 24 8 = a :=
    ((extract_append_high (a ++ b ++ c) d (by omega)).trans
      ((extract_append_high (a ++ b) c (by omega)).trans (extract_append_high a b (by omega)))).trans BitVec.extractLsb'_eq_self
  have h2 : (colBits ⟨a, b, c, d⟩).extractLsb' 16 8 = b :=
    ((extract_append_high (a ++ b ++ c) d (by omega)).trans
      ((extract_append_high (a ++ b) c (by omega)).trans (extract_append_low a b (by omega)))).trans BitVec.extractLsb'_eq_self
  have h3 : (colBits ⟨a, b, c, d⟩).extractLsb' 8 8 = c :=
    ((extract_append_high (a ++ b ++ c) d (by omega)).trans (extract_append_low (a ++ b) c (by omega))).trans
      BitVec.extractLsb'_eq_self
  have h4 : (colBits ⟨a, b, c, d⟩).extractLsb' 0 8 = d :=
    (extract_append_low (a ++ b ++ c) d (by omega)).trans BitVec.extractLsb'_eq_self
  simp only [colAt, Nat.zero_add, h1, h2, h3, h4]

/-- A byte of a field of 32 bits. -/
theorem extract_extract {w : Nat} (x : BitVec w) (lo k : Nat) (h : k + 8 ≤ 32) :
    (x.extractLsb' lo 32).extractLsb' k 8 = x.extractLsb' (lo + k) 8 := by
  ext i hi
  have : k + i < 32 := by omega
  simp [this, Nat.add_assoc]

/-- A column read through a wider value. -/
theorem colAt_extract {w : Nat} (x : BitVec w) (lo : Nat) (y : BitVec 32) (h : x.extractLsb' lo 32 = y) :
    colAt w x lo = colAt 32 y 0 := by
  subst h
  simp only [colAt, Nat.zero_add]
  rw [extract_extract _ _ _ (by omega), extract_extract _ _ _ (by omega), extract_extract _ _ _ (by omega),
    extract_extract _ _ _ (by omega)]
  rfl

/-- A state is the state of its block. -/
theorem aesOfBlock_aesToBlock (s : AesState) : aesOfBlock (aesToBlock s) = s := by
  obtain ⟨a, b, c, d⟩ := s
  have h1 : (aesToBlock ⟨a, b, c, d⟩).extractLsb' 96 32 = colBits a :=
    ((extract_append_high (colBits a ++ colBits b ++ colBits c) (colBits d) (by omega)).trans
      ((extract_append_high (colBits a ++ colBits b) (colBits c) (by omega)).trans
        (extract_append_high (colBits a) (colBits b) (by omega)))).trans BitVec.extractLsb'_eq_self
  have h2 : (aesToBlock ⟨a, b, c, d⟩).extractLsb' 64 32 = colBits b :=
    ((extract_append_high (colBits a ++ colBits b ++ colBits c) (colBits d) (by omega)).trans
      ((extract_append_high (colBits a ++ colBits b) (colBits c) (by omega)).trans
        (extract_append_low (colBits a) (colBits b) (by omega)))).trans BitVec.extractLsb'_eq_self
  have h3 : (aesToBlock ⟨a, b, c, d⟩).extractLsb' 32 32 = colBits c :=
    ((extract_append_high (colBits a ++ colBits b ++ colBits c) (colBits d) (by omega)).trans
      (extract_append_low (colBits a ++ colBits b) (colBits c) (by omega))).trans BitVec.extractLsb'_eq_self
  have h4 : (aesToBlock ⟨a, b, c, d⟩).extractLsb' 0 32 = colBits d :=
    (extract_append_low (colBits a ++ colBits b ++ colBits c) (colBits d) (by omega)).trans BitVec.extractLsb'_eq_self
  simp only [aesOfBlock, colAt_extract _ _ _ h1, colAt_extract _ _ _ h2, colAt_extract _ _ _ h3, colAt_extract _ _ _ h4,
    colAt_colBits]

theorem extract_join {w : Nat} (x : BitVec w) (a b n k : Nat) (h : a = b + k) :
    x.extractLsb' a n ++ x.extractLsb' b k = x.extractLsb' b (n + k) :=
  BitVec.extractLsb'_append_extractLsb'_eq_extractLsb' h

/-- The bits of a column of a block. -/
theorem colBits_colAt (w : Nat) (x : BitVec w) (lo : Nat) : colBits (colAt w x lo) = x.extractLsb' lo 32 := by
  simp only [colBits, colAt]
  rw [extract_join x (lo + 24) (lo + 16) 8 8 (by omega), extract_join x (lo + 16) (lo + 8) (8 + 8) 8 (by omega),
    extract_join x (lo + 8) lo (8 + 8 + 8) 8 (by omega)]

/-- A block is the block of its state. -/
theorem aesToBlock_aesOfBlock (x : Block) : aesToBlock (aesOfBlock x) = x := by
  simp only [aesToBlock, aesOfBlock, colBits_colAt]
  rw [extract_join x 96 64 32 32 (by omega), extract_join x 64 32 (32 + 32) 32 (by omega),
    extract_join x 32 0 (32 + 32 + 32) 32 (by omega)]
  exact BitVec.extractLsb'_eq_self

/-- P1 for the cipher of FIPS-197, under any round keys. -/
theorem aesInvCipher_aesCipher (ks : List AesState) (x : Block) : aesInvCipher ks (aesCipher ks x) = x := by
  cases ks with
  | nil => rfl
  | cons k rest =>
    rw [aesCipher, aesInvCipher, aesOfBlock_aesToBlock, decRounds_encRounds, addRoundKey_self, aesToBlock_aesOfBlock]

/-- P1 of R9: `AES_Dec(k, AES_Enc(k, x)) = x`. -/
@[simp] theorem aesDec_aesEnc (p : Platform) (k : AesKey) (x : Block) : aesDec p k (aesEnc p k x) = x := by
  unfold aesDec aesEnc
  cases p.primitive with
  | uninterpreted => simp
  | fips197 => simp [aesInvCipher_aesCipher]

end Sys2Proof.Machine
end

