-- ==== Sys2Proof/Laws/Bytes.lean ====
section
/-! SUPPORT. The laws of byte strings (00_scope.md R7, R8): lengths, and the conversions as inverses. -/

namespace Sys2Proof.Machine

@[simp] theorem beBytes_length (n v : Nat) : (beBytes n v).length = n := by
  induction n with
  | zero => rfl
  | succ k ih => simp [beBytes, ih]

@[simp] theorem leBytes_length (n v : Nat) : (leBytes n v).length = n := by
  induction n generalizing v with
  | zero => rfl
  | succ k ih => simp [leBytes, ih]

@[simp] theorem bytesOfBlock_length (x : Block) : (bytesOfBlock x).length = 16 := beBytes_length _ _

theorem intBe_foldl (b : List Byte) (acc : Nat) :
    b.foldl (fun acc x => acc * 256 + x.toNat) acc = acc * 256 ^ b.length + intBe b := by
  induction b generalizing acc with
  | nil => simp [intBe]
  | cons x t ih =>
    have h : intBe (x :: t) = (0 * 256 + x.toNat) * 256 ^ t.length + intBe t := by
      rw [intBe, List.foldl_cons, ih]
    rw [List.foldl_cons, ih, h, List.length_cons, pow_succ]
    ring

theorem intBe_cons (x : Byte) (t : List Byte) : intBe (x :: t) = x.toNat * 256 ^ t.length + intBe t := by
  rw [intBe, List.foldl_cons, intBe_foldl]
  simp

theorem intBe_lt (b : List Byte) : intBe b < 256 ^ b.length := by
  induction b with
  | nil => simp [intBe]
  | cons x t ih =>
    rw [intBe_cons, List.length_cons, pow_succ]
    have := x.isLt
    nlinarith [show 0 < 256 ^ t.length by positivity]

/-- `int_be(be_n(v)) = v mod 2^(8n)` (R8). -/
theorem intBe_beBytes (n v : Nat) : intBe (beBytes n v) = v % 256 ^ n := by
  induction n with
  | zero => simp [beBytes, intBe, Nat.mod_one]
  | succ k ih =>
    rw [beBytes, intBe_cons, ih, beBytes_length, pow_succ, BitVec.toNat_ofNat, Nat.mod_mul]
    ring

theorem beBytes_add (n v k : Nat) : beBytes n (v + k * 256 ^ n) = beBytes n v := by
  induction n generalizing k with
  | zero => rfl
  | succ j ih =>
    have h : v + k * 256 ^ (j + 1) = v + (k * 256) * 256 ^ j := by ring
    rw [beBytes, beBytes, h, ih]
    congr 1
    apply BitVec.eq_of_toNat_eq
    rw [BitVec.toNat_ofNat, BitVec.toNat_ofNat, Nat.add_mul_div_right _ _ (by positivity),
      Nat.add_mul_mod_self_right]

/-- `be_n(int_be(b)) = b` for `n = len(b)` (R8). -/
theorem beBytes_intBe (b : List Byte) : beBytes b.length (intBe b) = b := by
  induction b with
  | nil => rfl
  | cons x t ih =>
    rw [List.length_cons, beBytes, intBe_cons]
    have h : (x.toNat * 256 ^ t.length + intBe t) / 256 ^ t.length = x.toNat := by
      rw [Nat.add_comm, Nat.add_mul_div_right _ _ (by positivity), Nat.div_eq_of_lt (intBe_lt t), Nat.zero_add]
    rw [h, Nat.add_comm, beBytes_add, ih]
    simp

/-- A block is the block of its bytes. -/
@[simp] theorem blockOfBytes_bytesOfBlock (x : Block) : blockOfBytes (bytesOfBlock x) = x := by
  rw [blockOfBytes, bytesOfBlock, intBe_beBytes]
  apply BitVec.eq_of_toNat_eq
  rw [BitVec.toNat_ofNat]
  have := x.isLt
  omega

/-- Sixteen bytes are the bytes of their block. -/
theorem bytesOfBlock_blockOfBytes {b : List Byte} (h : b.length = 16) : bytesOfBlock (blockOfBytes b) = b := by
  have hlt := intBe_lt b
  rw [h] at hlt
  rw [bytesOfBlock, blockOfBytes, BitVec.toNat_ofNat, Nat.mod_eq_of_lt (by omega), ← h, beBytes_intBe]

@[simp] theorem blocksOf_length (n : Nat) (b : List Byte) : (blocksOf n b).length = n := by
  induction n generalizing b with
  | zero => rfl
  | succ k ih => simp [blocksOf, ih]

@[simp] theorem bytesOfBlocks_nil : bytesOfBlocks [] = [] := rfl

@[simp] theorem bytesOfBlocks_cons (x : Block) (t : List Block) :
    bytesOfBlocks (x :: t) = bytesOfBlock x ++ bytesOfBlocks t := by simp [bytesOfBlocks]

@[simp] theorem bytesOfBlocks_append (xs ys : List Block) :
    bytesOfBlocks (xs ++ ys) = bytesOfBlocks xs ++ bytesOfBlocks ys := by simp [bytesOfBlocks]

@[simp] theorem bytesOfBlocks_length (xs : List Block) : (bytesOfBlocks xs).length = 16 * xs.length := by
  induction xs with
  | nil => rfl
  | cons x t ih => simp [ih]; omega

/-- The blocks of the bytes of blocks. -/
theorem blocksOf_bytesOfBlocks (xs : List Block) (rest : List Byte) :
    blocksOf xs.length (bytesOfBlocks xs ++ rest) = xs := by
  induction xs with
  | nil => rfl
  | cons x t ih =>
    have h : (bytesOfBlock x ++ (bytesOfBlocks t ++ rest)).take 16 = bytesOfBlock x := by
      rw [List.take_append_of_le_length (by simp), List.take_of_length_le (by simp)]
    have h' : (bytesOfBlock x ++ (bytesOfBlocks t ++ rest)).drop 16 = bytesOfBlocks t ++ rest := by
      rw [List.drop_append_of_le_length (by simp), List.drop_of_length_le (by simp), List.nil_append]
    rw [List.length_cons, blocksOf, bytesOfBlocks_cons, List.append_assoc, h, h', ih, blockOfBytes_bytesOfBlock]

/-- The bytes of the blocks of bytes. -/
theorem bytesOfBlocks_blocksOf {n : Nat} {b : List Byte} (h : b.length = 16 * n) : bytesOfBlocks (blocksOf n b) = b := by
  induction n generalizing b with
  | zero => exact (List.length_eq_zero_iff.1 (by omega)).symm
  | succ k ih =>
    rw [blocksOf, bytesOfBlocks_cons, bytesOfBlock_blockOfBytes (by simp; omega), ih (by simp; omega), List.take_append_drop]

/-- The blocks of two byte strings of whole blocks, joined. -/
theorem blocksOf_append {n : Nat} (k : Nat) {a : List Byte} (b : List Byte) (h : a.length = 16 * n) :
    blocksOf (n + k) (a ++ b) = blocksOf n a ++ blocksOf k b := by
  induction n generalizing a with
  | zero =>
    have : a = [] := List.length_eq_zero_iff.1 (by omega)
    simp [this, blocksOf]
  | succ j ih =>
    rw [show j + 1 + k = (j + k) + 1 by omega, blocksOf, blocksOf, List.take_append_of_le_length (by omega),
      List.drop_append_of_le_length (by omega), ih (by simp; omega), List.cons_append]

/-- Block `j` of a byte string (R112). -/
theorem blocksOf_getElem (n : Nat) (b : List Byte) (j : Nat) (h : j < (blocksOf n b).length) :
    (blocksOf n b)[j] = blockOfBytes ((b.drop (16 * j)).take 16) := by
  induction n generalizing b j with
  | zero => simp [blocksOf] at h
  | succ k ih =>
    cases j with
    | zero => simp [blocksOf]
    | succ j =>
      have hj : j < (blocksOf k (b.drop 16)).length := by simpa using h
      simp only [blocksOf, List.getElem_cons_succ]
      rw [ih _ _ hj, List.drop_drop, show 16 + 16 * j = 16 * (j + 1) by omega]

/-- The bytes of block `j`. -/
theorem bytesOfBlocks_sub (xs : List Block) (j : Nat) (h : j < xs.length) :
    ((bytesOfBlocks xs).drop (16 * j)).take 16 = bytesOfBlock xs[j] := by
  induction xs generalizing j with
  | nil => simp at h
  | cons x t ih =>
    cases j with
    | zero => simp
    | succ j =>
      rw [bytesOfBlocks_cons, show 16 * (j + 1) = 16 + 16 * j by omega, ← List.drop_drop,
        List.drop_left' (bytesOfBlock_length x)]
      simpa using ih j (by simpa using h)

theorem pad16_length_mod (b : List Byte) : (pad16 b).length % 16 = 0 := by
  simp [pad16]
  omega

theorem pad16_length (b : List Byte) : (pad16 b).length = (b.length + 15) / 16 * 16 := by
  simp [pad16]
  omega

/-- A string of whole blocks is its own padding. -/
theorem pad16_of_mod {b : List Byte} (h : b.length % 16 = 0) : pad16 b = b := by
  simp [pad16, h]

/-- Padding touches only the last partial block. -/
theorem pad16_append {a : List Byte} (b : List Byte) (h : a.length % 16 = 0) : pad16 (a ++ b) = a ++ pad16 b := by
  have : (a.length + b.length) % 16 = b.length % 16 := by omega
  simp [pad16, this]

@[simp] theorem xorBytes_length (a b : List Byte) : (xorBytes a b).length = min a.length b.length := by
  simp [xorBytes]

/-- Exclusive or with the same string twice (R7). -/
theorem xorBytes_cancel {a k : List Byte} (h : a.length ≤ k.length) : xorBytes (xorBytes a k) k = a := by
  induction a generalizing k with
  | nil => simp [xorBytes]
  | cons x t ih =>
    cases k with
    | nil => simp at h
    | cons y u =>
      have := ih (k := u) (by simpa using h)
      simp only [xorBytes, List.zipWith_cons_cons] at this ⊢
      rw [this, BitVec.xor_assoc, BitVec.xor_self, BitVec.xor_zero]

/-- `be_n` of an exclusive or. -/
theorem beBytes_xor (n v w : Nat) : beBytes n (v ^^^ w) = xorBytes (beBytes n v) (beBytes n w) := by
  induction n with
  | zero => rfl
  | succ k ih =>
    simp only [beBytes, xorBytes, List.zipWith_cons_cons] at ih ⊢
    rw [ih]
    congr 1
    apply BitVec.eq_of_toNat_eq
    rw [BitVec.toNat_xor, BitVec.toNat_ofNat, BitVec.toNat_ofNat, BitVec.toNat_ofNat,
      show (256 : Nat) ^ k = 2 ^ (8 * k) by rw [pow_mul]; norm_num,
      ← Nat.shiftRight_eq_div_pow, ← Nat.shiftRight_eq_div_pow, ← Nat.shiftRight_eq_div_pow,
      Nat.shiftRight_xor_distrib, Nat.xor_mod_two_pow]

/-- The bytes of an exclusive or of blocks. -/
theorem bytesOfBlock_xor (x y : Block) : bytesOfBlock (x ^^^ y) = xorBytes (bytesOfBlock x) (bytesOfBlock y) := by
  rw [bytesOfBlock, BitVec.toNat_xor, beBytes_xor]
  rfl

end Sys2Proof.Machine
end

