-- ==== Sys2Proof/Laws/Sparse.lean ====
section
/-! SUPPORT. The laws of the sparse stores: reading after writing, on every list, and the canonical form kept. -/

namespace Sys2Proof.Machine

variable {α : Type}

theorem sparseGet_erase_same (d : α) (l : List (Nat × α)) (k : Nat) : sparseGet d (sparseErase l k) k = d := by
  induction l with
  | nil => rfl
  | cons e t ih =>
    simp only [sparseErase] at ih ⊢
    by_cases h : e.1 = k <;> simp [h, sparseGet, ih]

theorem sparseGet_erase_other (d : α) (l : List (Nat × α)) {k j : Nat} (hj : j ≠ k) :
    sparseGet d (sparseErase l k) j = sparseGet d l j := by
  induction l with
  | nil => rfl
  | cons e t ih =>
    simp only [sparseErase] at ih ⊢
    by_cases h : e.1 = k
    · have : ¬ k = j := fun h' => hj h'.symm
      simp [h, sparseGet, ih, this]
    · simp [h, sparseGet, ih]

theorem sparseGet_insert_same (d : α) (l : List (Nat × α)) (k : Nat) (v : α) :
    sparseGet d (sparseInsert l k v) k = v := by
  induction l with
  | nil => simp [sparseInsert, sparseGet]
  | cons e t ih =>
    unfold sparseInsert
    split
    · simp [sparseGet]
    · split
      · simp [sparseGet]
      · rename_i h
        simp [sparseGet, ih, Ne.symm h]

theorem sparseGet_insert_other (d : α) (l : List (Nat × α)) {k j : Nat} (v : α) (hj : j ≠ k) :
    sparseGet d (sparseInsert l k v) j = sparseGet d l j := by
  have hk : ¬ k = j := fun h => hj h.symm
  induction l with
  | nil => simp [sparseInsert, sparseGet, hk]
  | cons e t ih =>
    unfold sparseInsert
    split
    · simp [sparseGet, hk]
    · split
      · rename_i h
        simp [sparseGet, ← h, hk]
      · simp [sparseGet, ih]

/-- Reading the key just written. -/
@[simp] theorem sparseGet_set_same [DecidableEq α] (d : α) (l : List (Nat × α)) (k : Nat) (v : α) :
    sparseGet d (sparseSet d l k v) k = v := by
  unfold sparseSet
  split
  · rename_i h
    rw [sparseGet_erase_same, h]
  · exact sparseGet_insert_same d l k v

/-- Reading another key than the one just written. -/
theorem sparseGet_set_other [DecidableEq α] (d : α) (l : List (Nat × α)) {k j : Nat} (v : α) (hj : j ≠ k) :
    sparseGet d (sparseSet d l k v) j = sparseGet d l j := by
  unfold sparseSet
  split
  · exact sparseGet_erase_other d l hj
  · exact sparseGet_insert_other d l v hj

/-- The later of two writes of one key. -/
theorem sparseInsert_insert (l : List (Nat × α)) (k : Nat) (v w : α) :
    sparseInsert (sparseInsert l k v) k w = sparseInsert l k w := by
  induction l with
  | nil => simp [sparseInsert]
  | cons e t ih =>
    by_cases h1 : k < e.1
    · simp [sparseInsert, h1]
    by_cases h2 : k = e.1
    · simp [sparseInsert, h2]
    · simp [sparseInsert, h1, h2, ih]

/-- The same write twice. -/
theorem sparseSet_set [DecidableEq α] (d : α) (l : List (Nat × α)) (k : Nat) (v : α) :
    sparseSet d (sparseSet d l k v) k v = sparseSet d l k v := by
  unfold sparseSet
  split
  · simp [sparseErase]
  · rw [sparseInsert_insert]

theorem mem_sparseInsert {l : List (Nat × α)} {k : Nat} {v : α} {e : Nat × α} (h : e ∈ sparseInsert l k v) :
    e = (k, v) ∨ e ∈ l := by
  induction l with
  | nil => simpa [sparseInsert] using h
  | cons x t ih =>
    unfold sparseInsert at h
    split at h
    · simpa using h
    · split at h
      · rcases List.mem_cons.1 h with h | h
        · exact .inl h
        · exact .inr (List.mem_cons_of_mem _ h)
      · rcases List.mem_cons.1 h with h | h
        · exact .inr (by simp [h])
        · exact (ih h).imp id (List.mem_cons_of_mem _)

/-- Every entry after a write is the written one or was there before. -/
theorem mem_sparseSet [DecidableEq α] {d : α} {l : List (Nat × α)} {k : Nat} {v : α} {e : Nat × α}
    (h : e ∈ sparseSet d l k v) : (e = (k, v) ∧ v ≠ d) ∨ e ∈ l := by
  unfold sparseSet at h
  split at h
  · exact .inr (List.mem_of_mem_filter h)
  · rename_i hv
    exact (mem_sparseInsert h).imp (fun h => ⟨h, hv⟩) id

theorem sparseInsert_pairwise {l : List (Nat × α)} (k : Nat) (v : α) (h : l.Pairwise fun x y => x.1 < y.1) :
    (sparseInsert l k v).Pairwise fun x y => x.1 < y.1 := by
  induction l with
  | nil => simp [sparseInsert]
  | cons x t ih =>
    rw [List.pairwise_cons] at h
    unfold sparseInsert
    split
    · rename_i hk
      refine List.pairwise_cons.2 ⟨fun y hy => ?_, List.pairwise_cons.2 h⟩
      rcases List.mem_cons.1 hy with rfl | hy
      · exact hk
      · exact Nat.lt_trans hk (h.1 y hy)
    · split
      · rename_i hk
        refine List.pairwise_cons.2 ⟨fun y hy => ?_, h.2⟩
        rw [show ((k, v) : Nat × α).1 = x.1 from hk]
        exact h.1 y hy
      · rename_i h1 h2
        refine List.pairwise_cons.2 ⟨fun y hy => ?_, ih h.2⟩
        rcases mem_sparseInsert hy with rfl | hy
        · show x.1 < k
          omega
        · exact h.1 y hy

/-- A write keeps the canonical form. -/
theorem sparseSet_wf [DecidableEq α] {d : α} {l : List (Nat × α)} (k : Nat) (v : α) (h : SparseWf d l) :
    SparseWf d (sparseSet d l k v) := by
  refine ⟨?_, fun e he => ?_⟩
  · unfold sparseSet
    split
    · exact List.Pairwise.filter _ h.1
    · exact sparseInsert_pairwise k v h.1
  · rcases mem_sparseSet he with ⟨rfl, hv⟩ | he
    · exact hv
    · exact h.2 e he

/-- An entry of a canonical store is what a read of its key gives. -/
theorem sparseGet_of_mem {d : α} {l : List (Nat × α)} (h : l.Pairwise fun x y => x.1 < y.1) {e : Nat × α} (he : e ∈ l) :
    sparseGet d l e.1 = e.2 := by
  induction l with
  | nil => simp at he
  | cons x t ih =>
    rw [List.pairwise_cons] at h
    rcases List.mem_cons.1 he with rfl | he
    · simp [sparseGet]
    · have := h.1 e he
      simp only [sparseGet]
      rw [if_neg (by omega)]
      exact ih h.2 he

/-- A key whose value is not the default is listed. -/
theorem mem_of_sparseGet_ne {d : α} {l : List (Nat × α)} {k : Nat} (h : sparseGet d l k ≠ d) :
    (k, sparseGet d l k) ∈ l := by
  induction l with
  | nil => simp [sparseGet] at h
  | cons x t ih =>
    simp only [sparseGet] at h ⊢
    split at h
    · rename_i hk
      subst hk
      rw [if_pos rfl]
      exact List.mem_cons_self
    · rename_i hk
      simp only [if_neg hk]
      exact List.mem_cons_of_mem _ (ih h)

end Sys2Proof.Machine
end

