-- ==== Sys2Proof/Laws/Memory.lean ====
section
/-! SUPPORT. The laws of buffer memory (20_memory.md R60, R61, R68, R69): what a read gives after a write, the canonical form,
and the three laws of `Accessible`. -/

namespace Sys2Proof.Machine

@[simp] theorem memRead_length (m : Memory) (a n : Nat) : (memRead m a n).length = n := by
  induction n generalizing a with
  | zero => rfl
  | succ k ih => simp [memRead, ih]

@[simp] theorem memRead_zero (m : Memory) (a : Nat) : memRead m a 0 = [] := rfl

@[simp] theorem memWrite_nil (m : Memory) (a : Nat) : memWrite m a [] = m := rfl

/-- Byte `i` of `MemRead(a, n)` is `MEM[a + i]` (R60). -/
theorem memRead_getElem? (m : Memory) (a n i : Nat) : (memRead m a n)[i]? = if i < n then some (memByte m (a + i)) else none := by
  induction n generalizing a i with
  | zero => simp [memRead]
  | succ k ih =>
    cases i with
    | zero => simp [memRead]
    | succ j =>
      rw [memRead, List.getElem?_cons_succ, ih]
      simp [Nat.add_assoc, Nat.add_comm 1 j]

/-- Two reads agree where the bytes agree. -/
theorem memRead_congr {m m' : Memory} {a n : Nat} (h : ∀ b, a ≤ b → b < a + n → memByte m b = memByte m' b) :
    memRead m a n = memRead m' a n := by
  apply List.ext_getElem?
  intro i
  simp only [memRead_getElem?]
  split
  · rw [h _ (by omega) (by omega)]
  · rfl

/-- A read of two ranges in one. -/
theorem memRead_add (m : Memory) (a n k : Nat) : memRead m a (n + k) = memRead m a n ++ memRead m (a + n) k := by
  induction n generalizing a with
  | zero => simp
  | succ j ih =>
    rw [show j + 1 + k = (j + k) + 1 by omega, memRead, memRead, ih]
    simp [Nat.add_assoc, Nat.add_comm 1 j]

/-- A read of a part of a range. -/
theorem memRead_sub (m : Memory) {a n i k : Nat} (h : i + k ≤ n) : memRead m (a + i) k = ((memRead m a n).drop i).take k := by
  have e : n = i + (k + (n - i - k)) := by omega
  rw [e, memRead_add, memRead_add, List.drop_left' (memRead_length _ _ _), List.take_left' (memRead_length _ _ _)]

/-- A byte outside the written range reads as before (R69). -/
theorem memByte_memWrite_outside (m : Memory) (a : Nat) (v : List Byte) {b : Nat} (h : b < a ∨ a + v.length ≤ b) :
    memByte (memWrite m a v) b = memByte m b := by
  induction v generalizing m a with
  | nil => rfl
  | cons x t ih =>
    simp only [List.length_cons] at h
    rw [memWrite, ih _ _ (by omega)]
    exact sparseGet_set_other _ _ _ (by omega)

/-- A byte of the written range reads as the byte written (R60). -/
theorem memByte_memWrite_inside (m : Memory) (a : Nat) (v : List Byte) (i : Nat) (h : i < v.length) :
    memByte (memWrite m a v) (a + i) = v[i] := by
  induction v generalizing m a i with
  | nil => simp at h
  | cons x t ih =>
    cases i with
    | zero =>
      rw [memWrite, memByte_memWrite_outside _ _ _ (by omega)]
      exact sparseGet_set_same _ _ _ _
    | succ j =>
      rw [memWrite, show a + (j + 1) = a + 1 + j by omega, ih _ _ _ (by simpa using h)]
      simp

/-- A read of the range just written gives what was written. -/
theorem memRead_memWrite_same (m : Memory) (a : Nat) (v : List Byte) : memRead (memWrite m a v) a v.length = v := by
  apply List.ext_getElem?
  intro i
  rw [memRead_getElem?]
  split
  · rename_i h
    rw [memByte_memWrite_inside _ _ _ _ h, List.getElem?_eq_getElem h]
  · rename_i h
    rw [List.getElem?_eq_none (by omega)]

theorem memRead_memWrite_of_length (m : Memory) (a : Nat) {v : List Byte} {n : Nat} (h : v.length = n) :
    memRead (memWrite m a v) a n = v := h ▸ memRead_memWrite_same m a v

/-- A read of a part of the range just written. -/
theorem memRead_memWrite_sub (m : Memory) (a : Nat) (v : List Byte) {i k : Nat} (h : i + k ≤ v.length) :
    memRead (memWrite m a v) (a + i) k = (v.drop i).take k := by
  rw [memRead_sub _ h, memRead_memWrite_same]

/-- A read beside the written range is not changed. -/
theorem memRead_memWrite_outside (m : Memory) (a : Nat) (v : List Byte) {b n : Nat} (h : b + n ≤ a ∨ a + v.length ≤ b) :
    memRead (memWrite m a v) b n = memRead m b n :=
  memRead_congr fun c h1 h2 => memByte_memWrite_outside m a v (by omega)

/-- Two writes in a row of adjacent ranges are one. -/
theorem memWrite_append (m : Memory) (a : Nat) (v w : List Byte) :
    memWrite m a (v ++ w) = memWrite (memWrite m a v) (a + v.length) w := by
  induction v generalizing m a with
  | nil => rfl
  | cons x t ih =>
    rw [List.cons_append, memWrite, memWrite, ih, List.length_cons, show a + 1 + t.length = a + (t.length + 1) by omega]

/-- A write of existing addresses keeps the canonical form. -/
theorem memWrite_wf {m : Memory} {a : Nat} {v : List Byte} (h : MemoryWf m) (hv : a + v.length ≤ 2 ^ 64) :
    MemoryWf (memWrite m a v) := by
  induction v generalizing m a with
  | nil => exact h
  | cons x t ih =>
    simp only [List.length_cons] at hv
    rw [memWrite]
    refine ih ⟨sparseSet_wf _ _ h.1, fun e he => ?_⟩ (by omega)
    rcases mem_sparseSet he with ⟨rfl, _⟩ | he
    · show a < 2 ^ 64
      omega
    · exact h.2 e he

/-! `Accessible` (R61). -/

@[simp] theorem accessible_zero (p : Platform) (a : Nat) : accessible p a 0 = true := rfl

theorem accessible_iff (p : Platform) (a n : Nat) :
    accessible p a n = true ↔ n = 0 ∨ ∃ r ∈ p.regions, r.base ≤ a ∧ a + n ≤ r.base + r.len ∧ r.base + r.len ≤ 2 ^ 64 := by
  simp [accessible, and_assoc]

/-- An accessible range lies in the address space. -/
theorem accessible_bound {p : Platform} {a n : Nat} (h : accessible p a n = true) : n = 0 ∨ a + n ≤ 2 ^ 64 := by
  rcases (accessible_iff p a n).1 h with h | ⟨r, _, h1, h2, h3⟩
  · exact .inl h
  · exact .inr (by omega)

/-- Every subrange of an accessible range is accessible. -/
theorem accessible_sub {p : Platform} {a n b k : Nat} (h : accessible p a n = true) (h1 : a ≤ b) (h2 : b + k ≤ a + n) :
    accessible p b k = true := by
  rcases (accessible_iff p a n).1 h with h | ⟨r, hr, h3, h4, h5⟩
  · have : k = 0 := by omega
    simp [this]
  · exact (accessible_iff p b k).2 (.inr ⟨r, hr, by omega, by omega, h5⟩)

/-- Buffer memory after reset has its canonical form (R37: nothing is listed). -/
theorem reset_memory_wf : MemoryWf State.reset.mem := by
  simp [State.reset, State.launch, State.afterReset, MemoryWf, SparseWf]

end Sys2Proof.Machine
end

