-- ==== Sys2Proof/Laws/State.lean ====
section
/-! SUPPORT. One lemma per field per update of the state (true by rfl), and what a slot reads as after a write. -/

namespace Sys2Proof.Machine

section finish
variable (s : State) (e : ErrCode) (r : Word64)
@[simp] theorem finish_cmd : (s.finish e r).cmd = s.cmd := rfl
@[simp] theorem finish_args : (s.finish e r).args = s.args := rfl
@[simp] theorem finish_result : (s.finish e r).result = r := rfl
@[simp] theorem finish_err : (s.finish e r).err = errByte e := rfl
@[simp] theorem finish_caps : (s.finish e r).caps = s.caps := rfl
@[simp] theorem finish_sess : (s.finish e r).sess = s.sess := rfl
@[simp] theorem finish_mem : (s.finish e r).mem = s.mem := rfl
@[simp] theorem finish_cfg : (s.finish e r).cfg = s.cfg := rfl
@[simp] theorem finish_cmdStarted : (s.finish e r).cmdStarted = s.cmdStarted := rfl
@[simp] theorem finish_host : (s.finish e r).host = s.host := rfl
@[simp] theorem finish_busReply : (s.finish e r).busReply = s.busReply := rfl
@[simp] theorem finish_slot (h : Nat) : (s.finish e r).slot h = s.slot h := rfl
@[simp] theorem raise_cmd : (s.raise e).cmd = s.cmd := rfl
@[simp] theorem raise_args : (s.raise e).args = s.args := rfl
@[simp] theorem raise_result : (s.raise e).result = 0 := rfl
@[simp] theorem raise_err : (s.raise e).err = errByte e := rfl
@[simp] theorem raise_caps : (s.raise e).caps = s.caps := rfl
@[simp] theorem raise_sess : (s.raise e).sess = s.sess := rfl
@[simp] theorem raise_mem : (s.raise e).mem = s.mem := rfl
@[simp] theorem raise_cfg : (s.raise e).cfg = s.cfg := rfl
@[simp] theorem raise_cmdStarted : (s.raise e).cmdStarted = s.cmdStarted := rfl
@[simp] theorem raise_host : (s.raise e).host = s.host := rfl
@[simp] theorem raise_busReply : (s.raise e).busReply = s.busReply := rfl
@[simp] theorem raise_slot (h : Nat) : (s.raise e).slot h = s.slot h := rfl
end finish

section store
variable (s : State) (a : Nat) (v : List Byte)
@[simp] theorem store_cmd : (s.store a v).cmd = s.cmd := rfl
@[simp] theorem store_args : (s.store a v).args = s.args := rfl
@[simp] theorem store_result : (s.store a v).result = s.result := rfl
@[simp] theorem store_err : (s.store a v).err = s.err := rfl
@[simp] theorem store_caps : (s.store a v).caps = s.caps := rfl
@[simp] theorem store_sess : (s.store a v).sess = s.sess := rfl
@[simp] theorem store_mem : (s.store a v).mem = memWrite s.mem a v := rfl
@[simp] theorem store_cfg : (s.store a v).cfg = s.cfg := rfl
@[simp] theorem store_cmdStarted : (s.store a v).cmdStarted = s.cmdStarted := rfl
@[simp] theorem store_host : (s.store a v).host = s.host := rfl
@[simp] theorem store_busReply : (s.store a v).busReply = s.busReply := rfl
@[simp] theorem store_slot (h : Nat) : (s.store a v).slot h = s.slot h := rfl
end store

section setSlot
variable (s : State) (h : Nat) (x : Slot)
@[simp] theorem setSlot_cmd : (s.setSlot h x).cmd = s.cmd := rfl
@[simp] theorem setSlot_args : (s.setSlot h x).args = s.args := rfl
@[simp] theorem setSlot_result : (s.setSlot h x).result = s.result := rfl
@[simp] theorem setSlot_err : (s.setSlot h x).err = s.err := rfl
@[simp] theorem setSlot_caps : (s.setSlot h x).caps = s.caps := rfl
@[simp] theorem setSlot_sess : (s.setSlot h x).sess = sparseSet Slot.free s.sess h x := rfl
@[simp] theorem setSlot_mem : (s.setSlot h x).mem = s.mem := rfl
@[simp] theorem setSlot_cfg : (s.setSlot h x).cfg = s.cfg := rfl
@[simp] theorem setSlot_cmdStarted : (s.setSlot h x).cmdStarted = s.cmdStarted := rfl
@[simp] theorem setSlot_host : (s.setSlot h x).host = s.host := rfl
@[simp] theorem setSlot_busReply : (s.setSlot h x).busReply = s.busReply := rfl

/-- The slot just written. -/
@[simp] theorem slot_setSlot_same : (s.setSlot h x).slot h = x := sparseGet_set_same _ _ _ _

/-- Another slot than the one just written (R39). -/
theorem slot_setSlot_other {j : Nat} (hj : j ≠ h) : (s.setSlot h x).slot j = s.slot j := sparseGet_set_other _ _ _ hj
end setSlot

section afterReset
variable (s : State)
@[simp] theorem afterReset_cmd : s.afterReset.cmd = 0 := rfl
@[simp] theorem afterReset_args : s.afterReset.args = Args.zero := rfl
@[simp] theorem afterReset_result : s.afterReset.result = 0 := rfl
@[simp] theorem afterReset_err : s.afterReset.err = 0 := rfl
@[simp] theorem afterReset_caps : s.afterReset.caps = capsWord s.cfg.caps := rfl
@[simp] theorem afterReset_sess : s.afterReset.sess = [] := rfl
@[simp] theorem afterReset_mem : s.afterReset.mem = s.mem := rfl
@[simp] theorem afterReset_cfg : s.afterReset.cfg = s.cfg := rfl
@[simp] theorem afterReset_cmdStarted : s.afterReset.cmdStarted = false := rfl
@[simp] theorem afterReset_host : s.afterReset.host = s.host := rfl
@[simp] theorem afterReset_busReply : s.afterReset.busReply = [] := rfl
@[simp] theorem afterReset_slot (h : Nat) : s.afterReset.slot h = Slot.free := rfl
end afterReset

end Sys2Proof.Machine
end

