-- ==== Sys2Proof/Laws/Aead.lean ====
section
/-! SUPPORT. What the AEAD procedures do to a slot (42_aead.md R145 to R157): which fields they leave, how they split over a byte
string, and how many bytes they put out. -/

namespace Sys2Proof.Machine

@[simp] theorem ghashFrom_nil (h y : Block) : ghashFrom h y [] = y := rfl

@[simp] theorem ghashFrom_cons (h y x : Block) (xs : List Block) :
    ghashFrom h y (x :: xs) = ghashFrom h (gfMul (y ^^^ x) h) xs := rfl

theorem ghashFrom_append (h y : Block) (xs ys : List Block) :
    ghashFrom h y (xs ++ ys) = ghashFrom h (ghashFrom h y xs) ys := by
  simp [ghashFrom]

theorem inc32Iter_inc32 (n : Nat) (x : Block) : inc32Iter n (inc32 x) = inc32Iter (n + 1) x := by
  induction n with
  | zero => rfl
  | succ k ih =>
    rw [inc32Iter, ih]
    rfl

theorem inc32Iter_add (n k : Nat) (x : Block) : inc32Iter n (inc32Iter k x) = inc32Iter (n + k) x := by
  induction n with
  | zero => rw [Nat.zero_add, inc32Iter]
  | succ j ih => rw [inc32Iter, ih, show j + 1 + k = (j + k) + 1 by omega, inc32Iter]

/-! AAD (R150). -/

theorem absorbAadByte_shape (x : Slot) (b : Byte) :
    absorbAadByte x b = { x with acc := (absorbAadByte x b).acc, aadBuf := (absorbAadByte x b).aadBuf } := by
  unfold absorbAadByte
  split <;> rfl

theorem absorbAadFold_shape (x : Slot) (a : List Byte) :
    a.foldl absorbAadByte x = { x with acc := (a.foldl absorbAadByte x).acc, aadBuf := (a.foldl absorbAadByte x).aadBuf } := by
  induction a generalizing x with
  | nil => rfl
  | cons b t ih =>
    rw [List.foldl_cons, ih, absorbAadByte_shape]

/-- AAD absorption changes only the accumulator, the AAD buffer and the AAD count (R150). -/
theorem absorbAad_shape (x : Slot) (a : List Byte) :
    absorbAad x a = { x with
      acc := (absorbAad x a).acc, aadBuf := (absorbAad x a).aadBuf, aadCount := x.aadCount + BitVec.ofNat 64 a.length } := by
  unfold absorbAad
  rw [absorbAadFold_shape]

theorem absorbAadByte_aadCount (x : Slot) (b : Byte) (c : Word64) :
    absorbAadByte { x with aadCount := c } b = { absorbAadByte x b with aadCount := c } := by
  by_cases h : (x.aadBuf ++ [b]).length = 16
  · simp only [absorbAadByte, if_pos h]
    rfl
  · simp only [absorbAadByte, if_neg h]

theorem absorbAadFold_aadCount (x : Slot) (a : List Byte) (c : Word64) :
    a.foldl absorbAadByte { x with aadCount := c } = { a.foldl absorbAadByte x with aadCount := c } := by
  induction a generalizing x with
  | nil => rfl
  | cons b t ih => rw [List.foldl_cons, absorbAadByte_aadCount, ih, List.foldl_cons]

/-- AAD in two parts (R155, R166). -/
theorem absorbAad_append (x : Slot) (a b : List Byte) : absorbAad x (a ++ b) = absorbAad (absorbAad x a) b := by
  have h : b.foldl absorbAadByte (absorbAad x a) =
      { b.foldl absorbAadByte (a.foldl absorbAadByte x) with aadCount := (absorbAad x a).aadCount } :=
    absorbAadFold_aadCount _ _ _
  rw [absorbAad, absorbAad, h, List.foldl_append, List.length_append, BitVec.ofNat_add, ← BitVec.add_assoc]
  rfl

/-- AAD with fewer than 16 bytes buffered: whole blocks are folded, the rest stays (R150). -/
theorem absorbAadFold_blocks (x : Slot) (a : List Byte) (hx : x.aadBuf.length < 16) :
    a.foldl absorbAadByte x = { x with
      acc := ghashFrom x.hkey x.acc (blocksOf ((x.aadBuf ++ a).length / 16) (x.aadBuf ++ a)),
      aadBuf := (x.aadBuf ++ a).drop (16 * ((x.aadBuf ++ a).length / 16)) } := by
  induction a generalizing x with
  | nil =>
    have : x.aadBuf.length / 16 = 0 := by omega
    simp [this, blocksOf]
  | cons b t ih =>
    rw [List.foldl_cons]
    by_cases hb : (x.aadBuf ++ [b]).length = 16
    · have e : absorbAadByte x b = { foldBlock x (blockOfBytes (x.aadBuf ++ [b])) with aadBuf := [] } := by
        simp only [absorbAadByte, if_pos hb]
      generalize hy : ({ foldBlock x (blockOfBytes (x.aadBuf ++ [b])) with aadBuf := [] } : Slot) = y at e
      have hyb : y.aadBuf = [] := by rw [← hy]
      rw [e, ih y (by simp [hyb]), hyb, List.nil_append, ← hy]
      have hl : (x.aadBuf ++ b :: t).length / 16 = t.length / 16 + 1 := by
        simp at hb
        rw [List.length_append, List.length_cons]
        omega
      have ha : x.aadBuf ++ b :: t = (x.aadBuf ++ [b]) ++ t := by simp
      have ht : ((x.aadBuf ++ [b]) ++ t).take 16 = x.aadBuf ++ [b] := by
        rw [← hb]
        exact List.take_left
      have hr : ((x.aadBuf ++ [b]) ++ t).drop 16 = t := by
        rw [← hb]
        exact List.drop_left
      rw [hl, ha, blocksOf, ht, hr]
      have hd : ((x.aadBuf ++ [b]) ++ t).drop (16 * (t.length / 16 + 1)) = t.drop (16 * (t.length / 16)) := by
        rw [show 16 * (t.length / 16 + 1) = 16 + 16 * (t.length / 16) by omega, ← List.drop_drop, hr]
      rw [hd]
      unfold foldBlock
      rw [ghashFrom_cons]
    · have e : absorbAadByte x b = { x with aadBuf := x.aadBuf ++ [b] } := by
        simp only [absorbAadByte, if_neg hb]
      generalize hy : ({ x with aadBuf := x.aadBuf ++ [b] } : Slot) = y at e
      have hyb : y.aadBuf = x.aadBuf ++ [b] := by rw [← hy]
      rw [e, ih y (by rw [hyb]; simp at hb ⊢; omega), hyb, List.append_assoc, List.singleton_append, ← hy]

/-! Closing the AAD phase (R151). -/

theorem closeAad_shape (x : Slot) :
    closeAad x = { x with acc := (closeAad x).acc, aadBuf := (closeAad x).aadBuf, phase := .data } := by
  unfold closeAad
  split <;> rfl

/-- Entering the data phase changes only the accumulator, the AAD buffer and the phase (R151). -/
theorem enterData_shape (x : Slot) :
    enterData x = { x with acc := (enterData x).acc, aadBuf := (enterData x).aadBuf, phase := (enterData x).phase } := by
  unfold enterData
  split
  · rw [closeAad_shape]
  · rfl

/-- The data phase is entered once (R151). -/
theorem enterData_of_not_aad {x : Slot} (h : x.phase ≠ .aad) : enterData x = x := by simp [enterData, h]

theorem enterData_phase {x : Slot} (h : x.phase = .aad ∨ x.phase = .data) : (enterData x).phase = .data := by
  rcases h with h | h
  · rw [enterData, if_pos h, closeAad_shape]
  · rw [enterData_of_not_aad (by simp [h]), h]

theorem enterData_aadBuf {x : Slot} (h : x.phase = .aad) : (enterData x).aadBuf = [] := by
  rw [enterData, if_pos h, closeAad]
  split
  · rfl
  · rename_i hl
    show x.aadBuf = []
    exact List.length_eq_zero_iff.1 (by omega)

/-! Data (R152, R153). -/

theorem absorbDataByte_shape (p : Platform) (x : Slot) (b : Byte) :
    (absorbDataByte p x b).1 = { x with
      acc := (absorbDataByte p x b).1.acc, ctr := (absorbDataByte p x b).1.ctr,
      dataCount := (absorbDataByte p x b).1.dataCount, dataBuf := (absorbDataByte p x b).1.dataBuf } := by
  unfold absorbDataByte
  split <;> rfl

/-- Data absorption changes only the accumulator, the counter, the data count and the data buffer (R153). -/
theorem absorbData_shape (p : Platform) (x : Slot) (d : List Byte) :
    (absorbData p x d).1 = { x with
      acc := (absorbData p x d).1.acc, ctr := (absorbData p x d).1.ctr,
      dataCount := (absorbData p x d).1.dataCount, dataBuf := (absorbData p x d).1.dataBuf } := by
  induction d generalizing x with
  | nil => rfl
  | cons b t ih =>
    simp only [absorbData]
    rw [ih, absorbDataByte_shape]

@[simp] theorem absorbData_nil (p : Platform) (x : Slot) : absorbData p x [] = (x, []) := rfl

/-- Data in two parts (R166). -/
theorem absorbData_append (p : Platform) (x : Slot) (d e : List Byte) :
    absorbData p x (d ++ e) =
      ((absorbData p (absorbData p x d).1 e).1, (absorbData p x d).2 ++ (absorbData p (absorbData p x d).1 e).2) := by
  induction d generalizing x with
  | nil => simp
  | cons b t ih =>
    simp only [List.cons_append, absorbData]
    rw [ih]
    simp

/-- The output bytes of data absorption are the bytes the update-size function announces, where fewer than `holdLen`
bytes are buffered (R153). -/
theorem absorbData_length_of_lt (p : Platform) (x : Slot) (d : List Byte) (hx : x.dataBuf.length < holdLen x) :
    (absorbData p x d).2.length = uoSize x d.length ∧
      (absorbData p x d).1.dataBuf.length + uoSize x d.length = x.dataBuf.length + d.length ∧
      (absorbData p x d).1.dataBuf.length < holdLen x := by
  induction d generalizing x with
  | nil =>
    have : uoSize x 0 = 0 := by
      unfold uoSize pending
      unfold holdLen at hx
      cases hd : x.dir <;> simp only [hd] at hx ⊢ <;> omega
    simp [this, hx]
  | cons b t ih =>
    simp only [absorbData, absorbDataByte]
    split
    · rename_i hb
      have hlen : x.dataBuf.length + 1 = holdLen x := by simpa using hb
      have h16 : 16 ≤ holdLen x := by unfold holdLen; split <;> omega
      let y : Slot := { (dataBlock p x (blockOfBytes ((x.dataBuf ++ [b]).take 16))).1 with
        dataBuf := (x.dataBuf ++ [b]).drop 16 }
      have hy : holdLen y = holdLen x := rfl
      have hyb : y.dataBuf.length + 16 = x.dataBuf.length + 1 := by
        show ((x.dataBuf ++ [b]).drop 16).length + 16 = _
        simp; omega
      obtain ⟨i1, i2, i3⟩ := ih y (by omega)
      have hu : uoSize x (t.length + 1) = uoSize y t.length + 16 := by
        have hyd : y.dir = x.dir := rfl
        have hyt : y.tagLen = x.tagLen := rfl
        unfold uoSize pending
        unfold holdLen at hlen h16
        rw [hyd, hyt]
        cases hd : x.dir <;> simp only [hd] at hlen h16 ⊢ <;> omega
      change (bytesOfBlock _ ++ (absorbData p y t).2).length = uoSize x (t.length + 1) ∧
        (absorbData p y t).1.dataBuf.length + uoSize x (t.length + 1) = x.dataBuf.length + (t.length + 1) ∧
        (absorbData p y t).1.dataBuf.length < holdLen y
      rw [List.length_append, bytesOfBlock_length, i1, hu]
      exact ⟨by omega, by omega, i3⟩
    · rename_i hb
      let y : Slot := { x with dataBuf := x.dataBuf ++ [b] }
      have hyb : y.dataBuf.length = x.dataBuf.length + 1 := by
        show (x.dataBuf ++ [b]).length = _
        simp
      have hlt : y.dataBuf.length < holdLen y := by
        have : holdLen y = holdLen x := rfl
        have hne : ¬ x.dataBuf.length + 1 = holdLen x := by simpa using hb
        omega
      obtain ⟨i1, i2, i3⟩ := ih y hlt
      have hu : uoSize x (t.length + 1) = uoSize y t.length := by
        have hyd : y.dir = x.dir := rfl
        have hyt : y.tagLen = x.tagLen := rfl
        unfold uoSize pending
        rw [hyd, hyt]
        rw [hyb, show x.dataBuf.length + 1 + t.length = x.dataBuf.length + (t.length + 1) by omega]
      change (absorbData p y t).2.length = uoSize x (t.length + 1) ∧
        (absorbData p y t).1.dataBuf.length + uoSize x (t.length + 1) = x.dataBuf.length + (t.length + 1) ∧
        (absorbData p y t).1.dataBuf.length < holdLen y
      rw [hu]
      exact ⟨i1, by omega, i3⟩

/-- A slot that already buffers `holdLen` bytes or more puts nothing out (no run reaches such a slot). -/
theorem absorbData_out_of_ge (p : Platform) (x : Slot) (d : List Byte) (hx : holdLen x ≤ x.dataBuf.length) :
    (absorbData p x d).2 = [] := by
  induction d generalizing x with
  | nil => rfl
  | cons b t ih =>
    have hne : ¬ (x.dataBuf ++ [b]).length = holdLen x := by simp; omega
    simp only [absorbData, absorbDataByte, if_neg hne, List.nil_append]
    exact ih _ (by show holdLen x ≤ (x.dataBuf ++ [b]).length; simp; omega)

/-- Data absorption never puts out more than the update-size function announces (R153, R157). -/
theorem absorbData_length_le (p : Platform) (x : Slot) (d : List Byte) : (absorbData p x d).2.length ≤ uoSize x d.length := by
  by_cases hx : x.dataBuf.length < holdLen x
  · exact Nat.le_of_eq (absorbData_length_of_lt p x d hx).1
  · rw [absorbData_out_of_ge p x d (by omega)]
    exact Nat.zero_le _

theorem uoSize_enterData (x : Slot) (n : Nat) : uoSize (enterData x) n = uoSize x n := by
  rw [enterData_shape]
  rfl

/-! The end of a message (R160). -/

theorem finalBlock_shape (p : Platform) (x : Slot) :
    (finalBlock p x).1 = { x with acc := (finalBlock p x).1.acc, dataCount := (finalBlock p x).1.dataCount } := by
  unfold finalBlock
  simp only
  split <;> rfl

theorem finalBlock_length_le (p : Platform) (x : Slot) : (finalBlock p x).2.length ≤ finalLen x := by
  unfold finalBlock
  simp only
  split
  · simp
  · simp

theorem tagBytes_length_le (x : Slot) : (tagBytes x).length ≤ x.tagLen.toNat := by simp [tagBytes]

theorem tagBytes_length {x : Slot} (h : x.tagLen.toNat ≤ 16) : (tagBytes x).length = x.tagLen.toNat := by
  simp [tagBytes, h]

theorem sealTag_shape (p : Platform) (x : Slot) :
    sealTag p x = { x with
      acc := (sealTag p x).acc, tag := (sealTag p x).tag, tagValid := true, dataBuf := [], phase := .final } := by
  unfold sealTag foldBlock
  rfl

end Sys2Proof.Machine
end

