-- ==== Sys2Proof/Laws/Algebra.lean ====
section
/-! SUPPORT. The algebra of 42_aead.md: one step of `GFMul` as multiplication by z (R141), and `inc32` as arithmetic (R142). -/

namespace Sys2Proof.Machine

open Polynomial in
/-- A block as a polynomial: bit `x_i` is the coefficient of z^i (R141). -/
noncomputable def gfPoly (x : Block) : (ZMod 2)[X] :=
  ∑ j ∈ Finset.range 128, if x.getMsbD j then (X : (ZMod 2)[X]) ^ j else 0

open Polynomial in
theorem gfPoly_xor (x y : Block) : gfPoly (x ^^^ y) = gfPoly x + gfPoly y := by
  unfold gfPoly
  rw [← Finset.sum_add_distrib]
  refine Finset.sum_congr rfl fun j _ => ?_
  have h2 : ∀ a : (ZMod 2)[X], a + a = 0 := CharTwo.add_self_eq_zero
  rw [BitVec.getMsbD_xor]
  cases x.getMsbD j <;> cases y.getMsbD j <;> simp [h2]

open Polynomial in
/-- A shift to the right is a multiplication by z that drops z^128 (R141). -/
theorem gfPoly_shift (v : Block) : gfPoly (v >>> 1) + (if v.getLsbD 0 then X ^ 128 else 0) = X * gfPoly v := by
  unfold gfPoly
  rw [Finset.sum_range_succ' _ 127, Finset.sum_range_succ _ 127, mul_add, Finset.mul_sum]
  have h0 : v.getLsbD 0 = v.getMsbD 127 := by simp [BitVec.getMsbD]
  rw [h0]
  simp only [BitVec.getMsbD_ushiftRight]
  have hj : ∀ j ∈ Finset.range 127,
      (if (decide (j + 1 < 128) && (!decide (j + 1 < 1) && v.getMsbD (j + 1 - 1))) = true then (X : (ZMod 2)[X]) ^ (j + 1)
        else 0) = X * (if v.getMsbD j then X ^ j else 0) := by
    intro j hj
    have := Finset.mem_range.1 hj
    rw [show j + 1 - 1 = j by omega, decide_eq_true (show j + 1 < 128 by omega)]
    simp [pow_succ']
  rw [Finset.sum_congr rfl hj]
  cases v.getMsbD 127 <;> simp [pow_succ']

/-- `inc32` n times, on the integer of the block (R142). -/
theorem inc32Iter_toNat (n : Nat) (x : Block) :
    (inc32Iter n x).toNat = x.toNat / 2 ^ 32 * 2 ^ 32 + (x.toNat + n) % 2 ^ 32 := by
  have h1 : ∀ y : Block, (inc32 y).toNat = y.toNat / 2 ^ 32 * 2 ^ 32 + (y.toNat + 1) % 2 ^ 32 := by
    intro y
    unfold inc32
    rw [BitVec.toNat_append, ← Nat.shiftLeft_add_eq_or_of_lt (BitVec.isLt _), BitVec.toNat_add, BitVec.extractLsb'_toNat,
      BitVec.extractLsb'_toNat, Nat.shiftLeft_eq, Nat.shiftRight_eq_div_pow]
    have := y.isLt
    simp
    omega
  induction n with
  | zero =>
    simp [inc32Iter]
    omega
  | succ k ih =>
    rw [inc32Iter, h1, ih]
    omega

/-- The integer of a byte string in two parts (R8). -/
theorem intBe_split (b : List Byte) {n : Nat} :
    intBe (b.take n) = intBe b / 256 ^ (b.length - n) ∧ intBe (b.drop n) = intBe b % 256 ^ (b.length - n) := by
  have hb : intBe b = intBe (b.take n) * 256 ^ (b.length - n) + intBe (b.drop n) := by
    conv_lhs => rw [← List.take_append_drop n b]
    unfold intBe
    rw [List.foldl_append, intBe_foldl, List.length_drop]
    rfl
  have hl : intBe (b.drop n) < 256 ^ (b.length - n) := by
    have := intBe_lt (b.drop n)
    rwa [List.length_drop] at this
  rw [hb, Nat.add_comm, Nat.add_mul_div_right _ _ (by positivity), Nat.div_eq_of_lt hl, Nat.add_mul_mod_self_right,
    Nat.mod_eq_of_lt hl]
  simp

/-- A byte string is its integer and its length (R8). -/
theorem intBe_inj {a b : List Byte} (hl : a.length = b.length) (h : intBe a = intBe b) : a = b := by
  rw [← beBytes_intBe a, ← beBytes_intBe b, hl, h]

end Sys2Proof.Machine
end

