-- ==== Sys2Proof/Laws/Cbc.lean ====
section
/-! SUPPORT. The loop of CBC.PROCESS (41_cbc.md R112): over two lists in a row, block by block, and one direction after the other. -/

namespace Sys2Proof.Machine

theorem cbcEncrypt_append (p : Platform) (k : AesKey) (c : Block) (xs ys : List Block) :
    cbcEncrypt p k c (xs ++ ys) =
      ((cbcEncrypt p k c xs).1 ++ (cbcEncrypt p k (cbcEncrypt p k c xs).2 ys).1,
        (cbcEncrypt p k (cbcEncrypt p k c xs).2 ys).2) := by
  induction xs generalizing c with
  | nil => simp [cbcEncrypt]
  | cons x t ih => simp [cbcEncrypt, ih]

theorem cbcDecrypt_append (p : Platform) (k : AesKey) (c : Block) (xs ys : List Block) :
    cbcDecrypt p k c (xs ++ ys) =
      ((cbcDecrypt p k c xs).1 ++ (cbcDecrypt p k (cbcDecrypt p k c xs).2 ys).1,
        (cbcDecrypt p k (cbcDecrypt p k c xs).2 ys).2) := by
  induction xs generalizing c with
  | nil => simp [cbcDecrypt]
  | cons x t ih => simp [cbcDecrypt, ih]

@[simp] theorem cbcEncrypt_length (p : Platform) (k : AesKey) (c : Block) (xs : List Block) :
    (cbcEncrypt p k c xs).1.length = xs.length := by
  induction xs generalizing c with
  | nil => rfl
  | cons x t ih => simp [cbcEncrypt, ih]

@[simp] theorem cbcDecrypt_length (p : Platform) (k : AesKey) (c : Block) (xs : List Block) :
    (cbcDecrypt p k c xs).1.length = xs.length := by
  induction xs generalizing c with
  | nil => rfl
  | cons x t ih => simp [cbcDecrypt, ih]

@[simp] theorem cbcCrypt_length (p : Platform) (x : Slot) (xs : List Block) : (cbcCrypt p x xs).1.length = xs.length := by
  unfold cbcCrypt
  split
  · exact cbcEncrypt_length ..
  · exact cbcDecrypt_length ..

/-- The chaining value after the first blocks is the last output block, encrypting (R112). -/
theorem cbcEncrypt_getElem (p : Platform) (k : AesKey) (c : Block) (xs : List Block) (j : Nat) (h : j < xs.length) :
    (cbcEncrypt p k c (xs.take (j + 1))).2 = aesEnc p k (xs[j] ^^^ (cbcEncrypt p k c (xs.take j)).2) ∧
      (cbcEncrypt p k c xs).1[j]? = some (cbcEncrypt p k c (xs.take (j + 1))).2 := by
  induction xs generalizing c j with
  | nil => simp at h
  | cons x t ih =>
    cases j with
    | zero => simp [cbcEncrypt]
    | succ j => simpa [cbcEncrypt] using ih (aesEnc p k (x ^^^ c)) j (by simpa using h)

/-- The chaining value after the first blocks is the last input block, decrypting (R112). -/
theorem cbcDecrypt_getElem (p : Platform) (k : AesKey) (c : Block) (xs : List Block) (j : Nat) (h : j < xs.length) :
    (cbcDecrypt p k c (xs.take (j + 1))).2 = xs[j] ∧
      (cbcDecrypt p k c xs).1[j]? = some (aesDec p k xs[j] ^^^ (cbcDecrypt p k c (xs.take j)).2) := by
  induction xs generalizing c j with
  | nil => simp at h
  | cons x t ih =>
    cases j with
    | zero => simp [cbcDecrypt]
    | succ j => simpa [cbcDecrypt] using ih x j (by simpa using h)

/-- Decrypting what was encrypted from the same chaining value (R117, property P1 of R9). -/
theorem cbcDecrypt_cbcEncrypt (p : Platform) (k : AesKey) (c : Block) (xs : List Block) :
    (cbcDecrypt p k c (cbcEncrypt p k c xs).1).1 = xs := by
  induction xs generalizing c with
  | nil => rfl
  | cons x t ih =>
    simp only [cbcEncrypt, cbcDecrypt, aesDec_aesEnc, ih]
    rw [BitVec.xor_assoc, BitVec.xor_self, BitVec.xor_zero]

end Sys2Proof.Machine
end

