-- ==== Sys2Proof/Laws/Ops.lean ====
section
/-! SUPPORT. What the shared operations of a command can do: `Resolve` and the frame of a session command (30_encoding.md R92). -/

namespace Sys2Proof.Machine

/-- What `Resolve` answers, for a command of one mode (R92). -/
theorem resolve_some_iff (s : State) (m : Mode) (h : Handle) (x : Slot) :
    s.resolve (some m) h = some x ↔
      1 ≤ h.toNat ∧ h.toNat ≤ numSessions s.cfg ∧ (s.slot h.toNat).alloc = true ∧ (s.slot h.toNat).mode = m ∧
        x = s.slot h.toNat := by
  unfold State.resolve
  by_cases h0 : h.toNat = 0
  · simp [h0]
  by_cases ha : (s.slot h.toNat).alloc = false
  · simp [ha]
  by_cases hn : numSessions s.cfg < h.toNat
  · have : ¬ h.toNat ≤ numSessions s.cfg := by omega
    simp [hn, this]
  by_cases hm : (s.slot h.toNat).mode = m
  · have h1 : 1 ≤ h.toNat := by omega
    have h2 : h.toNat ≤ numSessions s.cfg := by omega
    simp [h0, ha, hn, hm, h1, h2, eq_comm]
  · have hm' : ¬ m = (s.slot h.toNat).mode := fun h' => hm h'.symm
    simp [h0, ha, hn, hm, hm']

/-- What `Resolve(ANY)` answers (R92). -/
theorem resolve_any_iff (s : State) (h : Handle) (x : Slot) :
    s.resolve none h = some x ↔
      1 ≤ h.toNat ∧ h.toNat ≤ numSessions s.cfg ∧ (s.slot h.toNat).alloc = true ∧ x = s.slot h.toNat := by
  unfold State.resolve
  by_cases h0 : h.toNat = 0
  · simp [h0]
  by_cases ha : (s.slot h.toNat).alloc = false
  · simp [ha]
  by_cases hn : numSessions s.cfg < h.toNat
  · have : ¬ h.toNat ≤ numSessions s.cfg := by omega
    simp [hn, this]
  · have h1 : 1 ≤ h.toNat := by omega
    have h2 : h.toNat ≤ numSessions s.cfg := by omega
    simp [h0, ha, hn, h1, h2, eq_comm]

/-- A resolved handle names an allocated slot of the table (R92). -/
theorem resolve_some {s : State} {m : Option Mode} {h : Handle} {x : Slot} (hr : s.resolve m h = some x) :
    1 ≤ h.toNat ∧ h.toNat ≤ numSessions s.cfg ∧ x.alloc = true ∧ x = s.slot h.toNat := by
  cases m with
  | none =>
    obtain ⟨h1, h2, h3, rfl⟩ := (resolve_any_iff s h x).1 hr
    exact ⟨h1, h2, h3, rfl⟩
  | some m =>
    obtain ⟨h1, h2, h3, _, rfl⟩ := (resolve_some_iff s m h x).1 hr
    exact ⟨h1, h2, h3, rfl⟩

section sessionCommand
variable {op : Op} {m : Option Mode} {h : Handle} {s t : State} {body : Slot → State}

/-- Everything a session command can do. -/
theorem sessionCommand_cases (hs : sessionCommand op m h s body = .next t) :
    (operandsLegal op s.args = false ∧ t = s.raise .illegalCommand) ∨
    (operandsLegal op s.args = true ∧ s.resolve m h = none ∧ t = s.raise .invalidHandle) ∨
    (operandsLegal op s.args = true ∧ ∃ x, s.resolve m h = some x ∧ t = body x) := by
  unfold sessionCommand at hs
  split at hs
  · rename_i hl
    split at hs
    · rename_i x hx
      exact .inr (.inr ⟨hl, x, hx, (Host.Outcome.next.inj hs).symm⟩)
    · rename_i hx
      exact .inr (.inl ⟨hl, hx, (Host.Outcome.next.inj hs).symm⟩)
  · rename_i hl
    exact .inl ⟨by simpa using hl, (Host.Outcome.next.inj hs).symm⟩

/-- A session command that passes `Decode` and `Resolve` runs its own rule. -/
theorem sessionCommand_run {x : Slot} (hl : operandsLegal op s.args = true) (hr : s.resolve m h = some x) :
    sessionCommand op m h s body = .next (body x) := by
  simp [sessionCommand, hl, hr]

theorem sessionCommand_badHandle (hl : operandsLegal op s.args = true) (hr : s.resolve m h = none) :
    sessionCommand op m h s body = .next (s.raise .invalidHandle) := by
  simp [sessionCommand, hl, hr]

theorem sessionCommand_illegal (hl : operandsLegal op s.args = false) :
    sessionCommand op m h s body = .next (s.raise .illegalCommand) := by
  simp [sessionCommand, hl]

end sessionCommand

/-- CREATE's search: the least free handle of the range (R201). -/
theorem firstFree_some_iff (s : State) (n lo h : Nat) :
    firstFree s n lo = some h ↔
      lo ≤ h ∧ h < lo + n ∧ (s.slot h).alloc = false ∧ ∀ j, lo ≤ j → j < h → (s.slot j).alloc = true := by
  induction n generalizing lo with
  | zero => simp [firstFree]; omega
  | succ k ih =>
    unfold firstFree
    split
    · rename_i ha
      rw [ih]
      constructor
      · rintro ⟨h1, h2, h3, h4⟩
        refine ⟨by omega, by omega, h3, fun j hj hjh => ?_⟩
        rcases Nat.eq_or_lt_of_le hj with rfl | hj
        · exact ha
        · exact h4 j hj hjh
      · rintro ⟨h1, h2, h3, h4⟩
        refine ⟨?_, by omega, h3, fun j hj hjh => h4 j (by omega) hjh⟩
        rcases Nat.eq_or_lt_of_le h1 with rfl | h1
        · simp [ha] at h3
        · exact h1
    · rename_i ha
      constructor
      · rintro hh
        obtain rfl := Option.some.inj hh
        exact ⟨Nat.le_refl _, by omega, by simpa using ha, fun j h1 h2 => absurd h1 (by omega)⟩
      · rintro ⟨h1, h2, h3, h4⟩
        rcases Nat.eq_or_lt_of_le h1 with rfl | h1
        · rfl
        · exact absurd (h4 lo (Nat.le_refl _) h1) ha

/-- CREATE's search fails exactly where every slot of the range is allocated (R201). -/
theorem firstFree_none_iff (s : State) (n lo : Nat) :
    firstFree s n lo = none ↔ ∀ j, lo ≤ j → j < lo + n → (s.slot j).alloc = true := by
  induction n generalizing lo with
  | zero => simp [firstFree]; omega
  | succ k ih =>
    unfold firstFree
    split
    · rename_i ha
      rw [ih]
      constructor
      · intro h j h1 h2
        rcases Nat.eq_or_lt_of_le h1 with rfl | h1
        · exact ha
        · exact h j h1 (by omega)
      · exact fun h j h1 h2 => h j (by omega) (by omega)
    · rename_i ha
      constructor
      · intro h
        simp at h
      · exact fun h => absurd (h lo (Nat.le_refl _) (by omega)) ha

/-- The sizes a key may have (R6). -/
theorem keySizeOf_some_iff (n : Nat) (k : KeySize) : keySizeOf n = some k ↔ k ≠ .none ∧ n = keyBytes k := by
  unfold keySizeOf
  split <;> cases k <;> simp_all [keyBytes]

theorem keySizeOf_none_iff (n : Nat) : keySizeOf n = none ↔ n ≠ 16 ∧ n ≠ 24 ∧ n ≠ 32 := by
  unfold keySizeOf
  split <;> simp_all

end Sys2Proof.Machine
end

