-- ==== Sys2Proof/Laws/Commands.lean ====
section
/-! SUPPORT. For each command, everything it can do: the errors that change nothing, or the effect of its rule under the conditions of its
checks; and the same effect from those conditions. -/

namespace Sys2Proof.Machine

section
variable {h : Handle} {s t : State} {x : Slot}

/-- The key length an INIT command accepts (R111, R149). -/
theorem initKeyLen_iff (n : Nat) (k : KeySize) :
    ¬ (keySizeOf n = none ∨ n ≠ keyBytes k) ↔ k ≠ .none ∧ n = keyBytes k := by
  rw [keySizeOf_none_iff]
  constructor
  · intro hn
    cases k <;> simp only [keyBytes] at hn ⊢ <;> simp <;> omega
  · rintro ⟨hk, rfl⟩
    cases k <;> simp_all [keyBytes]

/-- CREATE (R201). -/
theorem execCreate_cases {d : Dir} {m : Mode} (hs : execCreate d m s = .next t) :
    (∃ e, t = s.raise e ∧ e ∈ [ErrCode.illegalCommand, .unsupportedKeySize, .noFreeSession]) ∨
      ∃ k j, keySizeOf s.args.arg0.toNat = some k ∧ firstFree s (numSessions s.cfg) 1 = some j ∧
        t = (s.setSlot j (createdSlot m d k (selectPath s.caps s.cfg.wideOk m k))).finish .ok
          (BitVec.ofNat 64 (pathNumber (selectPath s.caps s.cfg.wideOk m k) * 2 ^ 16 + j)) := by
  unfold execCreate at hs
  split at hs
  · split at hs
    · exact .inl ⟨_, (Host.Outcome.next.inj hs).symm, by simp⟩
    · rename_i k hk
      split at hs
      · exact .inl ⟨_, (Host.Outcome.next.inj hs).symm, by simp⟩
      · rename_i j hj
        exact .inr ⟨k, j, hk, hj, (Host.Outcome.next.inj hs).symm⟩
  · exact .inl ⟨_, (Host.Outcome.next.inj hs).symm, by simp⟩

theorem execCreate_run {d : Dir} {m : Mode} {k : KeySize} {j : Nat} (hk : keySizeOf s.args.arg0.toNat = some k)
    (hj : firstFree s (numSessions s.cfg) 1 = some j) :
    execCreate d m s = .next ((s.setSlot j (createdSlot m d k (selectPath s.caps s.cfg.wideOk m k))).finish .ok
      (BitVec.ofNat 64 (pathNumber (selectPath s.caps s.cfg.wideOk m k) * 2 ^ 16 + j))) := by
  have hl : operandsLegal .create s.args = true := rfl
  have hk' : keySizeOf (getArg s.args .arg0).toNat = some k := hk
  unfold execCreate
  rw [if_pos hl, hk']
  simp only
  rw [hj]

/-- DISPOSE (R202). -/
theorem execDispose_cases (hs : execDispose h s = .next t) :
    (∃ e, t = s.raise e ∧ e ∈ [ErrCode.illegalCommand, .invalidHandle]) ∨
      ∃ x, s.resolve none h = some x ∧ t = (s.setSlot h.toNat Slot.free).finish .ok 0 := by
  rcases sessionCommand_cases hs with ⟨_, rfl⟩ | ⟨_, _, rfl⟩ | ⟨_, x, hx, rfl⟩
  · exact .inl ⟨_, rfl, by simp⟩
  · exact .inl ⟨_, rfl, by simp⟩
  · exact .inr ⟨x, hx, rfl⟩

theorem execDispose_run (hr : s.resolve none h = some x) :
    execDispose h s = .next ((s.setSlot h.toNat Slot.free).finish .ok 0) :=
  sessionCommand_run rfl hr

/-- CBC.INIT (R111). -/
theorem execCbcInit_cases (hs : execCbcInit h s = .next t) :
    (∃ e, t = s.raise e ∧
      e ∈ [ErrCode.illegalCommand, .invalidHandle, .invalidKeySize, .invalidIVLength, .busError]) ∨
      ∃ x, operandsLegal .cbcInit s.args = true ∧ s.resolve (some .cbc) h = some x ∧ x.keySize ≠ .none ∧
        len32 s.args .arg1 = keyBytes x.keySize ∧ len32 s.args .arg3 = 16 ∧
        accessible s.cfg (addrOf s.args .arg0) (len32 s.args .arg1) = true ∧
        accessible s.cfg (addrOf s.args .arg2) 16 = true ∧
        t = (s.setSlot h.toNat
          { x with
            key := keyField (memRead s.mem (addrOf s.args .arg0) (len32 s.args .arg1)),
            iv := blockOfBytes (memRead s.mem (addrOf s.args .arg2) 16),
            chain := blockOfBytes (memRead s.mem (addrOf s.args .arg2) 16), phase := .ready }).finish .ok 0 := by
  rcases sessionCommand_cases hs with ⟨_, rfl⟩ | ⟨_, _, rfl⟩ | ⟨hl, x, hx, rfl⟩
  · exact .inl ⟨_, rfl, by simp⟩
  · exact .inl ⟨_, rfl, by simp⟩
  · simp only
    split
    · exact .inl ⟨_, rfl, by simp⟩
    rename_i h1
    split
    · exact .inl ⟨_, rfl, by simp⟩
    rename_i h2
    split
    · exact .inl ⟨_, rfl, by simp⟩
    rename_i h3
    obtain ⟨k1, k2⟩ := (initKeyLen_iff _ _).1 h1
    simp only [not_or, not_not] at h2 h3
    exact .inr ⟨x, hl, hx, k1, k2, h2, h3.1, h3.2, rfl⟩

theorem execCbcInit_run (hl : operandsLegal .cbcInit s.args = true) (hr : s.resolve (some .cbc) h = some x)
    (hk : x.keySize ≠ .none) (hn : len32 s.args .arg1 = keyBytes x.keySize) (hv : len32 s.args .arg3 = 16)
    (h1 : accessible s.cfg (addrOf s.args .arg0) (len32 s.args .arg1) = true)
    (h2 : accessible s.cfg (addrOf s.args .arg2) 16 = true) :
    execCbcInit h s = .next ((s.setSlot h.toNat
      { x with
        key := keyField (memRead s.mem (addrOf s.args .arg0) (len32 s.args .arg1)),
        iv := blockOfBytes (memRead s.mem (addrOf s.args .arg2) 16),
        chain := blockOfBytes (memRead s.mem (addrOf s.args .arg2) 16), phase := .ready }).finish .ok 0) := by
  refine (sessionCommand_run hl hr).trans (congrArg _ ?_)
  simp only
  rw [if_neg ((initKeyLen_iff _ _).2 ⟨hk, hn⟩), if_neg (by simp [hv]), if_neg (by simp [h1, h2])]

/-- CBC.PROCESS (R112). -/
theorem execCbcProcess_cases (hs : execCbcProcess h s = .next t) :
    (∃ e, t = s.raise e ∧
      e ∈ [ErrCode.illegalCommand, .invalidHandle, .invalidStateTransition, .outputBufferTooShort, .busError]) ∨
      ∃ x, operandsLegal .cbcProcess s.args = true ∧ s.resolve (some .cbc) h = some x ∧ x.phase = .ready ∧
        16 * len32 s.args .arg2 ≤ len32 s.args .arg1 ∧ 16 * len32 s.args .arg2 ≤ len32 s.args .arg4 ∧
        accessible s.cfg (addrOf s.args .arg0) (16 * len32 s.args .arg2) = true ∧
        accessible s.cfg (addrOf s.args .arg3) (16 * len32 s.args .arg2) = true ∧
        ∃ r, r = cbcCrypt s.cfg x
            (blocksOf (len32 s.args .arg2) (memRead s.mem (addrOf s.args .arg0) (16 * len32 s.args .arg2))) ∧
          t = ((s.setSlot h.toNat { x with chain := r.2 }).store (addrOf s.args .arg3) (bytesOfBlocks r.1)).finish .ok
            (BitVec.ofNat 64 (16 * len32 s.args .arg2)) := by
  rcases sessionCommand_cases hs with ⟨_, rfl⟩ | ⟨_, _, rfl⟩ | ⟨hl, x, hx, rfl⟩
  · exact .inl ⟨_, rfl, by simp⟩
  · exact .inl ⟨_, rfl, by simp⟩
  · simp only
    split
    · exact .inl ⟨_, rfl, by simp⟩
    rename_i h1
    split
    · exact .inl ⟨_, rfl, by simp⟩
    rename_i h2
    split
    · exact .inl ⟨_, rfl, by simp⟩
    rename_i h3
    simp only [not_or, not_not, Nat.not_lt] at h1 h2 h3
    exact .inr ⟨x, hl, hx, h1, h2.1, h2.2, h3.1, h3.2, _, rfl, rfl⟩

theorem execCbcProcess_run (hl : operandsLegal .cbcProcess s.args = true) (hr : s.resolve (some .cbc) h = some x)
    (hp : x.phase = .ready) (hi : 16 * len32 s.args .arg2 ≤ len32 s.args .arg1)
    (ho : 16 * len32 s.args .arg2 ≤ len32 s.args .arg4)
    (h1 : accessible s.cfg (addrOf s.args .arg0) (16 * len32 s.args .arg2) = true)
    (h2 : accessible s.cfg (addrOf s.args .arg3) (16 * len32 s.args .arg2) = true) {r : List Block × Block}
    (hc : r = cbcCrypt s.cfg x
      (blocksOf (len32 s.args .arg2) (memRead s.mem (addrOf s.args .arg0) (16 * len32 s.args .arg2)))) :
    execCbcProcess h s =
      .next (((s.setSlot h.toNat { x with chain := r.2 }).store (addrOf s.args .arg3) (bytesOfBlocks r.1)).finish .ok
        (BitVec.ofNat 64 (16 * len32 s.args .arg2))) := by
  refine (sessionCommand_run hl hr).trans (congrArg _ ?_)
  simp only
  rw [if_neg (by simp [hp]), if_neg (by omega), if_neg (by simp [h1, h2]), hc]

/-- CBC.RESET (R113). -/
theorem execCbcReset_cases (hs : execCbcReset h s = .next t) :
    (∃ e, t = s.raise e ∧ e ∈ [ErrCode.illegalCommand, .invalidHandle, .invalidStateTransition]) ∨
      ∃ x, s.resolve (some .cbc) h = some x ∧ x.phase = .ready ∧
        t = (s.setSlot h.toNat { x with chain := x.iv }).finish .ok 0 := by
  rcases sessionCommand_cases hs with ⟨_, rfl⟩ | ⟨_, _, rfl⟩ | ⟨hl, x, hx, rfl⟩
  · exact .inl ⟨_, rfl, by simp⟩
  · exact .inl ⟨_, rfl, by simp⟩
  · split
    · exact .inl ⟨_, rfl, by simp⟩
    rename_i h1
    exact .inr ⟨x, hx, not_not.1 h1, rfl⟩

theorem execCbcReset_run (hr : s.resolve (some .cbc) h = some x) (hp : x.phase = .ready) :
    execCbcReset h s = .next ((s.setSlot h.toNat { x with chain := x.iv }).finish .ok 0) := by
  refine (sessionCommand_run rfl hr).trans (congrArg _ ?_)
  rw [if_neg (by simp [hp])]

/-- GCM.INIT (R149). -/
theorem execGcmInit_cases {d : Dir} (hs : execGcmInit h d s = .next t) :
    (∃ e, t = s.raise e ∧
      e ∈ [ErrCode.illegalCommand, .invalidHandle, .invalidKeySize, .invalidIVLength, .invalidTagLength, .busError]) ∨
      ∃ x, operandsLegal .gcmInit s.args = true ∧ s.resolve (some .aead) h = some x ∧ x.keySize ≠ .none ∧
        len32 s.args .arg1 = keyBytes x.keySize ∧ 0 < len32 s.args .arg3 ∧
        len32 s.args .arg6 % 8 = 0 ∧ 32 ≤ len32 s.args .arg6 ∧ len32 s.args .arg6 ≤ 128 ∧
        accessible s.cfg (addrOf s.args .arg0) (len32 s.args .arg1) = true ∧
        accessible s.cfg (addrOf s.args .arg2) (len32 s.args .arg3) = true ∧
        accessible s.cfg (addrOf s.args .arg4) (len32 s.args .arg5) = true ∧
        t = (s.setSlot h.toNat
          (initSlot s.cfg x d (memRead s.mem (addrOf s.args .arg0) (len32 s.args .arg1))
            (memRead s.mem (addrOf s.args .arg2) (len32 s.args .arg3))
            (memRead s.mem (addrOf s.args .arg4) (len32 s.args .arg5)) (len32 s.args .arg6))).finish .ok 0 := by
  rcases sessionCommand_cases hs with ⟨_, rfl⟩ | ⟨_, _, rfl⟩ | ⟨hl, x, hx, rfl⟩
  · exact .inl ⟨_, rfl, by simp⟩
  · exact .inl ⟨_, rfl, by simp⟩
  · simp only
    split
    · exact .inl ⟨_, rfl, by simp⟩
    rename_i h1
    split
    · exact .inl ⟨_, rfl, by simp⟩
    rename_i h2
    split
    · exact .inl ⟨_, rfl, by simp⟩
    rename_i h3
    split
    · exact .inl ⟨_, rfl, by simp⟩
    rename_i h4
    obtain ⟨k1, k2⟩ := (initKeyLen_iff _ _).1 h1
    simp only [not_or, not_not, Nat.not_lt] at h3 h4
    exact .inr ⟨x, hl, hx, k1, k2, by omega, h3.1, h3.2.1, h3.2.2, h4.1, h4.2.1, h4.2.2, rfl⟩

theorem execGcmInit_run {d : Dir} (hl : operandsLegal .gcmInit s.args = true) (hr : s.resolve (some .aead) h = some x)
    (hk : x.keySize ≠ .none) (hn : len32 s.args .arg1 = keyBytes x.keySize) (hv : 0 < len32 s.args .arg3)
    (ht : len32 s.args .arg6 % 8 = 0) (ht1 : 32 ≤ len32 s.args .arg6) (ht2 : len32 s.args .arg6 ≤ 128)
    (h1 : accessible s.cfg (addrOf s.args .arg0) (len32 s.args .arg1) = true)
    (h2 : accessible s.cfg (addrOf s.args .arg2) (len32 s.args .arg3) = true)
    (h3 : accessible s.cfg (addrOf s.args .arg4) (len32 s.args .arg5) = true) :
    execGcmInit h d s = .next ((s.setSlot h.toNat
      (initSlot s.cfg x d (memRead s.mem (addrOf s.args .arg0) (len32 s.args .arg1))
        (memRead s.mem (addrOf s.args .arg2) (len32 s.args .arg3))
        (memRead s.mem (addrOf s.args .arg4) (len32 s.args .arg5)) (len32 s.args .arg6))).finish .ok 0) := by
  refine (sessionCommand_run hl hr).trans (congrArg _ ?_)
  simp only
  rw [if_neg ((initKeyLen_iff _ _).2 ⟨hk, hn⟩), if_neg (by omega), if_neg (by omega), if_neg (by simp [h1, h2, h3])]

/-- GCM.AADBYTE (R154). -/
theorem execGcmAadByte_cases (hs : execGcmAadByte h s = .next t) :
    (∃ e, t = s.raise e ∧
      e ∈ [ErrCode.illegalCommand, .invalidHandle, .invalidStateTransition, .dataLimitExceeded]) ∨
      ∃ x, operandsLegal .gcmAadByte s.args = true ∧ s.resolve (some .aead) h = some x ∧ x.phase = .aad ∧
        x.aadCount.toNat + 1 ≤ aadMax ∧
        t = (s.setSlot h.toNat (absorbAad x [byte8 s.args])).finish .ok 0 := by
  rcases sessionCommand_cases hs with ⟨_, rfl⟩ | ⟨_, _, rfl⟩ | ⟨hl, x, hx, rfl⟩
  · exact .inl ⟨_, rfl, by simp⟩
  · exact .inl ⟨_, rfl, by simp⟩
  · split
    · exact .inl ⟨_, rfl, by simp⟩
    rename_i h1
    split
    · exact .inl ⟨_, rfl, by simp⟩
    rename_i h2
    exact .inr ⟨x, hl, hx, not_not.1 h1, by omega, rfl⟩

theorem execGcmAadByte_run (hl : operandsLegal .gcmAadByte s.args = true) (hr : s.resolve (some .aead) h = some x)
    (hp : x.phase = .aad) (hc : x.aadCount.toNat + 1 ≤ aadMax) :
    execGcmAadByte h s = .next ((s.setSlot h.toNat (absorbAad x [byte8 s.args])).finish .ok 0) := by
  refine (sessionCommand_run hl hr).trans (congrArg _ ?_)
  rw [if_neg (by simp [hp]), if_neg (by omega)]

/-- GCM.AADBYTES (R155). -/
theorem execGcmAadBytes_cases (hs : execGcmAadBytes h s = .next t) :
    (∃ e, t = s.raise e ∧
      e ∈ [ErrCode.illegalCommand, .invalidHandle, .invalidStateTransition, .dataLimitExceeded, .busError]) ∨
      ∃ x, operandsLegal .gcmAadBytes s.args = true ∧ s.resolve (some .aead) h = some x ∧ x.phase = .aad ∧
        x.aadCount.toNat + len32 s.args .arg1 ≤ aadMax ∧
        accessible s.cfg (addrOf s.args .arg0) (len32 s.args .arg1) = true ∧
        t = (s.setSlot h.toNat
          (absorbAad x (memRead s.mem (addrOf s.args .arg0) (len32 s.args .arg1)))).finish .ok 0 := by
  rcases sessionCommand_cases hs with ⟨_, rfl⟩ | ⟨_, _, rfl⟩ | ⟨hl, x, hx, rfl⟩
  · exact .inl ⟨_, rfl, by simp⟩
  · exact .inl ⟨_, rfl, by simp⟩
  · simp only
    split
    · exact .inl ⟨_, rfl, by simp⟩
    rename_i h1
    split
    · exact .inl ⟨_, rfl, by simp⟩
    rename_i h2
    split
    · exact .inl ⟨_, rfl, by simp⟩
    rename_i h3
    exact .inr ⟨x, hl, hx, not_not.1 h1, by omega, not_not.1 h3, rfl⟩

theorem execGcmAadBytes_run (hl : operandsLegal .gcmAadBytes s.args = true) (hr : s.resolve (some .aead) h = some x)
    (hp : x.phase = .aad) (hc : x.aadCount.toNat + len32 s.args .arg1 ≤ aadMax)
    (h1 : accessible s.cfg (addrOf s.args .arg0) (len32 s.args .arg1) = true) :
    execGcmAadBytes h s = .next ((s.setSlot h.toNat
      (absorbAad x (memRead s.mem (addrOf s.args .arg0) (len32 s.args .arg1)))).finish .ok 0) := by
  refine (sessionCommand_run hl hr).trans (congrArg _ ?_)
  simp only
  rw [if_neg (by simp [hp]), if_neg (by omega), if_neg (by simp [h1])]

/-- The phases that admit data (R140). -/
theorem dataPhase_iff (x : Slot) : ¬ (x.phase ≠ .aad ∧ x.phase ≠ .data) ↔ x.phase = .aad ∨ x.phase = .data := by
  rw [not_and_or, not_not, not_not]

/-- GCM.BYTE (R156). -/
theorem execGcmByte_cases (hs : execGcmByte h s = .next t) :
    (∃ e, t = s.raise e ∧
      e ∈ [ErrCode.illegalCommand, .invalidHandle, .invalidStateTransition, .outputLengthException, .dataLimitExceeded,
        .busError]) ∨
      ∃ x, operandsLegal .gcmByte s.args = true ∧ s.resolve (some .aead) h = some x ∧
        (x.phase = .aad ∨ x.phase = .data) ∧ uoSize x 1 ≤ len32 s.args .arg4 ∧
        x.dataCount.toNat + pending x 1 ≤ dataMax ∧ accessible s.cfg (addrOf s.args .arg3) (uoSize x 1) = true ∧
        ∃ r, r = absorbData s.cfg (enterData x) [byte8 s.args] ∧
          t = ((s.setSlot h.toNat r.1).store (addrOf s.args .arg3) r.2).finish .ok (BitVec.ofNat 64 (uoSize x 1)) := by
  rcases sessionCommand_cases hs with ⟨_, rfl⟩ | ⟨_, _, rfl⟩ | ⟨hl, x, hx, rfl⟩
  · exact .inl ⟨_, rfl, by simp⟩
  · exact .inl ⟨_, rfl, by simp⟩
  · simp only
    split
    · exact .inl ⟨_, rfl, by simp⟩
    rename_i h1
    split
    · exact .inl ⟨_, rfl, by simp⟩
    rename_i h2
    split
    · exact .inl ⟨_, rfl, by simp⟩
    rename_i h3
    split
    · exact .inl ⟨_, rfl, by simp⟩
    rename_i h4
    exact .inr ⟨x, hl, hx, (dataPhase_iff x).1 h1, by omega, by omega, not_not.1 h4, _, rfl, rfl⟩

theorem execGcmByte_run (hl : operandsLegal .gcmByte s.args = true) (hr : s.resolve (some .aead) h = some x)
    (hp : x.phase = .aad ∨ x.phase = .data) (hc : uoSize x 1 ≤ len32 s.args .arg4)
    (hd : x.dataCount.toNat + pending x 1 ≤ dataMax)
    (ha : accessible s.cfg (addrOf s.args .arg3) (uoSize x 1) = true) {r : Slot × List Byte}
    (hr' : r = absorbData s.cfg (enterData x) [byte8 s.args]) :
    execGcmByte h s =
      .next (((s.setSlot h.toNat r.1).store (addrOf s.args .arg3) r.2).finish .ok (BitVec.ofNat 64 (uoSize x 1))) := by
  refine (sessionCommand_run hl hr).trans (congrArg _ ?_)
  simp only
  rw [if_neg ((dataPhase_iff x).2 hp), if_neg (by omega), if_neg (by omega), if_neg (by simp [ha]), hr']

/-- GCM.BYTES (R159). -/
theorem execGcmBytes_cases (hs : execGcmBytes h s = .next t) :
    (∃ e, t = s.raise e ∧
      e ∈ [ErrCode.illegalCommand, .invalidHandle, .invalidStateTransition, .outputLengthException, .dataLimitExceeded,
        .busError]) ∨
      (∃ x, operandsLegal .gcmBytes s.args = true ∧ s.resolve (some .aead) h = some x ∧
        (x.phase = .aad ∨ x.phase = .data) ∧ len32 s.args .arg1 = 0 ∧ t = s.finish .ok 0) ∨
      ∃ x, operandsLegal .gcmBytes s.args = true ∧ s.resolve (some .aead) h = some x ∧
        (x.phase = .aad ∨ x.phase = .data) ∧ 0 < len32 s.args .arg1 ∧
        uoSize x (len32 s.args .arg1) ≤ len32 s.args .arg4 ∧
        x.dataCount.toNat + pending x (len32 s.args .arg1) ≤ dataMax ∧
        accessible s.cfg (addrOf s.args .arg0) (len32 s.args .arg1) = true ∧
        accessible s.cfg (addrOf s.args .arg3) (uoSize x (len32 s.args .arg1)) = true ∧
        ∃ r, r = absorbData s.cfg (enterData x) (memRead s.mem (addrOf s.args .arg0) (len32 s.args .arg1)) ∧
          t = ((s.setSlot h.toNat r.1).store (addrOf s.args .arg3) r.2).finish .ok
            (BitVec.ofNat 64 (uoSize x (len32 s.args .arg1))) := by
  rcases sessionCommand_cases hs with ⟨_, rfl⟩ | ⟨_, _, rfl⟩ | ⟨hl, x, hx, rfl⟩
  · exact .inl ⟨_, rfl, by simp⟩
  · exact .inl ⟨_, rfl, by simp⟩
  · simp only
    split
    · exact .inl ⟨_, rfl, by simp⟩
    rename_i h1
    split
    · rename_i h0
      exact .inr (.inl ⟨x, hl, hx, (dataPhase_iff x).1 h1, h0, rfl⟩)
    rename_i h0
    split
    · exact .inl ⟨_, rfl, by simp⟩
    rename_i h2
    split
    · exact .inl ⟨_, rfl, by simp⟩
    rename_i h3
    split
    · exact .inl ⟨_, rfl, by simp⟩
    rename_i h4
    simp only [not_or, not_not] at h4
    exact .inr (.inr ⟨x, hl, hx, (dataPhase_iff x).1 h1, by omega, by omega, by omega, h4.1, h4.2, _, rfl, rfl⟩)

theorem execGcmBytes_zero (hl : operandsLegal .gcmBytes s.args = true) (hr : s.resolve (some .aead) h = some x)
    (hp : x.phase = .aad ∨ x.phase = .data) (h0 : len32 s.args .arg1 = 0) :
    execGcmBytes h s = .next (s.finish .ok 0) := by
  refine (sessionCommand_run hl hr).trans (congrArg _ ?_)
  simp only
  rw [if_neg ((dataPhase_iff x).2 hp), if_pos h0]

theorem execGcmBytes_run (hl : operandsLegal .gcmBytes s.args = true) (hr : s.resolve (some .aead) h = some x)
    (hp : x.phase = .aad ∨ x.phase = .data) (h0 : 0 < len32 s.args .arg1)
    (hc : uoSize x (len32 s.args .arg1) ≤ len32 s.args .arg4)
    (hd : x.dataCount.toNat + pending x (len32 s.args .arg1) ≤ dataMax)
    (hi : accessible s.cfg (addrOf s.args .arg0) (len32 s.args .arg1) = true)
    (ha : accessible s.cfg (addrOf s.args .arg3) (uoSize x (len32 s.args .arg1)) = true) {r : Slot × List Byte}
    (hr' : r = absorbData s.cfg (enterData x) (memRead s.mem (addrOf s.args .arg0) (len32 s.args .arg1))) :
    execGcmBytes h s =
      .next (((s.setSlot h.toNat r.1).store (addrOf s.args .arg3) r.2).finish .ok
        (BitVec.ofNat 64 (uoSize x (len32 s.args .arg1)))) := by
  refine (sessionCommand_run hl hr).trans (congrArg _ ?_)
  simp only
  rw [if_neg ((dataPhase_iff x).2 hp), if_neg (by omega), if_neg (by omega), if_neg (by omega), if_neg (by simp [hi, ha]), hr']

/-- The bytes GCM.FINAL writes are those GCM.OSIZE announces for no more input (R158, R160). -/
theorem finalOut_encrypt {x : Slot} (hd : x.dir = .encrypt) : finalLen x + x.tagLen.toNat = oSize x 0 := by
  simp [finalLen, oSize, hd]

theorem finalOut_decrypt {x : Slot} (hd : x.dir = .decrypt) : finalLen x = oSize x 0 := by
  simp [finalLen, oSize, hd]

/-- GCM.FINAL (R160, R161). -/
theorem execGcmFinal_cases (hs : execGcmFinal h s = .next t) :
    (∃ e, t = s.raise e ∧
      e ∈ [ErrCode.illegalCommand, .invalidHandle, .invalidStateTransition, .outputLengthException, .busError]) ∨
      ∃ x, operandsLegal .gcmFinal s.args = true ∧ s.resolve (some .aead) h = some x ∧
        (x.phase = .aad ∨ x.phase = .data) ∧
        ((x.dir = .decrypt ∧ x.dataBuf.length < x.tagLen.toNat ∧
            t = (s.setSlot h.toNat
              { enterData x with dataBuf := [], tagValid := false, phase := .final }).finish .authenticationFailure 0) ∨
          (¬ (x.dir = .decrypt ∧ x.dataBuf.length < x.tagLen.toNat) ∧ oSize x 0 ≤ len32 s.args .arg4 ∧
            accessible s.cfg (addrOf s.args .arg3) (oSize x 0) = true ∧
            ∃ r z, r = finalBlock s.cfg (enterData x) ∧ z = sealTag s.cfg r.1 ∧
              ((x.dir = .encrypt ∧
                  t = ((s.setSlot h.toNat z).store (addrOf s.args .arg3) (r.2 ++ tagBytes z)).finish .ok
                    (BitVec.ofNat 64 (oSize x 0))) ∨
                (x.dir = .decrypt ∧
                  t = ((s.setSlot h.toNat z).store (addrOf s.args .arg3) r.2).finish
                    (if tagBytes z = x.dataBuf.drop (finalLen x) then .ok else .authenticationFailure)
                    (BitVec.ofNat 64 (oSize x 0)))))) := by
  rcases sessionCommand_cases hs with ⟨_, rfl⟩ | ⟨_, _, rfl⟩ | ⟨hl, x, hx, rfl⟩
  · exact .inl ⟨_, rfl, by simp⟩
  · exact .inl ⟨_, rfl, by simp⟩
  · simp only
    split
    · exact .inl ⟨_, rfl, by simp⟩
    rename_i h1
    split
    · rename_i h2
      exact .inr ⟨x, hl, hx, (dataPhase_iff x).1 h1, .inl ⟨h2.1, h2.2, rfl⟩⟩
    rename_i h2
    cases hd : x.dir with
    | encrypt =>
      simp only [finalOut_encrypt hd]
      split
      · exact .inl ⟨_, rfl, by simp⟩
      rename_i h3
      split
      · exact .inl ⟨_, rfl, by simp⟩
      rename_i h4
      exact .inr ⟨x, hl, hx, (dataPhase_iff x).1 h1,
        .inr ⟨hd ▸ h2, by omega, not_not.1 h4, _, _, rfl, rfl, .inl ⟨hd, rfl⟩⟩⟩
    | decrypt =>
      simp only [finalOut_decrypt hd]
      split
      · exact .inl ⟨_, rfl, by simp⟩
      rename_i h3
      split
      · exact .inl ⟨_, rfl, by simp⟩
      rename_i h4
      refine .inr ⟨x, hl, hx, (dataPhase_iff x).1 h1,
        .inr ⟨hd ▸ h2, by omega, not_not.1 h4, _, _, rfl, rfl, .inr ⟨hd, ?_⟩⟩⟩
      rw [finalOut_decrypt hd]

theorem execGcmFinal_short (hl : operandsLegal .gcmFinal s.args = true) (hr : s.resolve (some .aead) h = some x)
    (hp : x.phase = .aad ∨ x.phase = .data) (hd : x.dir = .decrypt) (ht : x.dataBuf.length < x.tagLen.toNat) :
    execGcmFinal h s =
      .next ((s.setSlot h.toNat { enterData x with dataBuf := [], tagValid := false, phase := .final }).finish
        .authenticationFailure 0) := by
  refine (sessionCommand_run hl hr).trans (congrArg _ ?_)
  simp only
  rw [if_neg ((dataPhase_iff x).2 hp), if_pos ⟨hd, ht⟩]

theorem execGcmFinal_encrypt (hl : operandsLegal .gcmFinal s.args = true) (hr : s.resolve (some .aead) h = some x)
    (hp : x.phase = .aad ∨ x.phase = .data) (hd : x.dir = .encrypt) (hc : oSize x 0 ≤ len32 s.args .arg4)
    (ha : accessible s.cfg (addrOf s.args .arg3) (oSize x 0) = true) {r : Slot × List Byte} {z : Slot}
    (hr' : r = finalBlock s.cfg (enterData x)) (hz : z = sealTag s.cfg r.1) :
    execGcmFinal h s =
      .next (((s.setSlot h.toNat z).store (addrOf s.args .arg3) (r.2 ++ tagBytes z)).finish .ok
        (BitVec.ofNat 64 (oSize x 0))) := by
  refine (sessionCommand_run hl hr).trans (congrArg _ ?_)
  simp only [hd, finalOut_encrypt hd]
  rw [if_neg ((dataPhase_iff x).2 hp), if_neg (by simp), if_neg (by omega), if_neg (by simp [ha]), hz, hr']

theorem execGcmFinal_decrypt (hl : operandsLegal .gcmFinal s.args = true) (hr : s.resolve (some .aead) h = some x)
    (hp : x.phase = .aad ∨ x.phase = .data) (hd : x.dir = .decrypt) (ht : x.tagLen.toNat ≤ x.dataBuf.length)
    (hc : oSize x 0 ≤ len32 s.args .arg4)
    (ha : accessible s.cfg (addrOf s.args .arg3) (oSize x 0) = true) {r : Slot × List Byte} {z : Slot}
    (hr' : r = finalBlock s.cfg (enterData x)) (hz : z = sealTag s.cfg r.1) :
    execGcmFinal h s =
      .next (((s.setSlot h.toNat z).store (addrOf s.args .arg3) r.2).finish
        (if tagBytes z = x.dataBuf.drop (finalLen x) then .ok else .authenticationFailure)
        (BitVec.ofNat 64 (oSize x 0))) := by
  refine (sessionCommand_run hl hr).trans (congrArg _ ?_)
  simp only [hd, finalOut_decrypt hd]
  rw [if_neg ((dataPhase_iff x).2 hp), if_neg (by omega), if_neg (by omega), if_neg (by simp [ha]), hz, hr']

/-- GCM.UOSIZE (R162). -/
theorem execGcmUosize_cases (hs : execGcmUosize h s = .next t) :
    (∃ e, t = s.raise e ∧ e ∈ [ErrCode.illegalCommand, .invalidHandle, .invalidStateTransition]) ∨
      ∃ x, operandsLegal .gcmUosize s.args = true ∧ s.resolve (some .aead) h = some x ∧ x.phase ≠ .uninit ∧
        t = s.finish .ok (BitVec.ofNat 64 (uoSize x (len32 s.args .arg1))) := by
  rcases sessionCommand_cases hs with ⟨_, rfl⟩ | ⟨_, _, rfl⟩ | ⟨hl, x, hx, rfl⟩
  · exact .inl ⟨_, rfl, by simp⟩
  · exact .inl ⟨_, rfl, by simp⟩
  · split
    · exact .inl ⟨_, rfl, by simp⟩
    · rename_i h1
      exact .inr ⟨x, hl, hx, h1, rfl⟩

theorem execGcmUosize_run (hl : operandsLegal .gcmUosize s.args = true) (hr : s.resolve (some .aead) h = some x)
    (hp : x.phase ≠ .uninit) :
    execGcmUosize h s = .next (s.finish .ok (BitVec.ofNat 64 (uoSize x (len32 s.args .arg1)))) := by
  refine (sessionCommand_run hl hr).trans (congrArg _ ?_)
  rw [if_neg hp]

/-- GCM.OSIZE (R163). -/
theorem execGcmOsize_cases (hs : execGcmOsize h s = .next t) :
    (∃ e, t = s.raise e ∧ e ∈ [ErrCode.illegalCommand, .invalidHandle, .invalidStateTransition]) ∨
      ∃ x, operandsLegal .gcmOsize s.args = true ∧ s.resolve (some .aead) h = some x ∧ x.phase ≠ .uninit ∧
        t = s.finish .ok (BitVec.ofNat 64 (oSize x (len32 s.args .arg1))) := by
  rcases sessionCommand_cases hs with ⟨_, rfl⟩ | ⟨_, _, rfl⟩ | ⟨hl, x, hx, rfl⟩
  · exact .inl ⟨_, rfl, by simp⟩
  · exact .inl ⟨_, rfl, by simp⟩
  · split
    · exact .inl ⟨_, rfl, by simp⟩
    · rename_i h1
      exact .inr ⟨x, hl, hx, h1, rfl⟩

theorem execGcmOsize_run (hl : operandsLegal .gcmOsize s.args = true) (hr : s.resolve (some .aead) h = some x)
    (hp : x.phase ≠ .uninit) :
    execGcmOsize h s = .next (s.finish .ok (BitVec.ofNat 64 (oSize x (len32 s.args .arg1)))) := by
  refine (sessionCommand_run hl hr).trans (congrArg _ ?_)
  rw [if_neg hp]

/-- GCM.MAC (R164). -/
theorem execGcmMac_cases (hs : execGcmMac h s = .next t) :
    (∃ e, t = s.raise e ∧
      e ∈ [ErrCode.illegalCommand, .invalidHandle, .invalidStateTransition, .outputLengthException, .busError]) ∨
      ∃ x, operandsLegal .gcmMac s.args = true ∧ s.resolve (some .aead) h = some x ∧ x.phase = .final ∧
        x.dir = .encrypt ∧ x.tagValid = true ∧ x.tagLen.toNat ≤ len32 s.args .arg4 ∧
        accessible s.cfg (addrOf s.args .arg3) x.tagLen.toNat = true ∧
        t = (s.store (addrOf s.args .arg3) (tagBytes x)).finish .ok (BitVec.ofNat 64 x.tagLen.toNat) := by
  rcases sessionCommand_cases hs with ⟨_, rfl⟩ | ⟨_, _, rfl⟩ | ⟨hl, x, hx, rfl⟩
  · exact .inl ⟨_, rfl, by simp⟩
  · exact .inl ⟨_, rfl, by simp⟩
  · simp only
    split
    · exact .inl ⟨_, rfl, by simp⟩
    rename_i h1
    split
    · exact .inl ⟨_, rfl, by simp⟩
    rename_i h2
    split
    · exact .inl ⟨_, rfl, by simp⟩
    rename_i h3
    simp only [not_or, not_not, Bool.not_eq_false] at h1
    exact .inr ⟨x, hl, hx, h1.1, h1.2.1, h1.2.2, by omega, not_not.1 h3, rfl⟩

theorem execGcmMac_run (hl : operandsLegal .gcmMac s.args = true) (hr : s.resolve (some .aead) h = some x)
    (hp : x.phase = .final) (hd : x.dir = .encrypt) (hv : x.tagValid = true)
    (hc : x.tagLen.toNat ≤ len32 s.args .arg4)
    (ha : accessible s.cfg (addrOf s.args .arg3) x.tagLen.toNat = true) :
    execGcmMac h s =
      .next ((s.store (addrOf s.args .arg3) (tagBytes x)).finish .ok (BitVec.ofNat 64 x.tagLen.toNat)) := by
  refine (sessionCommand_run hl hr).trans (congrArg _ ?_)
  simp only
  rw [if_neg (by simp [hp, hd, hv]), if_neg (by omega), if_neg (by simp [ha])]

/-- GCM.RESET (R165). -/
theorem execGcmReset_cases {keep : Bool} (hs : execGcmReset h keep s = .next t) :
    (∃ e, t = s.raise e ∧
      (e ∈ [ErrCode.illegalCommand, .invalidHandle] ∨ (e = .invalidStateTransition ∧ keep = true))) ∨
      ∃ x, s.resolve (some .aead) h = some x ∧
        ((keep = true ∧ x.phase ≠ .uninit ∧ t = (s.setSlot h.toNat (restartSlot x)).finish .ok 0) ∨
          (keep = false ∧ t = (s.setSlot h.toNat (clearedSlot x)).finish .ok 0)) := by
  rcases sessionCommand_cases hs with ⟨_, rfl⟩ | ⟨_, _, rfl⟩ | ⟨hl, x, hx, rfl⟩
  · exact .inl ⟨_, rfl, by simp⟩
  · exact .inl ⟨_, rfl, by simp⟩
  · cases keep with
    | false => exact .inr ⟨x, hx, .inr ⟨rfl, rfl⟩⟩
    | true =>
      rw [if_pos rfl]
      split
      · exact .inl ⟨_, rfl, by simp⟩
      · rename_i h1
        exact .inr ⟨x, hx, .inl ⟨rfl, h1, rfl⟩⟩

theorem execGcmReset_keep (hr : s.resolve (some .aead) h = some x) (hp : x.phase ≠ .uninit) :
    execGcmReset h true s = .next ((s.setSlot h.toNat (restartSlot x)).finish .ok 0) := by
  refine (sessionCommand_run rfl hr).trans (congrArg _ ?_)
  simp only [if_true]
  rw [if_neg hp]

theorem execGcmReset_drop (hr : s.resolve (some .aead) h = some x) :
    execGcmReset h false s = .next ((s.setSlot h.toNat (clearedSlot x)).finish .ok 0) :=
  sessionCommand_run rfl hr

end

end Sys2Proof.Machine
end

