-- ==== Sys2Proof/Laws/Decode.lean ====
section
/-! SUPPORT. The CMD word and its fields (30_encoding.md R81 to R83, R88): what each field of an encoded word reads as, a word from its
fields, and what a word that decodes looks like. -/

namespace Sys2Proof

theorem extract_self {w : Nat} (x : BitVec w) : x.extractLsb' 0 w = x := by
  ext i hi
  simp

/-- The fields of a word built from fields (R81). -/
theorem cmdWord_fields (op : Op) (d k : Bool) (m : BitVec 2) (h : Handle) :
    opField (cmdWord op d k m h) = op.code ∧ dirField (cmdWord op d k m h) = d ∧ keepField (cmdWord op d k m h) = k ∧
      modeField (cmdWord op d k m h) = m ∧ rsvField (cmdWord op d k m h) = 0 ∧ handleField (cmdWord op d k m h) = h := by
  unfold opField dirField keepField modeField rsvField handleField cmdWord
  generalize op.code = c
  refine ⟨?_, ?_, ?_, ?_, ?_, ?_⟩
  · rw [Machine.extract_append_low _ _ (by omega), extract_self]
  · rw [BitVec.getLsbD_append, BitVec.getLsbD_append]
    simp
  · rw [BitVec.getLsbD_append, BitVec.getLsbD_append, BitVec.getLsbD_append]
    simp
  · iterate 3 rw [Machine.extract_append_high _ _ (by omega)]
    rw [Machine.extract_append_low _ _ (by omega), extract_self]
  · iterate 4 rw [Machine.extract_append_high _ _ (by omega)]
    rw [Machine.extract_append_low _ _ (by omega), extract_self]
    rfl
  · iterate 5 rw [Machine.extract_append_high _ _ (by omega)]
    rw [extract_self]

/-- The fields of a word are all of it (R81). -/
theorem word_ext {v w : Word32} (h1 : opField v = opField w) (h2 : dirField v = dirField w)
    (h3 : keepField v = keepField w) (h4 : modeField v = modeField w) (h5 : rsvField v = rsvField w)
    (h6 : handleField v = handleField w) : v = w := by
  unfold opField dirField keepField modeField rsvField handleField at *
  apply BitVec.eq_of_getLsbD_eq
  intro i hi
  have g : ∀ {a n : Nat}, v.extractLsb' a n = w.extractLsb' a n → a ≤ i → i < a + n → v.getLsbD i = w.getLsbD i := by
    intro a n h ha hb
    have := congrArg (fun x => x.getLsbD (i - a)) h
    simpa [show i - a < n by omega, show a + (i - a) = i by omega] using this
  by_cases c1 : i < 8
  · exact g h1 (by omega) (by omega)
  by_cases c2 : i = 8
  · subst c2
    exact h2
  by_cases c3 : i = 9
  · subst c3
    exact h3
  by_cases c4 : i < 12
  · exact g h4 (by omega) (by omega)
  by_cases c5 : i < 16
  · exact g h5 (by omega) (by omega)
  · exact g h6 (by omega) (by omega)

/-- An opcode's number selects it (R82). -/
theorem opOfByte_code (op : Op) : opOfByte op.code = some op := by cases op <;> rfl

/-- What a number selects has that number (R82). -/
theorem code_of_opOfByte {b : Byte} {op : Op} (h : opOfByte b = some op) : op.code = b := by
  unfold opOfByte at h
  split at h <;> simp at h <;> subst h <;>
    (rename_i hb
     apply BitVec.eq_of_toNat_eq
     rw [hb]
     rfl)

/-- A word whose unused fields are 0 decodes to the command of its opcode and fields (R83, R88). -/
theorem decode_cmdWord (op : Op) (d k : Bool) (m : BitVec 2) (h : Handle) (h1 : d = true → op.usesDir = true)
    (h2 : k = true → op.usesKeep = true) (h3 : m ≠ 0 → op.usesMode = true) (h4 : h ≠ 0 → op.usesHandle = true) :
    decode (cmdWord op d k m h) = buildInstr op (cmdWord op d k m h) := by
  obtain ⟨f1, f2, f3, f4, f5, f6⟩ := cmdWord_fields op d k m h
  unfold decode
  rw [f1, opOfByte_code]
  have : unusedFieldSet op (cmdWord op d k m h) = false := by
    unfold unusedFieldSet
    rw [f2, f3, f4, f6]
    cases d <;> cases k <;> by_cases hm : m = 0 <;> by_cases hh : h = 0 <;> simp_all
  simp only [f5, this]
  simp

theorem bits_of_modeOfBits {m : BitVec 2} {x : Mode} (h : modeOfBits m = some x) : bitsOfMode x = m := by
  unfold modeOfBits at h
  split at h <;> simp at h <;> subst h <;>
    (rename_i hb
     apply BitVec.eq_of_toNat_eq
     rw [hb]
     rfl)

theorem bitOfDir_dirOfBit (b : Bool) : bitOfDir (dirOfBit b) = b := by cases b <;> rfl

/-- What a word that decodes looks like (R87, R88). -/
theorem decode_ok {w : Word32} {i : Instr} (h : decode w = .ok i) :
    opField w = (opOf i).code ∧ rsvField w = 0 ∧ unusedFieldSet (opOf i) w = false ∧ buildInstr (opOf i) w = .ok i := by
  unfold decode at h
  split at h
  · cases h
  · rename_i op ho
    split_ifs at h with h1 h2
    have : opOf i = op := by
      unfold buildInstr at h
      cases op <;> simp only at h <;> (try split at h) <;> cases h <;> rfl
    rw [this]
    exact ⟨(code_of_opOfByte ho).symm, by simpa using h1, by simpa using h2, h⟩

/-- A word of an opcode with its unused fields 0, and MODE 0 or 1, is of the opcode's row of opcode_table.json. -/
theorem cmdWord_row (op : Op) (d k : Bool) (m : BitVec 2) (h : Handle) (h1 : d = true → op.usesDir = true)
    (h2 : k = true → op.usesKeep = true) (h3 : m ≠ 0 → op.usesMode = true) (h3' : m.toNat < 2)
    (h4 : h ≠ 0 → op.usesHandle = true) :
    cmdWord op d k m h &&& Machine.rowMask op = Machine.rowMatch op := by
  obtain ⟨f1, f2, f3, f4, f5, f6⟩ := cmdWord_fields op d k m h
  generalize cmdWord op d k m h = v at *
  have fb : ∀ {a n : Nat} {b : BitVec n} i, v.extractLsb' a n = b → a ≤ i → i < a + n → v.getLsbD i = b.getLsbD (i - a) := by
    intro a n b i h ha hb
    rw [← h, BitVec.getLsbD_extractLsb']
    simp [show i - a < n by omega, show a + (i - a) = i by omega]
  apply BitVec.eq_of_getLsbD_eq
  intro i hi
  rw [BitVec.getLsbD_and]
  cases hm : (Machine.rowMask op).getLsbD i with
  | false =>
    have : (Machine.rowMatch op).getLsbD i = false := by
      clear fb
      revert i
      cases op <;> decide
    simp [this]
  | true =>
    rw [Bool.and_true]
    by_cases c1 : i < 8
    · rw [fb i f1 (by omega) (by omega), Nat.sub_zero]
      clear fb hi hm
      revert i
      cases op <;> decide
    by_cases c2 : i = 8
    · subst c2
      have hu : op.usesDir = false := by
        revert hm
        cases op <;> decide
      have : (Machine.rowMatch op).getLsbD 8 = false := by cases op <;> rfl
      rw [this]
      cases hd' : d with
      | false => rw [hd'] at f2; exact f2
      | true => rw [h1 hd'] at hu; cases hu
    by_cases c3 : i = 9
    · subst c3
      have hu : op.usesKeep = false := by
        revert hm
        cases op <;> decide
      have : (Machine.rowMatch op).getLsbD 9 = false := by cases op <;> rfl
      rw [this]
      cases hd' : k with
      | false => rw [hd'] at f3; exact f3
      | true => rw [h2 hd'] at hu; cases hu
    by_cases c4 : i < 12
    · rw [fb i f4 (by omega) (by omega)]
      have : (Machine.rowMatch op).getLsbD i = false := by
        clear fb hm
        interval_cases i <;> (first | omega | (cases op <;> rfl))
      rw [this]
      obtain hi | hi : i = 10 ∨ i = 11 := by omega
      · subst hi
        have hu : op.usesMode = false := by
          revert hm
          cases op <;> decide
        have : m = 0 := by
          by_contra hc
          rw [h3 hc] at hu
          cases hu
        rw [this]
        rfl
      · subst hi
        clear h3 f4
        revert m
        decide
    by_cases c5 : i < 16
    · rw [fb i f5 (by omega) (by omega)]
      have : (Machine.rowMatch op).getLsbD i = false := by
        clear fb hm
        interval_cases i <;> (first | omega | (cases op <;> rfl))
      rw [this]
      simp
    · have hu : op.usesHandle = false := by
        clear fb
        revert hm
        interval_cases i <;> (first | omega | (cases op <;> decide))
      have : h = 0 := by
        by_contra hc
        rw [h4 hc] at hu
        cases hu
      rw [fb i f6 (by omega) (by omega), this]
      have : (Machine.rowMatch op).getLsbD i = false := by
        clear fb hm
        interval_cases i <;> (first | omega | (cases op <;> rfl))
      rw [this]
      simp

end Sys2Proof
end

