-- ==== Sys2Proof/Laws/Exec.lean ====
section
/-! SUPPORT. What every command can do, in one lemma: an error that changes nothing, or a `finish` after at most one slot write and one
write of the output range. -/

namespace Sys2Proof.Machine

/-- The slot a command writes: the slot of its handle, or a free slot of the table for CREATE. -/
def WritesSlot (i : Instr) (s : State) (j : Nat) : Prop :=
  (∃ h, handleOf i = some h ∧ j = h.toNat ∧ 1 ≤ j ∧ j ≤ numSessions s.cfg ∧ (s.slot j).alloc = true) ∨
    ((∃ d m, i = .create d m) ∧ (s.slot j).alloc = false ∧ 1 ≤ j ∧ j ≤ numSessions s.cfg)

/-- An output of a command: at most the bytes RESULT counts, at `x[ARG3]`, in an accessible range. -/
def WritesRange (i : Instr) (s : State) (v : List Byte) (r : Word64) : Prop :=
  writesOutput i = true ∧ v.length ≤ r.toNat ∧ accessible s.cfg (addrOf s.args .arg3) r.toNat = true

/-- What a command that ends in OK or AuthenticationFailure does. -/
inductive Effect (i : Instr) (s : State) (e : ErrCode) (r : Word64) : State → Prop
  | query : writesOutput i = false ∨ r = 0 → Effect i s e r (s.finish e r)
  | slot (j : Nat) (y : Slot) : WritesSlot i s j → y = Slot.free ∨ y.alloc = true → writesOutput i = false ∨ r = 0 → Effect i s e r ((s.setSlot j y).finish e r)
  | mem (v : List Byte) : WritesRange i s v r → Effect i s e r ((s.store (addrOf s.args .arg3) v).finish e r)
  | both (j : Nat) (y : Slot) (v : List Byte) : WritesSlot i s j → y.alloc = true → WritesRange i s v r →
      Effect i s e r (((s.setSlot j y).store (addrOf s.args .arg3) v).finish e r)

theorem toNat_ofNat_of_lt {n : Nat} (h : n < 2 ^ 32) : (BitVec.ofNat 64 n).toNat = n := by
  rw [BitVec.toNat_ofNat]
  exact Nat.mod_eq_of_lt (by omega)

theorem len32_lt (a : Args) (r : ArgReg) : len32 a r < 2 ^ 32 := ((getArg a r).extractLsb' 0 32).isLt

theorem enterData_tagLen (x : Slot) : (enterData x).tagLen = x.tagLen := by rw [enterData_shape]
theorem enterData_dir (x : Slot) : (enterData x).dir = x.dir := by rw [enterData_shape]
theorem enterData_dataBuf (x : Slot) : (enterData x).dataBuf = x.dataBuf := by rw [enterData_shape]

theorem finalLen_enterData (x : Slot) : finalLen (enterData x) = finalLen x := by
  unfold finalLen
  rw [enterData_dir, enterData_dataBuf, enterData_tagLen]

theorem sealTag_tagLen (p : Platform) (x : Slot) : (sealTag p x).tagLen = x.tagLen := by rw [sealTag_shape]

theorem finalBlock_tagLen (p : Platform) (x : Slot) : (finalBlock p x).1.tagLen = x.tagLen := by rw [finalBlock_shape]

theorem absorbAad_alloc (x : Slot) (a : List Byte) : (absorbAad x a).alloc = x.alloc := by rw [absorbAad_shape]

theorem enterData_alloc (x : Slot) : (enterData x).alloc = x.alloc := by rw [enterData_shape]

theorem absorbData_alloc (p : Platform) (x : Slot) (d : List Byte) : (absorbData p x d).1.alloc = x.alloc := by
  rw [absorbData_shape]

theorem finalBlock_alloc (p : Platform) (x : Slot) : (finalBlock p x).1.alloc = x.alloc := by rw [finalBlock_shape]

theorem sealTag_alloc (p : Platform) (x : Slot) : (sealTag p x).alloc = x.alloc := by rw [sealTag_shape]

theorem initSlot_alloc (p : Platform) (x : Slot) (d : Dir) (k n a : List Byte) (b : Nat) :
    (initSlot p x d k n a b).alloc = x.alloc := by
  unfold initSlot
  simp only [absorbAad_alloc]

/-- Everything a command can do. -/
theorem exec_cases {i : Instr} {s t : State} (hs : exec i s = .next t) :
    (∃ e, t = s.raise e ∧ e ≠ .ok ∧ e ≠ .authenticationFailure ∧ raisedBy e (opOf i) = true) ∨
      ∃ e r, (e = .ok ∨ opOf i = .gcmFinal ∧ e = .authenticationFailure) ∧ Effect i s e r t := by
  have hraise : ∀ (l : List ErrCode), (∀ e ∈ l, e ≠ .ok ∧ e ≠ .authenticationFailure ∧ raisedBy e (opOf i) = true) →
      (∃ e, t = s.raise e ∧ e ∈ l) →
      ∃ e, t = s.raise e ∧ e ≠ .ok ∧ e ≠ .authenticationFailure ∧ raisedBy e (opOf i) = true := by
    rintro l hl ⟨e, rfl, he⟩
    exact ⟨e, rfl, hl e he⟩
  have hslot : ∀ {m : Option Mode} {h : Handle} {x : Slot}, handleOf i = some h → s.resolve m h = some x →
      WritesSlot i s h.toNat := by
    intro m h x hi hr
    obtain ⟨h1, h2, h3, rfl⟩ := resolve_some hr
    exact .inl ⟨h, hi, rfl, h1, h2, h3⟩
  have hal : ∀ {m : Option Mode} {h : Handle} {x : Slot}, s.resolve m h = some x → x.alloc = true := fun hr =>
    (resolve_some hr).2.2.1
  cases i with
  | caps =>
    obtain rfl := Host.Outcome.next.inj hs
    exact .inr ⟨_, _, .inl rfl, .query (.inl rfl)⟩
  | blksz =>
    obtain rfl := Host.Outcome.next.inj hs
    exact .inr ⟨_, _, .inl rfl, .query (.inl rfl)⟩
  | create d m =>
    rcases execCreate_cases hs with h | ⟨k, j, hk, hj, rfl⟩
    · exact .inl (hraise _ (by simp only [opOf]; decide) h)
    · obtain ⟨h1, h2, h3, _⟩ := (firstFree_some_iff _ _ _ _).1 hj
      exact .inr ⟨_, _, .inl rfl, .slot _ _ (.inr ⟨⟨d, m, rfl⟩, h3, h1, by omega⟩) (.inr rfl) (.inl rfl)⟩
  | dispose h =>
    rcases execDispose_cases hs with h | ⟨x, hx, rfl⟩
    · exact .inl (hraise _ (by simp only [opOf]; decide) h)
    · exact .inr ⟨_, _, .inl rfl, .slot _ _ (hslot rfl hx) (.inl rfl) (.inl rfl)⟩
  | cbcInit h =>
    rcases execCbcInit_cases hs with h | ⟨x, _, hx, _, _, _, _, _, rfl⟩
    · exact .inl (hraise _ (by simp only [opOf]; decide) h)
    · exact .inr ⟨_, _, .inl rfl, .slot _ _ (hslot rfl hx) (.inr (show x.alloc = true from hal hx)) (.inl rfl)⟩
  | cbcProcess h =>
    rcases execCbcProcess_cases hs with h | ⟨x, _, hx, _, h1, h2, _, h4, r, hr, rfl⟩
    · exact .inl (hraise _ (by simp only [opOf]; decide) h)
    · have hn := toNat_ofNat_of_lt (n := 16 * len32 s.args .arg2) (by have := len32_lt s.args .arg4; omega)
      refine .inr ⟨_, _, .inl rfl, .both _ _ _ (hslot rfl hx) (show x.alloc = true from hal hx) ⟨rfl, ?_, by rw [hn]; exact h4⟩⟩
      rw [hn, bytesOfBlocks_length, hr, cbcCrypt_length, blocksOf_length]
  | cbcReset h =>
    rcases execCbcReset_cases hs with h | ⟨x, hx, _, rfl⟩
    · exact .inl (hraise _ (by simp only [opOf]; decide) h)
    · exact .inr ⟨_, _, .inl rfl, .slot _ _ (hslot rfl hx) (.inr (show x.alloc = true from hal hx)) (.inl rfl)⟩
  | gcmInit h d =>
    rcases execGcmInit_cases hs with h | ⟨x, _, hx, _, _, _, _, _, _, _, _, _, rfl⟩
    · exact .inl (hraise _ (by simp only [opOf]; decide) h)
    · exact .inr ⟨_, _, .inl rfl, .slot _ _ (hslot rfl hx) (.inr ((initSlot_alloc ..).trans (hal hx))) (.inl rfl)⟩
  | gcmAadByte h =>
    rcases execGcmAadByte_cases hs with h | ⟨x, _, hx, _, _, rfl⟩
    · exact .inl (hraise _ (by simp only [opOf]; decide) h)
    · exact .inr ⟨_, _, .inl rfl, .slot _ _ (hslot rfl hx) (.inr ((absorbAad_alloc ..).trans (hal hx))) (.inl rfl)⟩
  | gcmAadBytes h =>
    rcases execGcmAadBytes_cases hs with h | ⟨x, _, hx, _, _, _, rfl⟩
    · exact .inl (hraise _ (by simp only [opOf]; decide) h)
    · exact .inr ⟨_, _, .inl rfl, .slot _ _ (hslot rfl hx) (.inr ((absorbAad_alloc ..).trans (hal hx))) (.inl rfl)⟩
  | gcmByte h =>
    rcases execGcmByte_cases hs with h | ⟨x, _, hx, _, h1, _, h3, r, hr, rfl⟩
    · exact .inl (hraise _ (by simp only [opOf]; decide) h)
    · have hn := toNat_ofNat_of_lt (n := uoSize x 1) (by have := len32_lt s.args .arg4; omega)
      refine .inr ⟨_, _, .inl rfl, .both _ _ _ (hslot rfl hx) (by rw [hr, absorbData_alloc, enterData_alloc, hal hx]) ⟨rfl, ?_, by rw [hn]; exact h3⟩⟩
      rw [hn, hr, ← uoSize_enterData]
      exact absorbData_length_le _ _ _
  | gcmBytes h =>
    rcases execGcmBytes_cases hs with h | ⟨x, _, hx, _, _, rfl⟩ | ⟨x, _, hx, _, _, h1, _, _, h3, r, hr, rfl⟩
    · exact .inl (hraise _ (by simp only [opOf]; decide) h)
    · exact .inr ⟨_, _, .inl rfl, .query (.inr rfl)⟩
    · have hn := toNat_ofNat_of_lt (n := uoSize x (len32 s.args .arg1)) (by have := len32_lt s.args .arg4; omega)
      refine .inr ⟨_, _, .inl rfl, .both _ _ _ (hslot rfl hx) (by rw [hr, absorbData_alloc, enterData_alloc, hal hx]) ⟨rfl, ?_, by rw [hn]; exact h3⟩⟩
      rw [hn, hr, ← uoSize_enterData]
      exact (absorbData_length_le _ _ _).trans (by rw [memRead_length])
  | gcmFinal h =>
    rcases execGcmFinal_cases hs with h | ⟨x, _, hx, _, ⟨hd, _, rfl⟩ | ⟨hsh, h1, h2, r, z, hr, hz, h3⟩⟩
    · exact .inl (hraise _ (by simp only [opOf]; decide) h)
    · exact .inr ⟨_, _, .inr ⟨rfl, rfl⟩, .slot _ _ (hslot rfl hx) (.inr ((enterData_alloc x).trans (hal hx))) (.inr rfl)⟩
    · have hn := toNat_ofNat_of_lt (n := oSize x 0) (by have := len32_lt s.args .arg4; omega)
      have hl : r.2.length ≤ finalLen x := by
        rw [hr, ← finalLen_enterData]
        exact finalBlock_length_le _ _
      rcases h3 with ⟨hd, rfl⟩ | ⟨hd, rfl⟩
      · refine .inr ⟨_, _, .inl rfl, .both _ _ _ (hslot rfl hx) (by rw [hz, sealTag_alloc, hr, finalBlock_alloc, enterData_alloc, hal hx]) ⟨rfl, ?_, by rw [hn]; exact h2⟩⟩
        have ht := tagBytes_length_le z
        have hzt : z.tagLen = x.tagLen := by rw [hz, sealTag_tagLen, hr, finalBlock_tagLen, enterData_tagLen]
        rw [hzt] at ht
        rw [hn, List.length_append, ← finalOut_encrypt hd]
        omega
      · refine .inr ⟨_, _, ?_, .both _ _ _ (hslot rfl hx) (by rw [hz, sealTag_alloc, hr, finalBlock_alloc, enterData_alloc, hal hx]) ⟨rfl, ?_, by rw [hn]; exact h2⟩⟩
        · split
          · exact .inl rfl
          · exact .inr ⟨rfl, rfl⟩
        · rw [hn, ← finalOut_decrypt hd]
          exact hl
  | gcmUosize h =>
    rcases execGcmUosize_cases hs with h | ⟨x, _, hx, _, rfl⟩
    · exact .inl (hraise _ (by simp only [opOf]; decide) h)
    · exact .inr ⟨_, _, .inl rfl, .query (.inl rfl)⟩
  | gcmOsize h =>
    rcases execGcmOsize_cases hs with h | ⟨x, _, hx, _, rfl⟩
    · exact .inl (hraise _ (by simp only [opOf]; decide) h)
    · exact .inr ⟨_, _, .inl rfl, .query (.inl rfl)⟩
  | gcmMac h =>
    rcases execGcmMac_cases hs with h | ⟨x, _, hx, _, _, _, h1, h2, rfl⟩
    · exact .inl (hraise _ (by simp only [opOf]; decide) h)
    · have hn := toNat_ofNat_of_lt (n := x.tagLen.toNat) (by have := len32_lt s.args .arg4; omega)
      refine .inr ⟨_, _, .inl rfl, .mem _ ⟨rfl, ?_, by rw [hn]; exact h2⟩⟩
      rw [hn]
      exact tagBytes_length_le x
  | gcmReset h keep =>
    rcases execGcmReset_cases hs with ⟨e, rfl, he⟩ | ⟨x, hx, ⟨_, _, rfl⟩ | ⟨_, rfl⟩⟩
    · refine .inl ⟨e, rfl, ?_⟩
      simp only [List.mem_cons, List.not_mem_nil, or_false] at he
      rcases he with (rfl | rfl) | ⟨rfl, _⟩ <;> (simp only [opOf]; decide)
    · exact .inr ⟨_, _, .inl rfl, .slot _ _ (hslot rfl hx) (.inr (show x.alloc = true from hal hx)) (.inl rfl)⟩
    · exact .inr ⟨_, _, .inl rfl, .slot _ _ (hslot rfl hx) (.inr (show x.alloc = true from hal hx)) (.inl rfl)⟩

/-- The outcomes have different numbers (R221). -/
theorem errByte_inj {e f : ErrCode} (h : errByte e = errByte f) : e = f := by
  cases e <;> cases f <;> first | rfl | (exfalso; revert h; decide)

/-- What `finish` leaves (R220). -/
theorem Effect.err {i s e r t} (h : Effect i s e r t) : t.err = errByte e ∧ t.result = r := by
  cases h <;> exact ⟨rfl, rfl⟩

/-- The registers a command does not write (R220). -/
theorem Effect.kept {i s e r t} (h : Effect i s e r t) : RegistersKept s t := by
  cases h <;> exact ⟨rfl, rfl, rfl, rfl, rfl, rfl, rfl⟩

/-- One slot at most is written (R39). -/
theorem Effect.slots {i s e r t} (h : Effect i s e r t) : SlotsKept s t ∨ ∃ j, WritesSlot i s j ∧ OtherSlotsKept j s t := by
  cases h with
  | query => exact .inl fun _ => rfl
  | mem => exact .inl fun _ => rfl
  | slot j y hj => exact .inr ⟨j, hj, fun k hk => slot_setSlot_other _ _ _ hk⟩
  | both j y v hj => exact .inr ⟨j, hj, fun k hk => slot_setSlot_other _ _ _ hk⟩

/-- The output range is all that is written (R69). -/
theorem Effect.memory {i s e r t} (h : Effect i s e r t) : MemoryKept s t ∧ (writesOutput i = false ∨ t.result = 0) ∨
    writesOutput i = true ∧ MemoryKeptOutside (addrOf s.args .arg3) t.result.toNat s t ∧
      accessible s.cfg (addrOf s.args .arg3) t.result.toNat = true := by
  cases h with
  | query h => exact .inl ⟨fun _ => rfl, h⟩
  | slot _ _ _ _ h => exact .inl ⟨fun _ => rfl, h⟩
  | mem v hv => exact .inr ⟨hv.1, fun b hb => memByte_memWrite_outside _ _ _ (hb.imp id (fun h => by have := hv.2.1; simp at h; omega)), hv.2.2⟩
  | both _ _ v _ _ hv => exact .inr ⟨hv.1, fun b hb => memByte_memWrite_outside _ _ _ (hb.imp id (fun h => by have := hv.2.1; simp at h; omega)), hv.2.2⟩

/-- An operand out of range (R85, R86). -/
theorem exec_illegal {i : Instr} {s : State} (hl : operandsLegal (opOf i) s.args = false) :
    exec i s = .next (s.raise .illegalCommand) := by
  cases i
  case caps => cases hl
  case blksz => cases hl
  case create d m => cases hl
  all_goals exact sessionCommand_illegal hl

/-- Handles that name no session of the mode (R92). -/
theorem resolve_none_of_bad {s : State} {m : Option Mode} {h : Handle}
   (hb : h = 0 ∨ numSessions s.cfg < h.toNat ∨ (s.slot h.toNat).alloc = false ∨ ∃ m', m = some m' ∧ (s.slot h.toNat).mode ≠ m') :
   s.resolve m h = none := by
  cases hr : s.resolve m h with
  | none => rfl
  | some x =>
    exfalso
    obtain ⟨h1, h2, h3, rfl⟩ := resolve_some hr
    rcases hb with rfl | hb | hb | ⟨m', rfl, hb⟩
    · simp at h1
    · omega
    · rw [h3] at hb; cases hb
    · exact hb ((resolve_some_iff _ _ _ _).1 hr).2.2.2.1

end Sys2Proof.Machine
end

