-- ==== Sys2Proof/Laws/Gctr.lean ====
section
/-! SUPPORT. The AEAD procedures in closed form (42_aead.md R150 to R153, R160): a whole string at once, in terms of counter mode and
of the hash over a list of blocks. -/

namespace Sys2Proof.Machine

/-! Counter mode. -/

theorem keystream_succ (p : Platform) (k : AesKey) (ctr : Block) (n : Nat) :
    keystream p k ctr (n + 1) = bytesOfBlock (aesEnc p k ctr) ++ keystream p k (inc32 ctr) n := by
  unfold keystream
  rw [List.range_succ_eq_map, List.map_cons, List.map_map, bytesOfBlocks_cons]
  congr 2
  refine List.map_congr_left fun j _ => ?_
  simp only [Function.comp]
  rw [inc32Iter_inc32]

@[simp] theorem keystream_length (p : Platform) (k : AesKey) (ctr : Block) (n : Nat) :
    (keystream p k ctr n).length = 16 * n := by
  simp [keystream]

@[simp] theorem gctr_nil (p : Platform) (k : AesKey) (ctr : Block) : gctr p k ctr [] = [] := by simp [gctr, xorBytes]

@[simp] theorem gctr_length (p : Platform) (k : AesKey) (ctr : Block) (d : List Byte) :
    (gctr p k ctr d).length = d.length := by
  simp [gctr]
  omega

theorem xorBytes_append {a b c d : List Byte} (h : a.length = c.length) :
    xorBytes (a ++ b) (c ++ d) = xorBytes a c ++ xorBytes b d := by
  unfold xorBytes
  exact List.zipWith_append h

/-- Counter mode block by block (R152). -/
theorem gctr_block (p : Platform) (k : AesKey) (ctr : Block) {c : List Byte} (e : List Byte) (h : c.length = 16) :
    gctr p k ctr (c ++ e) = bytesOfBlock (blockOfBytes c ^^^ aesEnc p k ctr) ++ gctr p k (inc32 ctr) e := by
  unfold gctr
  have hl : ((c ++ e).length + 15) / 16 = (e.length + 15) / 16 + 1 := by
    rw [List.length_append]
    omega
  rw [hl, keystream_succ, xorBytes_append (by simp [h]), bytesOfBlock_xor, bytesOfBlock_blockOfBytes h]

/-- Counter mode in two parts, the first of whole blocks (R152, R166). -/
theorem gctr_append (p : Platform) (k : AesKey) (ctr : Block) {n : Nat} {a : List Byte} (b : List Byte)
    (h : a.length = 16 * n) : gctr p k ctr (a ++ b) = gctr p k ctr a ++ gctr p k (inc32Iter n ctr) b := by
  induction n generalizing a ctr with
  | zero =>
    obtain rfl := List.length_eq_zero_iff.1 h
    simp [inc32Iter]
  | succ n ih =>
    have ha : a = a.take 16 ++ a.drop 16 := (List.take_append_drop 16 a).symm
    have h1 : (a.take 16).length = 16 := by
      rw [List.length_take]
      omega
    rw [ha, List.append_assoc, gctr_block _ _ _ _ h1, gctr_block _ _ _ _ h1,
      ih (inc32 ctr) (by rw [List.length_drop]; omega), List.append_assoc, inc32Iter_inc32]

/-- Counter mode is its own inverse (R152). -/
theorem gctr_gctr (p : Platform) (k : AesKey) (ctr : Block) (d : List Byte) : gctr p k ctr (gctr p k ctr d) = d := by
  have h : (gctr p k ctr d).length = d.length := gctr_length ..
  unfold gctr at h ⊢
  rw [h]
  exact xorBytes_cancel (by simp; omega)

/-- Counter mode over less than two blocks (R160). -/
theorem gctr_short (p : Platform) (k : AesKey) (ctr : Block) {d : List Byte} (h : d.length ≤ 16) :
    gctr p k ctr d = xorBytes d (bytesOfBlock (aesEnc p k ctr)) := by
  unfold gctr
  rcases Nat.eq_zero_or_pos d.length with h0 | h0
  · obtain rfl := List.length_eq_zero_iff.1 h0
    simp [xorBytes]
  · have : (d.length + 15) / 16 = 0 + 1 := by omega
    rw [this, keystream_succ]
    simp [keystream]

/-- Blocks of whole blocks in two parts. -/
theorem blocksOf_take (n : Nat) {b : List Byte} (h : 16 * n ≤ b.length) : blocksOf n (b.take (16 * n)) = blocksOf n b := by
  induction n generalizing b with
  | zero => rfl
  | succ n ih =>
    have e : b.take (16 * (n + 1)) = b.take 16 ++ (b.drop 16).take (16 * n) := by
      rw [show 16 * (n + 1) = 16 + 16 * n by omega, List.take_add]
    have h1 : (b.take 16).length = 16 := by
      rw [List.length_take]
      omega
    rw [blocksOf, blocksOf, e, List.take_left' h1, List.drop_left' h1, ih (by rw [List.length_drop]; omega)]

theorem blocksOf_cons {c : List Byte} (n : Nat) (e : List Byte) (h : c.length = 16) :
    blocksOf (n + 1) (c ++ e) = blockOfBytes c :: blocksOf n e := by
  rw [blocksOf, List.take_left' h, List.drop_left' h]

/-! AAD. -/

/-- AAD absorption of a whole string (R150). -/
theorem absorbAad_closed {x : Slot} (a : List Byte) (hx : x.aadBuf.length < 16) :
    absorbAad x a = { x with
      acc := ghashFrom x.hkey x.acc (blocksOf ((x.aadBuf ++ a).length / 16) (x.aadBuf ++ a)),
      aadBuf := (x.aadBuf ++ a).drop (16 * ((x.aadBuf ++ a).length / 16)),
      aadCount := x.aadCount + BitVec.ofNat 64 a.length } := by
  unfold absorbAad
  rw [absorbAadFold_blocks x a hx]

/-- The accumulator once the AAD phase is closed (R151). -/
def closedAcc (x : Slot) : Block :=
  if x.aadBuf = [] then x.acc else gfMul (x.acc ^^^ blockOfBytes (pad16 x.aadBuf)) x.hkey

/-- The data phase, entered (R151). -/
theorem enterData_closed {x : Slot} (hp : x.phase = .aad ∨ x.phase = .data) (hb : 0 < x.aadBuf.length → x.phase = .aad) :
    enterData x = { x with phase := .data, aadBuf := [], acc := closedAcc x } := by
  unfold closedAcc
  by_cases h : x.aadBuf = []
  · rw [if_pos h]
    rcases hp with hp | hp
    · rw [enterData, if_pos hp, closeAad, if_neg (by simp [h])]
      cases x
      simp_all
    · rw [enterData_of_not_aad (by simp [hp])]
      cases x
      simp_all
  · have hl : 0 < x.aadBuf.length := List.length_pos_iff.2 h
    rw [if_neg h, enterData, if_pos (hb hl), closeAad, if_pos hl]
    rfl

/-! Data. -/

theorem uoSize_zero {x : Slot} (hx : x.dataBuf.length < holdLen x) : uoSize x 0 = 0 := by
  unfold uoSize pending
  unfold holdLen at hx
  cases hd : x.dir <;> simp only [hd] at hx ⊢ <;> omega

/-- The ciphertext of data in the session's direction (R145). -/
def ciphertextOf (p : Platform) (x : Slot) (d : List Byte) : List Byte :=
  match x.dir with
  | .encrypt => gctr p (slotKey x) x.ctr d
  | .decrypt => d

theorem ciphertextOf_length (p : Platform) (x : Slot) (d : List Byte) : (ciphertextOf p x d).length = d.length := by
  unfold ciphertextOf
  split
  · exact gctr_length ..
  · rfl

/-- Data absorption of a whole string (R153): the whole blocks the update size announces are processed, the rest is kept. -/
theorem absorbData_closed (p : Platform) (x : Slot) (d : List Byte) (hx : x.dataBuf.length < holdLen x) :
    absorbData p x d =
      ({ x with
          acc := ghashFrom x.hkey x.acc
            (blocksOf (uoSize x d.length / 16) (ciphertextOf p x ((x.dataBuf ++ d).take (uoSize x d.length)))),
          ctr := inc32Iter (uoSize x d.length / 16) x.ctr,
          dataCount := x.dataCount + BitVec.ofNat 64 (uoSize x d.length),
          dataBuf := (x.dataBuf ++ d).drop (uoSize x d.length) },
        gctr p (slotKey x) x.ctr ((x.dataBuf ++ d).take (uoSize x d.length))) := by
  induction d generalizing x with
  | nil =>
    simp only [List.length_nil, uoSize_zero hx, absorbData_nil]
    simp [blocksOf, inc32Iter]
  | cons b t ih =>
    rw [absorbData]
    by_cases hb : (x.dataBuf ++ [b]).length = holdLen x
    · have hlen : x.dataBuf.length + 1 = holdLen x := by simpa using hb
      have h16 : 16 ≤ holdLen x := by unfold holdLen; split <;> omega
      let c : List Byte := (x.dataBuf ++ [b]).take 16
      have hc : c.length = 16 := by
        show ((x.dataBuf ++ [b]).take 16).length = 16
        rw [List.length_take]
        omega
      let r := dataBlock p x (blockOfBytes c)
      let y : Slot := { r.1 with dataBuf := (x.dataBuf ++ [b]).drop 16 }
      have hstep : absorbDataByte p x b = (y, bytesOfBlock r.2) := by
        unfold absorbDataByte
        rw [if_pos hb]
      have hyb : y.dataBuf = (x.dataBuf ++ [b]).drop 16 := rfl
      have hyl : y.dataBuf.length + 16 = x.dataBuf.length + 1 := by
        rw [hyb, List.length_drop, List.length_append, List.length_singleton]
        omega
      have hyh : holdLen y = holdLen x := rfl
      have hu : uoSize x (t.length + 1) = 16 + uoSize y t.length := by
        have hyd : y.dir = x.dir := rfl
        have hyt : y.tagLen = x.tagLen := rfl
        unfold uoSize pending
        unfold holdLen at hlen h16
        rw [hyd, hyt]
        cases hd : x.dir <;> simp only [hd] at hlen h16 ⊢ <;> omega
      have hT : x.dataBuf ++ b :: t = c ++ (y.dataBuf ++ t) := by
        rw [hyb, ← List.append_assoc]
        show _ = (x.dataBuf ++ [b]).take 16 ++ (x.dataBuf ++ [b]).drop 16 ++ t
        rw [List.take_append_drop]
        simp
      have htake : (x.dataBuf ++ b :: t).take (16 + uoSize y t.length) = c ++ (y.dataBuf ++ t).take (uoSize y t.length) := by
        rw [hT, List.take_add, List.take_left' hc, List.drop_left' hc]
      have hdrop : (x.dataBuf ++ b :: t).drop (16 + uoSize y t.length) = (y.dataBuf ++ t).drop (uoSize y t.length) := by
        rw [hT, ← List.drop_drop, List.drop_left' hc]
      have hdiv : (16 + uoSize y t.length) / 16 = uoSize y t.length / 16 + 1 := by omega
      have hih := ih y (by omega)
      rw [hstep]
      simp only [List.length_cons]
      rw [hu, htake, hdrop, hdiv, hih]
      have hr2 : r.2 = blockOfBytes c ^^^ aesEnc p (slotKey x) x.ctr := rfl
      have hct : blocksOf (uoSize y t.length / 16 + 1) (ciphertextOf p x (c ++ (y.dataBuf ++ t).take (uoSize y t.length))) =
          (match x.dir with
            | .encrypt => r.2
            | .decrypt => blockOfBytes c) ::
            blocksOf (uoSize y t.length / 16) (ciphertextOf p y ((y.dataBuf ++ t).take (uoSize y t.length))) := by
        have hyd : y.dir = x.dir := rfl
        unfold ciphertextOf
        rw [hyd]
        cases x.dir with
        | encrypt =>
          simp only
          rw [gctr_block _ _ _ _ hc, blocksOf_cons _ _ (bytesOfBlock_length _), blockOfBytes_bytesOfBlock]
          rfl
        | decrypt =>
          simp only
          rw [blocksOf_cons _ _ hc]
      have hacc : y.acc = gfMul (x.acc ^^^ (match x.dir with
            | .encrypt => r.2
            | .decrypt => blockOfBytes c)) x.hkey := by
        show (dataBlock p x (blockOfBytes c)).1.acc = gfMul (x.acc ^^^ (match x.dir with
            | .encrypt => (dataBlock p x (blockOfBytes c)).2
            | .decrypt => blockOfBytes c)) x.hkey
        cases hd : x.dir <;> simp only [dataBlock, foldBlock, hd]
      rw [hct, ghashFrom_cons, ← hacc, gctr_block _ _ _ _ hc, ← hr2]
      have hcnt : x.dataCount + BitVec.ofNat 64 (16 + uoSize y t.length) = y.dataCount + BitVec.ofNat 64 (uoSize y t.length) := by
        show _ = x.dataCount + 16 + _
        rw [BitVec.ofNat_add, BitVec.add_assoc]
        rfl
      have hctr : inc32Iter (uoSize y t.length / 16 + 1) x.ctr = inc32Iter (uoSize y t.length / 16) y.ctr := by
        rw [← inc32Iter_inc32]
        rfl
      rw [hcnt, hctr]
      rfl
    · let y : Slot := { x with dataBuf := x.dataBuf ++ [b] }
      have hstep : absorbDataByte p x b = (y, []) := by
        unfold absorbDataByte
        rw [if_neg hb]
      have hyb : y.dataBuf = x.dataBuf ++ [b] := rfl
      have hlt : y.dataBuf.length < holdLen y := by
        have hyh : holdLen y = holdLen x := rfl
        have hne : ¬ x.dataBuf.length + 1 = holdLen x := by simpa using hb
        rw [hyb, List.length_append, List.length_singleton]
        omega
      have hu : uoSize x (t.length + 1) = uoSize y t.length := by
        have hyd : y.dir = x.dir := rfl
        have hyt : y.tagLen = x.tagLen := rfl
        unfold uoSize pending
        rw [hyd, hyt, hyb, List.length_append, List.length_singleton,
          show x.dataBuf.length + 1 + t.length = x.dataBuf.length + (t.length + 1) by omega]
      have hT : x.dataBuf ++ b :: t = y.dataBuf ++ t := by simp [hyb]
      have hct : ∀ e, ciphertextOf p y e = ciphertextOf p x e := fun _ => rfl
      rw [hstep]
      simp only [List.length_cons]
      rw [hu, hT, ih y hlt]
      rfl

/-! The end of a message. -/

/-- The last partial block (R160). -/
theorem finalBlock_closed (p : Platform) (x : Slot) (hm : finalLen x ≤ 15) (hl : finalLen x ≤ x.dataBuf.length) :
    finalBlock p x =
      ({ x with
          acc := ghashFrom x.hkey x.acc
            (blocksOf ((finalLen x + 15) / 16) (pad16 (ciphertextOf p x (x.dataBuf.take (finalLen x))))),
          dataCount := x.dataCount + BitVec.ofNat 64 (finalLen x) },
        gctr p (slotKey x) x.ctr (x.dataBuf.take (finalLen x))) := by
  have htl : (x.dataBuf.take (finalLen x)).length = finalLen x := by
    rw [List.length_take]
    omega
  unfold finalBlock
  simp only
  split
  · rename_i h0
    have hs : gctr p (slotKey x) x.ctr (x.dataBuf.take (finalLen x)) =
        xorBytes (x.dataBuf.take (finalLen x)) (bytesOfBlock (aesEnc p (slotKey x) x.ctr)) :=
      gctr_short _ _ _ (by omega)
    have hn : (finalLen x + 15) / 16 = 1 := by omega
    have hone : ∀ {e : List Byte}, e.length = 16 → blocksOf 1 e = [blockOfBytes e] := by
      intro e he
      simp [blocksOf, List.take_of_length_le (Nat.le_of_eq he)]
    have hpad : (pad16 (ciphertextOf p x (x.dataBuf.take (finalLen x)))).length = 16 := by
      rw [pad16_length, ciphertextOf_length, htl]
      omega
    rw [hn, hone hpad, hs]
    unfold ciphertextOf foldBlock
    rw [ghashFrom_cons, ghashFrom_nil]
    cases hd : x.dir <;> simp only [hs]
  · rename_i h0
    have h0 : finalLen x = 0 := by omega
    simp [h0, blocksOf]

end Sys2Proof.Machine
end

