-- ==== Sys2Proof/Laws/Message.lean ====
section
/-! SUPPORT. The slots the AEAD commands leave, in closed form, under the invariants of R34 (42_aead.md R149, R156,
R159, R160), and that these invariants are kept. -/

namespace Sys2Proof.Machine

/-! Handles and keys. -/

theorem resolve_of_names {s : State} {h : Handle} {m : Mode} {x : Slot} (hn : Names s h m x) :
    s.resolve (some m) h = some x := by
  obtain ⟨h1, h2, rfl, h4, h5⟩ := hn
  exact (resolve_some_iff _ _ _ _).2 ⟨h1, h2, h4, h5, rfl⟩

theorem resolve_any_of_names {s : State} {h : Handle} {m : Mode} {x : Slot} (hn : Names s h m x) :
    s.resolve none h = some x := by
  obtain ⟨h1, h2, rfl, h4, h5⟩ := hn
  exact (resolve_any_iff _ _ _).2 ⟨h1, h2, h4, rfl⟩

/-- The meaningful part of the key field is the key (R29). -/
theorem keyField_extract {key : List Byte} {n : Nat} (hn : n ≤ 32) (h : key.length = n) :
    (keyField key).extractLsb' (8 * (32 - n)) (8 * n) = BitVec.ofNat (8 * n) (intBe key) := by
  have h1 : intBe (key ++ List.replicate (32 - key.length) 0) = intBe key * 256 ^ (32 - n) := by
    unfold intBe
    rw [List.foldl_append, h]
    generalize List.foldl (fun acc (x : Byte) => acc * 256 + x.toNat) 0 key = a
    generalize 32 - n = k
    clear h hn
    induction k generalizing a with
    | zero => simp
    | succ k ih =>
      rw [List.replicate_succ, List.foldl_cons, ih]
      simp [pow_succ]
      ring
  have hlt := intBe_lt key
  rw [h] at hlt
  unfold keyField
  rw [h1]
  apply BitVec.eq_of_toNat_eq
  rw [BitVec.extractLsb'_toNat, BitVec.toNat_ofNat, BitVec.toNat_ofNat]
  have e1 : (256 : Nat) ^ (32 - n) = 2 ^ (8 * (32 - n)) := by
    rw [pow_mul]
    norm_num
  have e2 : (2 : Nat) ^ 256 = 2 ^ (8 * n) * 2 ^ (8 * (32 - n)) := by
    rw [← pow_add]
    congr 1
    omega
  rw [e1, e2, Nat.shiftRight_eq_div_pow, Nat.mul_mod_mul_right, Nat.mul_div_cancel _ (by positivity), Nat.mod_mod]

/-- The key of a slot whose key field was loaded from a key of its size (R29, R111, R149). -/
theorem slotKey_init {x : Slot} {key : List Byte} {k : AesKey} (hk : x.key = keyField key)
    (hl : key.length = keyBytes x.keySize) (hr : rawKey key = some k) : slotKey x = k := by
  unfold rawKey at hr
  unfold slotKey
  rw [hk]
  rw [hl] at hr
  cases hs : x.keySize <;> rw [hs] at hl hr <;> simp only [keyBytes] at hl hr ⊢ <;> cases hr
  · congr 1
    exact keyField_extract (n := 16) (by omega) hl
  · congr 1
    exact keyField_extract (n := 24) (by omega) hl
  · congr 1
    have := keyField_extract (n := 32) (by omega) hl
    simpa using this

theorem rawKey_isSome {key : List Byte} {ks : KeySize} (hk : ks ≠ .none) (hl : key.length = keyBytes ks) :
    ∃ k, rawKey key = some k := by
  unfold rawKey
  rw [hl]
  cases ks <;> simp [keyBytes] at hk ⊢

/-! The slots in closed form. -/

/-- The slot GCM.INIT leaves (R149, R33). -/
theorem initSlot_closed {p : Platform} {x : Slot} {d : Dir} {key nonce aad : List Byte} {tb : Nat} {k : AesKey}
    (hk : slotKey { x with key := keyField key, dir := d } = k) :
    initSlot p x d key nonce aad tb = { x with
      dir := d, key := keyField key, hkey := aesEnc p k 0, j0 := deriveJ0 (aesEnc p k 0) nonce,
      ctr := inc32 (deriveJ0 (aesEnc p k 0) nonce),
      acc := ghashFrom (aesEnc p k 0) 0 (blocksOf (aad.length / 16) aad), aadCount := BitVec.ofNat 64 aad.length,
      dataCount := 0, aadBuf := aad.drop (16 * (aad.length / 16)), dataBuf := [], tagLen := BitVec.ofNat 5 (tb / 8),
      tag := 0, tagValid := false, phase := .aad, ckAcc := ghashFrom (aesEnc p k 0) 0 (blocksOf (aad.length / 16) aad),
      ckAadCount := BitVec.ofNat 64 aad.length, ckAadBuf := aad.drop (16 * (aad.length / 16)) } := by
  unfold initSlot
  simp only [hk]
  rw [absorbAad_closed _ (by simp)]
  have h0 : ∀ n : Word64, 0 + n = n := BitVec.zero_add
  simp only [List.nil_append, h0]

theorem holdLen_of_inv {x : Slot} (hi : AeadInv x) : x.dataBuf.length < holdLen x := by
  have := hi.dataBuf_short
  unfold holdLen
  cases hd : x.dir <;> rw [hd] at this <;> simp only at this ⊢ <;> omega

theorem uoSize_le (x : Slot) (n : Nat) : uoSize x n ≤ x.dataBuf.length + n := by
  unfold uoSize pending
  cases x.dir <;> simp only <;> omega

theorem uoSize_mod (x : Slot) (n : Nat) : uoSize x n % 16 = 0 := by
  unfold uoSize
  omega

/-- The slot and the output bytes of a data command (R151 to R153, R156, R159). -/
theorem data_closed {p : Platform} {x : Slot} {d : List Byte} (hi : AeadInv x) (hp : x.phase = .aad ∨ x.phase = .data) :
    absorbData p (enterData x) d =
      ({ x with
          phase := .data, aadBuf := [],
          acc := ghashFrom x.hkey (closedAcc x)
            (blocksOf (uoSize x d.length / 16) (ciphertextOf p x ((x.dataBuf ++ d).take (uoSize x d.length)))),
          ctr := inc32Iter (uoSize x d.length / 16) x.ctr,
          dataCount := x.dataCount + BitVec.ofNat 64 (uoSize x d.length),
          dataBuf := (x.dataBuf ++ d).drop (uoSize x d.length) },
        gctr p (slotKey x) x.ctr ((x.dataBuf ++ d).take (uoSize x d.length))) := by
  have hh : (enterData x).dataBuf.length < holdLen (enterData x) := by
    have : holdLen (enterData x) = holdLen x := by
      unfold holdLen
      rw [enterData_dir, enterData_tagLen]
    rw [enterData_dataBuf, this]
    exact holdLen_of_inv hi
  rw [absorbData_closed p _ d hh, uoSize_enterData, enterData_closed hp hi.aadBuf_phase]
  rfl

/-- The padded last partial block of AAD or data, folded (R151, R160). -/
theorem ghashFrom_pad16 {h acc : Block} {b : List Byte} (hb : b.length ≤ 15) :
    ghashFrom h acc (blocksOf ((b.length + 15) / 16) (pad16 b)) =
      if b = [] then acc else gfMul (acc ^^^ blockOfBytes (pad16 b)) h := by
  by_cases h0 : b = []
  · subst h0
    simp [blocksOf]
  · have : 0 < b.length := List.length_pos_iff.2 h0
    have hp : (pad16 b).length = 16 := by
      rw [pad16_length]
      omega
    rw [if_neg h0, show (b.length + 15) / 16 = 1 by omega]
    simp [blocksOf, List.take_of_length_le (Nat.le_of_eq hp)]

theorem pending_zero (x : Slot) : pending x 0 = finalLen x := by
  unfold pending finalLen
  cases x.dir <;> rfl

theorem finalLen_le {x : Slot} (hi : AeadInv x) : finalLen x ≤ 15 ∧ finalLen x ≤ x.dataBuf.length := by
  have := hi.dataBuf_short
  unfold finalLen
  cases hd : x.dir <;> rw [hd] at this <;> simp only at this ⊢ <;> omega

theorem count_add {c : Word64} {n : Nat} (h : c.toNat + n < 2 ^ 64) : (c + BitVec.ofNat 64 n).toNat = c.toNat + n := by
  rw [BitVec.toNat_add, BitVec.toNat_ofNat]
  omega

theorem dataCount_final {x : Slot} (hi : AeadInv x) :
    (x.dataCount + BitVec.ofNat 64 (finalLen x)).toNat = x.dataCount.toNat + finalLen x ∧
      x.dataCount.toNat + finalLen x ≤ dataMax := by
  have h := hi.dataCount_max
  rw [pending_zero] at h
  exact ⟨count_add (by unfold dataMax at h; omega), h⟩

/-- The slot GCM.FINAL leaves and the data bytes it puts out (R160). -/
theorem final_closed {p : Platform} {x : Slot} (hi : AeadInv x) (hp : x.phase = .aad ∨ x.phase = .data) {ct : List Byte}
    {acc : Block} (hct : ct = ciphertextOf p x (x.dataBuf.take (finalLen x)))
    (hacc : acc = ghashFrom x.hkey x.acc
      (blocksOf ((x.aadBuf.length + 15) / 16) (pad16 x.aadBuf) ++ blocksOf ((finalLen x + 15) / 16) (pad16 ct) ++
        [blockOfBytes (beBytes 8 (8 * x.aadCount.toNat) ++ beBytes 8 (8 * (x.dataCount.toNat + finalLen x)))])) :
    sealTag p (finalBlock p (enterData x)).1 = { x with
        phase := .final, aadBuf := [], dataBuf := [], acc := acc, tag := aesEnc p (slotKey x) x.j0 ^^^ acc,
        tagValid := true, dataCount := x.dataCount + BitVec.ofNat 64 (finalLen x) } ∧
      (finalBlock p (enterData x)).2 = gctr p (slotKey x) x.ctr (x.dataBuf.take (finalLen x)) := by
  obtain ⟨h1, h2⟩ := finalLen_le hi
  have hfl := finalLen_enterData x
  have hfb := finalBlock_closed p (enterData x) (by rw [hfl]; exact h1) (by rw [hfl, enterData_dataBuf]; exact h2)
  rw [hfl, enterData_closed hp hi.aadBuf_phase] at hfb
  rw [enterData_closed hp hi.aadBuf_phase, hfb]
  refine ⟨?_, rfl⟩
  rw [ghashFrom_append, ghashFrom_append, ghashFrom_cons, ghashFrom_nil, ghashFrom_pad16 hi.aadBuf_short,
    ← (dataCount_final hi).1] at hacc
  have hacc : acc = gfMul (ghashFrom x.hkey (closedAcc x) (blocksOf ((finalLen x + 15) / 16) (pad16 ct)) ^^^ _) _ := hacc
  have hct' : ∀ y : Slot, y.dir = x.dir → slotKey y = slotKey x → y.ctr = x.ctr →
      ciphertextOf p y (x.dataBuf.take (finalLen x)) = ct := by
    intro y e1 e2 e3
    rw [hct]
    unfold ciphertextOf
    rw [e1, e2, e3]
  unfold sealTag foldBlock lengthBlock tagOf
  simp only
  rw [hct' { x with phase := .data, aadBuf := [], acc := closedAcc x } rfl rfl rfl, hacc]
  rfl

/-! The invariants of R34 are kept. -/

theorem aeadInv_init {p : Platform} {x : Slot} {d : Dir} {key nonce aad : List Byte} {tb : Nat} (ha : aad.length ≤ aadMax) :
    AeadInv (initSlot p x d key nonce aad tb) := by
  rw [initSlot_closed rfl]
  have hc : (BitVec.ofNat 64 aad.length).toNat = aad.length := by
    unfold aadMax at ha
    rw [BitVec.toNat_ofNat]
    omega
  refine ⟨?_, fun _ => rfl, ?_, ?_, fun _ => rfl, ?_, ?_, ?_, fun _ => by simp [inc32Iter]⟩
  · simp only [List.length_drop]
    omega
  · simp
  · cases d <;> simp
  · simp only [hc]
    exact ha
  · unfold pending dataMax
    cases d <;> simp
  · simp

theorem aeadAux_init {p : Platform} {x : Slot} {d : Dir} {key nonce aad : List Byte} {tb : Nat} (ha : aad.length ≤ aadMax)
    (h1 : 32 ≤ tb) (h2 : tb ≤ 128) : AeadAux (initSlot p x d key nonce aad tb) := by
  rw [initSlot_closed rfl]
  have hc : (BitVec.ofNat 64 aad.length).toNat = aad.length := by
    unfold aadMax at ha
    rw [BitVec.toNat_ofNat]
    omega
  refine ⟨by simp, fun _ => ?_, ?_, ?_, by simp⟩
  · simp only [BitVec.toNat_ofNat]
    omega
  · simp only [List.length_drop]
    omega
  · simp only [hc]
    exact ha

theorem aeadInv_absorbAad {x : Slot} {a : List Byte} (hx : AeadInv x) (hp : x.phase = .aad)
    (hc : x.aadCount.toNat + a.length ≤ aadMax) : AeadInv (absorbAad x a) := by
  have hb := hx.aadBuf_short
  rw [absorbAad_closed a (by omega)]
  refine ⟨?_, fun _ => hp, hx.dataBuf_phase, hx.dataBuf_short, hx.dataCount_blocks, ?_, hx.dataCount_max, hx.tagValid_phase,
    hx.ctr_position⟩
  · simp only [List.length_drop]
    omega
  · simp only
    rw [count_add (by unfold aadMax at hc; omega)]
    exact hc

theorem aeadAux_absorbAad {x : Slot} {a : List Byte} (hx : AeadAux x) : AeadAux (absorbAad x a) := by
  rw [absorbAad_shape]
  exact ⟨hx.phase, hx.tagLen_range, hx.ckAadBuf_short, hx.ckAadCount_max, hx.final_tag⟩

theorem aeadInv_absorbData {p : Platform} {x : Slot} {d : List Byte} (hx : AeadInv x)
    (hp : x.phase = .aad ∨ x.phase = .data) (hm : x.dataCount.toNat + pending x d.length ≤ dataMax) : AeadInv (absorbData p (enterData x) d).1 := by
  rw [data_closed hx hp]
  have hc := hx.dataCount_blocks hp
  have hu : uoSize x d.length ≤ pending x d.length := Nat.sub_le _ _
  have h16 := uoSize_mod x d.length
  have hn : (x.dataCount + BitVec.ofNat 64 (uoSize x d.length)).toNat = x.dataCount.toNat + uoSize x d.length :=
    count_add (by unfold dataMax at hm; omega)
  have hs := hx.dataBuf_short
  refine ⟨by simp, by simp, fun _ => rfl, ?_, fun _ => ?_, hx.aadCount_max, ?_, fun h => ?_, fun _ => ?_⟩
  · have hu : uoSize x d.length = pending x d.length - pending x d.length % 16 := rfl
    unfold pending at hu
    cases hd : x.dir <;> simp only [hd, List.length_drop, List.length_append] at hs hu ⊢ <;> omega
  · simp only [hn]
    omega
  · have hu : uoSize x d.length = pending x d.length - pending x d.length % 16 := rfl
    unfold pending at hu hm ⊢
    simp only [hn]
    cases hd : x.dir <;> simp only [hd, List.length_drop, List.length_append] at hs hu hm ⊢ <;> omega
  · have := hx.tagValid_phase h
    rcases hp with hp | hp <;> rw [hp] at this <;> cases this
  · simp only [hn]
    rw [hx.ctr_position hp, inc32Iter_add]
    congr 1
    omega

theorem aeadAux_absorbData {p : Platform} {x : Slot} {d : List Byte} (hx : AeadInv x) (hy : AeadAux x)
    (hp : x.phase = .aad ∨ x.phase = .data) : AeadAux (absorbData p (enterData x) d).1 := by
  rw [data_closed hx hp]
  refine ⟨by simp, fun _ => hy.tagLen_range ?_, hy.ckAadBuf_short, hy.ckAadCount_max, by simp⟩
  rcases hp with hp | hp <;> simp [hp]

/-- A slot in phase FINAL with nothing buffered has the invariants of R34. -/
theorem aeadInv_final {x : Slot} (hp : x.phase = .final) (ha : x.aadBuf = []) (hd : x.dataBuf = [])
    (h1 : x.aadCount.toNat ≤ aadMax) (h2 : x.dataCount.toNat ≤ dataMax) : AeadInv x := by
  refine ⟨by simp [ha], by simp [ha], by simp [hd], ?_, by simp [hp], h1, ?_, fun _ => hp, by simp [hp]⟩
  · cases x.dir <;> simp [hd]
  · unfold pending
    cases x.dir <;> simp [hd, h2]

theorem aeadInv_seal {p : Platform} {x : Slot} (hx : AeadInv x) (hp : x.phase = .aad ∨ x.phase = .data) :
    AeadInv (sealTag p (finalBlock p (enterData x)).1) := by
  rw [(final_closed hx hp rfl rfl).1]
  refine aeadInv_final rfl rfl rfl hx.aadCount_max ?_
  simp only
  rw [(dataCount_final hx).1]
  exact (dataCount_final hx).2

theorem aeadAux_seal {p : Platform} {x : Slot} (hx : AeadInv x) (hy : AeadAux x) (hp : x.phase = .aad ∨ x.phase = .data) :
    AeadAux (sealTag p (finalBlock p (enterData x)).1) := by
  rw [(final_closed hx hp rfl rfl).1]
  refine ⟨by simp, fun _ => hy.tagLen_range ?_, hy.ckAadBuf_short, hy.ckAadCount_max, fun _ _ => rfl⟩
  rcases hp with hp | hp <;> simp [hp]

/-- A short decrypt stream refused (R161 (b)). -/
theorem aeadInv_short {x : Slot} (hx : AeadInv x) (hy : AeadAux x) (hp : x.phase = .aad ∨ x.phase = .data)
    (hd : x.dir = .decrypt) :
    AeadInv { enterData x with dataBuf := [], tagValid := false, phase := .final } ∧
      AeadAux { enterData x with dataBuf := [], tagValid := false, phase := .final } := by
  rw [enterData_closed hp hx.aadBuf_phase]
  have hm := hx.dataCount_max
  refine ⟨aeadInv_final rfl rfl rfl hx.aadCount_max (by simp only; omega),
    ⟨by simp, fun _ => hy.tagLen_range ?_, hy.ckAadBuf_short, hy.ckAadCount_max, by simp [hd]⟩⟩
  rcases hp with hp | hp <;> simp [hp]

/-- The checkpoint restored (R165). -/
theorem aeadInv_restart {x : Slot} (hy : AeadAux x) (hp : x.phase ≠ .uninit) :
    AeadInv (restartSlot x) ∧ AeadAux (restartSlot x) := by
  refine ⟨⟨hy.ckAadBuf_short, fun _ => rfl, by simp [restartSlot], ?_, by simp [restartSlot], hy.ckAadCount_max, ?_,
    by simp [restartSlot], fun _ => by simp [restartSlot, inc32Iter]⟩,
    ⟨by simp [restartSlot], fun _ => hy.tagLen_range hp, hy.ckAadBuf_short, hy.ckAadCount_max, by simp [restartSlot]⟩⟩
  · simp only [restartSlot]
    cases x.dir <;> simp
  · unfold pending
    simp only [restartSlot]
    cases x.dir <;> simp [dataMax]

/-- A session with no message (R38, R165). -/
theorem aeadInv_fresh {x : Slot} (hp : x.phase = .uninit) (ha : x.aadBuf = []) (hd : x.dataBuf = []) (h1 : x.aadCount = 0)
    (h2 : x.dataCount = 0) (h3 : x.tagValid = false) (h4 : x.ckAadBuf = []) (h5 : x.ckAadCount = 0) :
    AeadInv x ∧ AeadAux x := by
  refine ⟨⟨by simp [ha], by simp [ha], by simp [hd], ?_, by simp [hp], by simp [h1], ?_, by simp [h3], by simp [hp]⟩,
    ⟨by simp [hp], by simp [hp], by simp [h4], by simp [h5], by simp [hp]⟩⟩
  · cases x.dir <;> simp [hd]
  · unfold pending
    cases x.dir <;> simp [hd, h2, dataMax]

theorem slotInv_aead {x : Slot} (h1 : x.keySize ≠ .none) (h2 : x.mode = .aead) (h3 : AeadInv x) (h4 : AeadAux x) :
    SlotInv x :=
  fun _ => ⟨h1, (fun h => by rw [h2] at h; cases h), fun _ => ⟨h3, h4⟩⟩

theorem slotInv_cbc {x : Slot} (h1 : x.keySize ≠ .none) (h2 : x.mode = .cbc) (h3 : x.phase = .uninit ∨ x.phase = .ready) :
    SlotInv x :=
  fun _ => ⟨h1, fun _ => h3, (fun h => by rw [h2] at h; cases h)⟩

theorem slotInv_free : SlotInv Slot.free := fun h => by cases h

/-- One slot written (R39). -/
theorem slotsInv_setSlot {s : State} {j : Nat} {y : Slot} (hs : SlotsInv s) (hy : SlotInv y) : SlotsInv (s.setSlot j y) := by
  intro h
  by_cases e : h = j
  · subst e
    simpa using hy
  · rw [slot_setSlot_other _ _ _ e]
    exact hs h

/-- What a resolved handle tells of its slot. -/
theorem aead_of_resolve {s : State} {h : Handle} {x : Slot} (hs : SlotsInv s) (hr : s.resolve (some .aead) h = some x) :
    x.keySize ≠ .none ∧ x.mode = .aead ∧ AeadInv x ∧ AeadAux x := by
  obtain ⟨_, _, h3, h4, rfl⟩ := (resolve_some_iff _ _ _ _).1 hr
  obtain ⟨a, -, b⟩ := hs _ h3
  exact ⟨a, h4, b h4⟩

theorem cbc_of_resolve {s : State} {h : Handle} {x : Slot} (hs : SlotsInv s) (hr : s.resolve (some .cbc) h = some x) :
    x.keySize ≠ .none ∧ x.mode = .cbc := by
  obtain ⟨_, _, h3, h4, rfl⟩ := (resolve_some_iff _ _ _ _).1 hr
  exact ⟨(hs _ h3).1, h4⟩

end Sys2Proof.Machine
end

