-- ==== Sys2Proof/Laws/PerInstr.lean ====
section
/-! SUPPORT. One lemma per command: its CMD word is of its row of opcode_table.json (30_encoding.md R82, R83). -/

/-- The CMD word of a command has its row's bits where the row's mask is set. -/
def Sys2Proof.Laws.EncodesItsRow.Statement (i : Sys2Proof.Instr) : Prop :=
  Sys2Proof.encode i &&& Sys2Proof.Machine.rowMask (Sys2Proof.opOf i) = Sys2Proof.Machine.rowMatch (Sys2Proof.opOf i)

namespace Sys2Proof

theorem Laws.EncodesItsRow.caps : Laws.EncodesItsRow.Statement .caps :=
  cmdWord_row _ _ _ _ _ (by simp [Op.usesDir]) (by simp [Op.usesKeep]) (by simp [Op.usesMode]) (by decide)
    (by simp [Op.usesHandle])

theorem Laws.EncodesItsRow.create (d : Dir) (m : Mode) : Laws.EncodesItsRow.Statement (.create d m) :=
  cmdWord_row _ _ _ _ _ (by simp [Op.usesDir]) (by simp [Op.usesKeep]) (by simp [Op.usesMode]) (by cases m <;> decide)
    (by simp [Op.usesHandle])

theorem Laws.EncodesItsRow.dispose (h : Handle) : Laws.EncodesItsRow.Statement (.dispose h) :=
  cmdWord_row _ _ _ _ _ (by simp [Op.usesDir]) (by simp [Op.usesKeep]) (by simp [Op.usesMode]) (by decide)
    (by simp [Op.usesHandle])

theorem Laws.EncodesItsRow.blksz : Laws.EncodesItsRow.Statement .blksz :=
  cmdWord_row _ _ _ _ _ (by simp [Op.usesDir]) (by simp [Op.usesKeep]) (by simp [Op.usesMode]) (by decide)
    (by simp [Op.usesHandle])

theorem Laws.EncodesItsRow.cbcInit (h : Handle) : Laws.EncodesItsRow.Statement (.cbcInit h) :=
  cmdWord_row _ _ _ _ _ (by simp [Op.usesDir]) (by simp [Op.usesKeep]) (by simp [Op.usesMode]) (by decide)
    (by simp [Op.usesHandle])

theorem Laws.EncodesItsRow.cbcProcess (h : Handle) : Laws.EncodesItsRow.Statement (.cbcProcess h) :=
  cmdWord_row _ _ _ _ _ (by simp [Op.usesDir]) (by simp [Op.usesKeep]) (by simp [Op.usesMode]) (by decide)
    (by simp [Op.usesHandle])

theorem Laws.EncodesItsRow.cbcReset (h : Handle) : Laws.EncodesItsRow.Statement (.cbcReset h) :=
  cmdWord_row _ _ _ _ _ (by simp [Op.usesDir]) (by simp [Op.usesKeep]) (by simp [Op.usesMode]) (by decide)
    (by simp [Op.usesHandle])

theorem Laws.EncodesItsRow.gcmInit (h : Handle) (d : Dir) : Laws.EncodesItsRow.Statement (.gcmInit h d) :=
  cmdWord_row _ _ _ _ _ (by simp [Op.usesDir]) (by simp [Op.usesKeep]) (by simp [Op.usesMode]) (by decide)
    (by simp [Op.usesHandle])

theorem Laws.EncodesItsRow.gcmAadByte (h : Handle) : Laws.EncodesItsRow.Statement (.gcmAadByte h) :=
  cmdWord_row _ _ _ _ _ (by simp [Op.usesDir]) (by simp [Op.usesKeep]) (by simp [Op.usesMode]) (by decide)
    (by simp [Op.usesHandle])

theorem Laws.EncodesItsRow.gcmAadBytes (h : Handle) : Laws.EncodesItsRow.Statement (.gcmAadBytes h) :=
  cmdWord_row _ _ _ _ _ (by simp [Op.usesDir]) (by simp [Op.usesKeep]) (by simp [Op.usesMode]) (by decide)
    (by simp [Op.usesHandle])

theorem Laws.EncodesItsRow.gcmByte (h : Handle) : Laws.EncodesItsRow.Statement (.gcmByte h) :=
  cmdWord_row _ _ _ _ _ (by simp [Op.usesDir]) (by simp [Op.usesKeep]) (by simp [Op.usesMode]) (by decide)
    (by simp [Op.usesHandle])

theorem Laws.EncodesItsRow.gcmBytes (h : Handle) : Laws.EncodesItsRow.Statement (.gcmBytes h) :=
  cmdWord_row _ _ _ _ _ (by simp [Op.usesDir]) (by simp [Op.usesKeep]) (by simp [Op.usesMode]) (by decide)
    (by simp [Op.usesHandle])

theorem Laws.EncodesItsRow.gcmFinal (h : Handle) : Laws.EncodesItsRow.Statement (.gcmFinal h) :=
  cmdWord_row _ _ _ _ _ (by simp [Op.usesDir]) (by simp [Op.usesKeep]) (by simp [Op.usesMode]) (by decide)
    (by simp [Op.usesHandle])

theorem Laws.EncodesItsRow.gcmUosize (h : Handle) : Laws.EncodesItsRow.Statement (.gcmUosize h) :=
  cmdWord_row _ _ _ _ _ (by simp [Op.usesDir]) (by simp [Op.usesKeep]) (by simp [Op.usesMode]) (by decide)
    (by simp [Op.usesHandle])

theorem Laws.EncodesItsRow.gcmOsize (h : Handle) : Laws.EncodesItsRow.Statement (.gcmOsize h) :=
  cmdWord_row _ _ _ _ _ (by simp [Op.usesDir]) (by simp [Op.usesKeep]) (by simp [Op.usesMode]) (by decide)
    (by simp [Op.usesHandle])

theorem Laws.EncodesItsRow.gcmMac (h : Handle) : Laws.EncodesItsRow.Statement (.gcmMac h) :=
  cmdWord_row _ _ _ _ _ (by simp [Op.usesDir]) (by simp [Op.usesKeep]) (by simp [Op.usesMode]) (by decide)
    (by simp [Op.usesHandle])

theorem Laws.EncodesItsRow.gcmReset (h : Handle) (keep : Bool) : Laws.EncodesItsRow.Statement (.gcmReset h keep) :=
  cmdWord_row _ _ _ _ _ (by simp [Op.usesDir]) (by simp [Op.usesKeep]) (by simp [Op.usesMode]) (by decide)
    (by simp [Op.usesHandle])

end Sys2Proof
end

