-- ==== Sys2Proof/Laws/Step.lean ====
section
/-! SUPPORT. What a step and a host access can do (00_scope.md R12, 20_memory.md R62, R63, R71). -/

namespace Sys2Proof.Machine

/-- A write of a word of the window changes CMD or an argument register, or nothing (R62). -/
theorem writeWord_shape (s : State) (off : Nat) (w : Word32) :
    ∃ c a b, writeWord s off w = { s with cmd := c, args := a, cmdStarted := b } := by
  unfold writeWord
  split
  · exact ⟨_, s.args, _, rfl⟩
  · split
    · exact ⟨s.cmd, _, s.cmdStarted, rfl⟩
    · exact ⟨s.cmd, s.args, s.cmdStarted, rfl⟩

theorem windowStore_shape (s : State) (off : Nat) (bytes : List Byte) :
    ∃ c a b, windowStore s off bytes = { s with cmd := c, args := a, cmdStarted := b } := by
  unfold windowStore
  split
  · obtain ⟨c, a, b, h⟩ := writeWord_shape s off (BitVec.ofNat 32 (intLe (bytes.take 4)))
    rw [h]
    obtain ⟨c', a', b', h'⟩ := writeWord_shape { s with cmd := c, args := a, cmdStarted := b } (off + 4)
      (BitVec.ofNat 32 (intLe (bytes.drop 4)))
    exact ⟨c', a', b', h'⟩
  · exact writeWord_shape _ _ _

/-- Everything a host access can do. -/
theorem hostAccess_cases {a : HostAccess} {s t : State} (h : hostAccess a s = .next t) :
    (a = .reset ∧ t = s.afterReset) ∨
      (a ≠ .reset ∧
        ((∃ c x b, t = { s with cmd := c, args := x, cmdStarted := b }) ∨ (∃ r, t = { s with busReply := r }) ∨
          ∃ b v, b + v.length ≤ 2 ^ 64 ∧ t = s.store b v)) := by
  cases a with
  | reset => exact .inl ⟨rfl, (Host.Outcome.next.inj h).symm⟩
  | windowWrite addr bytes =>
    refine .inr ⟨by simp, .inl ?_⟩
    simp only [hostAccess] at h
    split at h
    · cases h
    split at h
    · obtain rfl := Host.Outcome.next.inj h
      exact windowStore_shape _ _ _
    · cases h
  | windowRead addr n =>
    refine .inr ⟨by simp, .inr (.inl ?_)⟩
    simp only [hostAccess] at h
    split at h
    · cases h
    split at h
    · exact ⟨_, (Host.Outcome.next.inj h).symm⟩
    · cases h
  | memWrite addr v =>
    refine .inr ⟨by simp, .inr (.inr ?_)⟩
    simp only [hostAccess] at h
    split at h
    · exact ⟨_, _, by assumption, (Host.Outcome.next.inj h).symm⟩
    · cases h
  | memRead addr n =>
    refine .inr ⟨by simp, .inr (.inl ?_)⟩
    simp only [hostAccess] at h
    split at h
    · exact ⟨_, (Host.Outcome.next.inj h).symm⟩
    · cases h

/-- Everything a step can do (R12, R233). -/
theorem step_cases {s t : State} (h : step s = .next t) :
    (s.cmdStarted = true ∧
      ((∃ i, decode s.cmd = .ok i ∧ exec i { s with cmdStarted := false } = .next t) ∨
        ∃ e, decode s.cmd = .error e ∧ t = State.raise { s with cmdStarted := false } .illegalCommand)) ∨
      (s.cmdStarted = false ∧
        ((s.host = [] ∧ t = s) ∨ ∃ a rest, s.host = a :: rest ∧ hostAccess a { s with host := rest } = .next t)) := by
  unfold step at h
  split at h
  · rename_i hc
    refine .inl ⟨hc, ?_⟩
    unfold runCommand at h
    split at h
    · rename_i i hi
      exact .inl ⟨i, hi, h⟩
    · rename_i e he
      exact .inr ⟨e, he, (Host.Outcome.next.inj h).symm⟩
  · rename_i hc
    refine .inr ⟨by simpa using hc, ?_⟩
    split at h
    · rename_i hh
      exact .inl ⟨hh, (Host.Outcome.next.inj h).symm⟩
    · rename_i a rest hh
      exact .inr ⟨a, rest, hh, h⟩

end Sys2Proof.Machine
end

