-- ==== Sys2Proof/Laws/Stream.lean ====
section
/-! SUPPORT. What the slot of a message in progress says of the message: the AAD, the data and the output so far (42_aead.md R150 to
R153, R160), for claims over several commands. -/

namespace Sys2Proof.Machine

/-- The ciphertext of a whole string of data, in the session's direction (R145). -/
def messageCt (p : Platform) (d : Dir) (k : AesKey) (nonce data : List Byte) : List Byte :=
  match d with
  | .encrypt => gcmCrypt p k nonce data
  | .decrypt => data

@[simp] theorem gcmCrypt_length (p : Platform) (k : AesKey) (nonce data : List Byte) :
    (gcmCrypt p k nonce data).length = data.length := gctr_length ..

@[simp] theorem messageCt_length (p : Platform) (d : Dir) (k : AesKey) (nonce data : List Byte) :
    (messageCt p d k nonce data).length = data.length := by cases d <;> simp [messageCt]

/-- Slot `x` is in the middle of a message: `aad` and `data` have been absorbed and `out` has been put out. -/
structure InMessage (p : Platform) (d : Dir) (k : AesKey) (nonce aad data out : List Byte) (tagLen : Nat) (x : Slot) :
    Prop where
  inv : AeadInv x
  phase : x.phase = .aad ∨ x.phase = .data
  dir_eq : x.dir = d
  key_eq : slotKey x = k
  hkey_eq : x.hkey = aesEnc p k 0
  j0_eq : x.j0 = baseCounter p k nonce
  tagLen_eq : x.tagLen.toNat = tagLen
  tagLen_le : tagLen ≤ 16
  aadCount_eq : x.aadCount.toNat = aad.length
  dataCount_le : x.dataCount.toNat ≤ data.length
  dataBuf_eq : x.dataBuf = data.drop x.dataCount.toNat
  out_eq : out = gcmCrypt p k nonce (data.take x.dataCount.toNat)
  in_aad : x.phase = .aad → data = [] ∧ x.acc = ghashFrom x.hkey 0 (blocksOf (aad.length / 16) aad) ∧
    x.aadBuf = aad.drop (16 * (aad.length / 16))
  held_back : d = .decrypt → x.dataCount.toNat = 0 ∨ x.dataCount.toNat + tagLen ≤ data.length
  acc_eq : closedAcc x = ghashFrom x.hkey 0 (blocksOf ((aad.length + 15) / 16) (pad16 aad) ++
    blocksOf (x.dataCount.toNat / 16) (messageCt p d k nonce (data.take x.dataCount.toNat)))

/-- The hash over whole blocks and a padded rest is the hash over the padded string (R143, R151). -/
theorem ghash_close (h : Block) (a : List Byte) :
    (if a.drop (16 * (a.length / 16)) = [] then ghashFrom h 0 (blocksOf (a.length / 16) a)
      else gfMul (ghashFrom h 0 (blocksOf (a.length / 16) a) ^^^ blockOfBytes (pad16 (a.drop (16 * (a.length / 16))))) h) =
      ghashFrom h 0 (blocksOf ((a.length + 15) / 16) (pad16 a)) := by
  set m := a.length / 16 with hm
  have ha : a = a.take (16 * m) ++ a.drop (16 * m) := (List.take_append_drop _ _).symm
  have ht : (a.take (16 * m)).length = 16 * m := by
    rw [List.length_take]
    omega
  have hd : (a.drop (16 * m)).length = a.length - 16 * m := List.length_drop
  rw [← ghashFrom_pad16 (by rw [hd]; omega), ← ghashFrom_append]
  congr 1
  conv_rhs => rw [ha]
  rw [pad16_append _ (by rw [ht]; omega), ← ha,
    show (a.length + 15) / 16 = m + ((a.drop (16 * m)).length + 15) / 16 by rw [hd]; omega, blocksOf_append _ _ ht,
    blocksOf_take m (by omega)]

/-- After GCM.INIT (R149). -/
theorem inMessage_init {p : Platform} {x : Slot} {d : Dir} {key nonce aad : List Byte} {tb : Nat} {k : AesKey}
    (hl : key.length = keyBytes x.keySize) (hr : rawKey key = some k) (ha : aad.length ≤ aadMax) (h1 : 32 ≤ tb)
    (h2 : tb ≤ 128) : InMessage p d k nonce aad [] [] (tb / 8) (initSlot p x d key nonce aad tb) := by
  have hsk : slotKey { x with key := keyField key, dir := d } = k := slotKey_init rfl hl hr
  have hi := aeadInv_init (p := p) (x := x) (d := d) (key := key) (nonce := nonce) (tb := tb) ha
  rw [initSlot_closed hsk] at hi ⊢
  refine ⟨hi, .inl rfl, rfl, hsk, rfl, rfl, ?_, by omega, ?_, by simp, by simp, by simp [gcmCrypt],
    fun _ => ⟨rfl, rfl, rfl⟩, fun _ => .inl rfl, ?_⟩
  · simp only [BitVec.toNat_ofNat]
    omega
  · simp only [BitVec.toNat_ofNat]
    unfold aadMax at ha
    omega
  · simp only [closedAcc, ghash_close]
    simp [blocksOf]

/-- After an AAD command (R154, R155). -/
theorem inMessage_absorbAad {p : Platform} {d : Dir} {k : AesKey} {nonce aad data out a : List Byte} {tagLen : Nat}
    {x : Slot} (hM : InMessage p d k nonce aad data out tagLen x) (hp : x.phase = .aad)
    (hc : x.aadCount.toNat + a.length ≤ aadMax) :
    InMessage p d k nonce (aad ++ a) data out tagLen (absorbAad x a) := by
  have hi := aeadInv_absorbAad hM.inv hp hc
  have hb := hM.inv.aadBuf_short
  obtain ⟨hD, h2, h3⟩ := hM.in_aad hp
  subst hD
  have h0 : x.dataCount.toNat = 0 := by simpa using hM.dataCount_le
  rw [absorbAad_closed a (by omega)] at hi ⊢
  have hA : aad ++ a = aad.take (16 * (aad.length / 16)) ++ (x.aadBuf ++ a) := by
    rw [h3, ← List.append_assoc, List.take_append_drop]
  have ht : (aad.take (16 * (aad.length / 16))).length = 16 * (aad.length / 16) := by
    rw [List.length_take]
    omega
  have hbl : x.aadBuf.length = aad.length % 16 := by
    rw [h3, List.length_drop]
    omega
  have hdiv : (aad ++ a).length / 16 = aad.length / 16 + (x.aadBuf ++ a).length / 16 := by
    rw [List.length_append, List.length_append]
    omega
  have e1 : ghashFrom x.hkey x.acc (blocksOf ((x.aadBuf ++ a).length / 16) (x.aadBuf ++ a)) =
      ghashFrom x.hkey 0 (blocksOf ((aad ++ a).length / 16) (aad ++ a)) := by
    rw [hdiv, hA, blocksOf_append _ _ ht, ghashFrom_append, h2, blocksOf_take _ (by omega)]
  have e2 : (x.aadBuf ++ a).drop (16 * ((x.aadBuf ++ a).length / 16)) =
      (aad ++ a).drop (16 * ((aad ++ a).length / 16)) := by
    rw [hdiv, hA, Nat.mul_add, ← List.drop_drop, List.drop_left' ht]
  refine ⟨hi, .inl hp, hM.dir_eq, hM.key_eq, hM.hkey_eq, hM.j0_eq, hM.tagLen_eq, hM.tagLen_le, ?_, hM.dataCount_le,
    hM.dataBuf_eq, hM.out_eq, fun _ => ⟨rfl, e1, e2⟩, hM.held_back, ?_⟩
  · simp only
    rw [count_add (by unfold aadMax at hc; omega), hM.aadCount_eq, List.length_append]
  · simp only [closedAcc, e1, e2, ghash_close, h0]
    simp [blocksOf]

theorem take_add_append {a b : List Byte} {c u : Nat} (hc : c ≤ a.length) :
    (a ++ b).take (c + u) = a.take c ++ (a.drop c ++ b).take u := by
  have hl : (a.take c).length = c := by
    rw [List.length_take]
    omega
  conv_lhs => rw [← List.take_append_drop c a, List.append_assoc]
  rw [List.take_add, List.take_left' hl, List.drop_left' hl]

theorem drop_add_append {a b : List Byte} {c u : Nat} (hc : c ≤ a.length) :
    (a ++ b).drop (c + u) = (a.drop c ++ b).drop u := by
  have hl : (a.take c).length = c := by
    rw [List.length_take]
    omega
  conv_lhs => rw [← List.take_append_drop c a, List.append_assoc]
  rw [← List.drop_drop, List.drop_left' hl]

section
variable {p : Platform} {d : Dir} {k : AesKey} {nonce aad data out : List Byte} {tagLen : Nat} {x : Slot}
  (hM : InMessage p d k nonce aad data out tagLen x)
include hM

theorem InMessage.done_length : (data.take x.dataCount.toNat).length = x.dataCount.toNat := by
  rw [List.length_take]
  have := hM.dataCount_le
  omega

theorem InMessage.dataBuf_length : x.dataBuf.length = data.length - x.dataCount.toNat := by
  rw [hM.dataBuf_eq, List.length_drop]

/-- Counter mode of more data after what is done (R152). -/
theorem InMessage.crypt_more (e : List Byte) :
    gcmCrypt p k nonce (data.take x.dataCount.toNat ++ e) = out ++ gctr p (slotKey x) x.ctr e := by
  have hl := hM.done_length
  have hc := hM.inv.dataCount_blocks hM.phase
  rw [hM.out_eq, hM.key_eq, hM.inv.ctr_position hM.phase, hM.j0_eq]
  unfold gcmCrypt
  rw [gctr_append p k _ (n := x.dataCount.toNat / 16) e (by rw [hl]; omega), inc32Iter_inc32, Nat.add_comm]

/-- The ciphertext of more data after what is done. -/
theorem InMessage.ct_more (e : List Byte) :
    messageCt p d k nonce (data.take x.dataCount.toNat ++ e) =
      messageCt p d k nonce (data.take x.dataCount.toNat) ++ ciphertextOf p x e := by
  unfold messageCt ciphertextOf
  rw [hM.dir_eq]
  cases d
  · simp only
    rw [hM.crypt_more, hM.out_eq]
  · rfl

/-- After a data command (R156, R159). -/
theorem inMessage_absorbData {e : List Byte} (hm : x.dataCount.toNat + pending x e.length ≤ dataMax) :
    InMessage p d k nonce aad (data ++ e) (out ++ (absorbData p (enterData x) e).2) tagLen
      (absorbData p (enterData x) e).1 := by
  have hi := aeadInv_absorbData (p := p) hM.inv hM.phase hm
  have hu : uoSize x e.length ≤ pending x e.length := Nat.sub_le _ _
  have hn : (x.dataCount + BitVec.ofNat 64 (uoSize x e.length)).toNat = x.dataCount.toNat + uoSize x e.length :=
    count_add (by unfold dataMax at hm; omega)
  have hl := hM.done_length
  have hc := hM.inv.dataCount_blocks hM.phase
  have hle := uoSize_le x e.length
  have h16 := uoSize_mod x e.length
  have hbl := hM.dataBuf_length
  have hcl := hM.dataCount_le
  rw [data_closed hM.inv hM.phase] at hi ⊢
  have htk : (data ++ e).take (x.dataCount.toNat + uoSize x e.length) =
      data.take x.dataCount.toNat ++ (x.dataBuf ++ e).take (uoSize x e.length) := by
    rw [take_add_append hcl, ← hM.dataBuf_eq]
  refine ⟨hi, .inr rfl, hM.dir_eq, hM.key_eq, hM.hkey_eq, hM.j0_eq, hM.tagLen_eq, hM.tagLen_le, hM.aadCount_eq, ?_, ?_, ?_,
    (by simp), fun hd => ?_, ?_⟩
  · simp only [hn, List.length_append]
    omega
  · simp only [hn]
    rw [drop_add_append hcl, ← hM.dataBuf_eq]
  · simp only [hn]
    rw [htk, hM.crypt_more]
  · simp only [hn, List.length_append]
    have hh := hM.held_back hd
    have ht := hM.tagLen_eq
    have hu' : uoSize x e.length ≤ x.dataBuf.length + e.length - x.tagLen.toNat := by
      unfold pending at hu
      rw [hM.dir_eq, hd] at hu
      exact hu
    omega
  · have hca : ∀ a : Block, closedAcc
        { x with
          phase := .data, aadBuf := [], acc := a, ctr := inc32Iter (uoSize x e.length / 16) x.ctr,
          dataCount := x.dataCount + BitVec.ofNat 64 (uoSize x e.length),
          dataBuf := (x.dataBuf ++ e).drop (uoSize x e.length) } = a := fun _ => if_pos rfl
    rw [hca]
    simp only [hn]
    rw [htk, hM.ct_more, hM.acc_eq, ← ghashFrom_append, List.append_assoc,
      ← blocksOf_append _ _ (by rw [messageCt_length, hl]; omega)]
    congr 4
    omega

/-- What GCM.FINAL puts out, and the tag it computes (R160). -/
theorem InMessage.seal {done : List Byte} (hD : done = data.take (x.dataCount.toNat + finalLen x)) :
    out ++ (finalBlock p (enterData x)).2 = gcmCrypt p k nonce done ∧
      tagBytes (sealTag p (finalBlock p (enterData x)).1) =
        (bytesOfBlock (aesEnc p k x.j0 ^^^ ghashFrom x.hkey 0
          (blocksOf ((aad.length + 15) / 16) (pad16 aad) ++
            blocksOf ((done.length + 15) / 16) (pad16 (messageCt p d k nonce done)) ++
            [blockOfBytes (beBytes 8 (8 * aad.length) ++ beBytes 8 (8 * done.length))]))).take tagLen := by
  obtain ⟨f1, f2⟩ := finalLen_le hM.inv
  have hl := hM.done_length
  have hc := hM.inv.dataCount_blocks hM.phase
  have hbl := hM.dataBuf_length
  have hD2 : done = data.take x.dataCount.toNat ++ x.dataBuf.take (finalLen x) := by
    have := take_add_append (a := data) (b := []) (u := finalLen x) hM.dataCount_le
    rw [hD, hM.dataBuf_eq]
    simpa using this
  obtain ⟨c1, c2⟩ := final_closed (p := p) hM.inv hM.phase rfl rfl
  refine ⟨by rw [hD2, hM.crypt_more, c2], ?_⟩
  have hdl : done.length = x.dataCount.toNat + finalLen x := by
    rw [hD2, List.length_append, hl, List.length_take]
    omega
  have hlist : blocksOf ((done.length + 15) / 16) (pad16 (messageCt p d k nonce done)) =
      blocksOf (x.dataCount.toNat / 16) (messageCt p d k nonce (data.take x.dataCount.toNat)) ++
        blocksOf ((finalLen x + 15) / 16) (pad16 (ciphertextOf p x (x.dataBuf.take (finalLen x)))) := by
    rw [hdl, hD2, hM.ct_more, pad16_append _ (by rw [messageCt_length, hl]; exact hc),
      show (x.dataCount.toNat + finalLen x + 15) / 16 = x.dataCount.toNat / 16 + (finalLen x + 15) / 16 by omega,
      blocksOf_append _ _ (by rw [messageCt_length, hl]; omega)]
  rw [c1, hlist]
  unfold tagBytes
  simp only [hM.tagLen_eq, hM.key_eq]
  congr 3
  have hacc : (if x.aadBuf = [] then x.acc else gfMul (x.acc ^^^ blockOfBytes (pad16 x.aadBuf)) x.hkey) = _ := hM.acc_eq
  simp only [ghashFrom_append, ghashFrom_pad16 hM.inv.aadBuf_short] at hacc ⊢
  rw [hacc, hM.aadCount_eq, hdl]

end

/-- The hash of a padded message and its length block, block by block (R143, R147). -/
theorem ghash_message (h : Block) (a c l1 l2 : List Byte) (h1 : l1.length = 8) (h2 : l2.length = 8) :
    ghash h (pad16 a ++ pad16 c ++ l1 ++ l2) =
      ghashFrom h 0 (blocksOf ((a.length + 15) / 16) (pad16 a) ++ blocksOf ((c.length + 15) / 16) (pad16 c) ++
        [blockOfBytes (l1 ++ l2)]) := by
  unfold ghash
  have ha := pad16_length a
  have hc := pad16_length c
  have hl : (l1 ++ l2).length = 16 := by simp [h1, h2]
  have hlen : (pad16 a ++ pad16 c ++ l1 ++ l2).length / 16 = (a.length + 15) / 16 + ((c.length + 15) / 16 + 1) := by
    simp only [List.length_append, ha, hc, h1, h2]
    omega
  have hone : blocksOf 1 (l1 ++ l2) = [blockOfBytes (l1 ++ l2)] := by
    simp [blocksOf, List.take_of_length_le (Nat.le_of_eq hl)]
  rw [hlen, List.append_assoc, List.append_assoc (pad16 a), blocksOf_append _ _ (by omega),
    blocksOf_append _ _ (by omega), hone, List.append_assoc]

/-- Every way GCM.FINAL ends a message (R160, R161). -/
theorem final_outcome {h : Handle} {s t : State} {x : Slot} (hx : exec (.gcmFinal h) s = .next t)
    (he : t.err = errByte .ok ∨ t.err = errByte .authenticationFailure) (hsx : s.slot h.toNat = x) (hi : AeadInv x)
    (h16 : x.tagLen.toNat ≤ 16) :
    (x.dir = .encrypt ∧ t.err = errByte .ok ∧
        outputOf s t = (finalBlock s.cfg (enterData x)).2 ++ tagBytes (sealTag s.cfg (finalBlock s.cfg (enterData x)).1)) ∨
      (x.dir = .decrypt ∧ x.tagLen.toNat ≤ x.dataBuf.length ∧ outputOf s t = (finalBlock s.cfg (enterData x)).2 ∧
        (t.err = errByte .ok ↔
          tagBytes (sealTag s.cfg (finalBlock s.cfg (enterData x)).1) = x.dataBuf.drop (finalLen x))) ∨
      (x.dir = .decrypt ∧ x.dataBuf.length < x.tagLen.toNat ∧ outputOf s t = [] ∧
        t.err = errByte .authenticationFailure) := by
  rcases execGcmFinal_cases hx with ⟨e, rfl, hm⟩ | ⟨x', _, hr, h1, h2⟩
  · exfalso
    rcases he with he | he <;>
      (have := errByte_inj he
       subst this
       simp at hm)
  obtain ⟨_, _, _, _, rfl⟩ := (resolve_some_iff _ _ _ _).1 hr
  rw [hsx] at h1 h2
  rcases h2 with ⟨hd, hs, rfl⟩ | ⟨hns, hcap, _, r, z, rfl, rfl, hz⟩
  · exact .inr (.inr ⟨hd, hs, rfl, rfl⟩)
  have hn := toNat_ofNat_of_lt (n := oSize x 0) (by have := len32_lt s.args .arg4; omega)
  obtain ⟨c1, c2⟩ := final_closed (p := s.cfg) hi h1 rfl rfl
  have hl2 : (finalBlock s.cfg (enterData x)).2.length = finalLen x := by
    rw [c2, gctr_length, List.length_take]
    have := (finalLen_le hi).2
    omega
  have hlt : (tagBytes (sealTag s.cfg (finalBlock s.cfg (enterData x)).1)).length = x.tagLen.toNat := by
    have : (sealTag s.cfg (finalBlock s.cfg (enterData x)).1).tagLen = x.tagLen := by rw [c1]
    rw [tagBytes_length (by rw [this]; exact h16), this]
  rcases hz with ⟨hd, rfl⟩ | ⟨hd, rfl⟩
  · refine .inl ⟨hd, rfl, ?_⟩
    simp only [outputOf, finish_mem, store_mem, setSlot_mem, finish_result, hn]
    exact memRead_memWrite_of_length _ _ (by rw [List.length_append, hl2, hlt, finalOut_encrypt hd])
  · refine .inr (.inl ⟨hd, ?_, ?_, ?_⟩)
    · by_contra hc
      exact hns ⟨hd, by omega⟩
    · simp only [outputOf, finish_mem, store_mem, setSlot_mem, finish_result, hn]
      exact memRead_memWrite_of_length _ _ (by rw [hl2, finalOut_decrypt hd])
    · simp only [finish_err]
      split
      · rename_i h
        simp [h]
      · rename_i h
        simp only [h, iff_false]
        exact fun h' => by cases errByte_inj h'

/-! The checkpoint (R33, R165): what the commands of a message leave of it. -/

theorem restartSlot_absorbData (p : Platform) (x : Slot) (d : List Byte) :
    restartSlot (absorbData p (enterData x) d).1 = restartSlot x := by
  rw [absorbData_shape, enterData_shape]
  rfl

theorem restartSlot_absorbAad (x : Slot) (a : List Byte) : restartSlot (absorbAad x a) = restartSlot x := by
  rw [absorbAad_shape]
  rfl

theorem restartSlot_seal (p : Platform) (x : Slot) :
    restartSlot (sealTag p (finalBlock p (enterData x)).1) = restartSlot x := by
  rw [sealTag_shape, finalBlock_shape, enterData_shape]
  rfl

theorem restartSlot_short (x : Slot) :
    restartSlot { enterData x with dataBuf := [], tagValid := false, phase := .final } = restartSlot x := by
  rw [enterData_shape]
  rfl

theorem restartSlot_init (p : Platform) (x : Slot) (d : Dir) (key nonce aad : List Byte) (tb : Nat) :
    restartSlot (initSlot p x d key nonce aad tb) = initSlot p x d key nonce aad tb := by
  rw [initSlot_closed rfl]
  rfl

end Sys2Proof.Machine
end

