-- ==== Sys2Proof/Laws/Window.lean ====
section
/-! SUPPORT. The register window (20_memory.md R62, R63): little-endian words, argument registers by halves, and what a step is when the
host's next access is a window access. -/

namespace Sys2Proof.Machine

theorem intLe_lt (b : List Byte) : intLe b < 256 ^ b.length := by
  induction b with
  | nil => simp [intLe]
  | cons x t ih =>
    rw [intLe, List.length_cons, pow_succ]
    have := x.isLt
    omega

theorem intLe_append (a b : List Byte) : intLe (a ++ b) = intLe a + 256 ^ a.length * intLe b := by
  induction a with
  | nil => simp [intLe]
  | cons x t ih =>
    rw [List.cons_append, intLe, intLe, ih, List.length_cons, pow_succ]
    ring

/-! The halves of a 64-bit register (R63). -/

theorem append_toNat (a b : Word32) : (a ++ b).toNat = b.toNat + 2 ^ 32 * a.toNat := by
  rw [BitVec.toNat_append, ← Nat.shiftLeft_add_eq_or_of_lt b.isLt, Nat.shiftLeft_eq]
  ring

theorem append_low (a b : Word32) : (a ++ b).extractLsb' 0 32 = b := by
  apply BitVec.eq_of_toNat_eq
  rw [BitVec.extractLsb'_toNat, append_toNat, Nat.shiftRight_zero]
  have := b.isLt
  omega

theorem append_high (a b : Word32) : (a ++ b).extractLsb' 32 32 = a := by
  apply BitVec.eq_of_toNat_eq
  rw [BitVec.extractLsb'_toNat, append_toNat, Nat.shiftRight_eq_div_pow]
  have := b.isLt
  have := a.isLt
  omega

theorem high_append_low (v : Word64) : v.extractLsb' 32 32 ++ v.extractLsb' 0 32 = v := by
  apply BitVec.eq_of_toNat_eq
  rw [append_toNat, BitVec.extractLsb'_toNat, BitVec.extractLsb'_toNat, Nat.shiftRight_eq_div_pow, Nat.shiftRight_eq_div_pow]
  have := v.isLt
  omega

theorem leBytes_append (n m v : Nat) : leBytes (n + m) v = leBytes n v ++ leBytes m (v / 256 ^ n) := by
  induction n generalizing m v with
  | zero => simp [leBytes]
  | succ k ih =>
    rw [show k + 1 + m = (k + m) + 1 by omega, leBytes, leBytes, ih, pow_succ, mul_comm, ← Nat.div_div_eq_div_mul]
    simp

theorem leBytes_mod (n v : Nat) : leBytes n (v % 256 ^ n) = leBytes n v := by
  induction n generalizing v with
  | zero => rfl
  | succ k ih =>
    rw [leBytes, leBytes, pow_succ, mul_comm, Nat.mod_mul_right_div_self, ih]
    congr 1
    apply BitVec.eq_of_toNat_eq
    rw [BitVec.toNat_ofNat, BitVec.toNat_ofNat]
    exact Nat.mod_mul_right_mod _ _ _

theorem leBytes_halves (a b : Word32) : leBytes 4 b.toNat ++ leBytes 4 a.toNat = leBytes 8 (a ++ b).toNat := by
  have hb := b.isLt
  rw [show (8 : Nat) = 4 + 4 by norm_num, leBytes_append, append_toNat, ← leBytes_mod 4 (b.toNat + _)]
  have h1 : (b.toNat + 2 ^ 32 * a.toNat) % 256 ^ 4 = b.toNat := by
    norm_num
    omega
  have h2 : (b.toNat + 2 ^ 32 * a.toNat) / 256 ^ 4 = a.toNat := by
    norm_num
    omega
  rw [h1, h2]

/-! The argument registers (R62). -/

theorem argAtOffset_argOffset (r : ArgReg) :
    argAtOffset (argOffset r) = some r ∧ argAtOffset (argOffset r + 4) = some r ∧ argOffset r % 8 = 0 ∧
      16 ≤ argOffset r := by
  cases r <;> decide

theorem argAtOffset_none {off : Nat} (h : off < 16 ∨ 72 ≤ off) : argAtOffset off = none := by
  unfold argAtOffset
  split <;> first | omega | rfl

@[simp] theorem getArg_setArg (a : Args) (r : ArgReg) (v : Word64) : getArg (setArg a r v) r = v := by cases r <;> rfl

theorem getArg_setArg_other (a : Args) {r q : ArgReg} (v : Word64) (h : q ≠ r) :
    getArg (setArg a r v) q = getArg a q := by
  cases r <;> cases q <;> first | rfl | exact absurd rfl h

@[simp] theorem setArg_setArg (a : Args) (r : ArgReg) (v w : Word64) : setArg (setArg a r v) r w = setArg a r w := by
  cases r <;> rfl

theorem writeWord_arg_low (s : State) (r : ArgReg) (w : Word32) :
    writeWord s (argOffset r) w = { s with args := setArg s.args r ((getArg s.args r).extractLsb' 32 32 ++ w) } := by
  obtain ⟨h1, h2, h3, h4⟩ := argAtOffset_argOffset r
  unfold writeWord setHalfAt
  rw [if_neg (by omega), h1]
  simp only
  rw [if_neg (by omega)]

theorem writeWord_arg_high (s : State) (r : ArgReg) (w : Word32) :
    writeWord s (argOffset r + 4) w = { s with args := setArg s.args r (w ++ (getArg s.args r).extractLsb' 0 32) } := by
  obtain ⟨h1, h2, h3, h4⟩ := argAtOffset_argOffset r
  unfold writeWord setHalfAt
  rw [if_neg (by omega), h2]
  simp only
  rw [if_pos (by omega)]

theorem writeWord_ignored (s : State) {off : Nat} (w : Word32) (h : 0 < off ∧ off < 16 ∨ 72 ≤ off) :
    writeWord s off w = s := by
  unfold writeWord
  rw [if_neg (by omega), argAtOffset_none (by omega)]

theorem windowWord_arg (s : State) (r : ArgReg) :
    windowWord s (argOffset r) = (getArg s.args r).extractLsb' 0 32 ∧
      windowWord s (argOffset r + 4) = (getArg s.args r).extractLsb' 32 32 := by
  obtain ⟨h1, h2, h3, h4⟩ := argAtOffset_argOffset r
  constructor
  · unfold windowWord halfAt
    rw [if_neg (by omega), if_neg (by omega), if_neg (by omega), h1]
    simp only
    rw [if_neg (by omega)]
  · unfold windowWord halfAt
    rw [if_neg (by omega), if_neg (by omega), if_neg (by omega), h2]
    simp only
    rw [if_pos (by omega)]

theorem windowWord_reserved (s : State) {off : Nat} (h : off = 12 ∨ 80 ≤ off) : windowWord s off = 0 := by
  unfold windowWord
  rw [if_neg (by omega), if_neg (by omega), if_neg (by omega), argAtOffset_none (by omega)]
  simp only
  rw [if_neg (by omega)]

/-! Steps of the host. -/

theorem windowOffset_of_at {s : State} {addr : Word64} {off : Nat} (h : AtOffset s addr off) :
    windowOffset s.cfg addr = some off := by
  obtain ⟨h1, h2⟩ := h
  unfold windowOffset
  rw [if_pos (by omega), h1]
  simp

theorem step_windowWrite {s : State} {addr : Word64} {bytes : List Byte} {rest : List HostAccess} {off : Nat}
    (h : AtOffset s addr off) (hn : HostNext s (.windowWrite addr bytes) rest) :
    step s =
      if accessLegal off bytes.length then .next (windowStore { s with host := rest } off bytes)
      else .refused .hostBusError := by
  unfold step
  rw [hn.1, hn.2]
  simp only [Bool.false_eq_true, if_false, hostAccess]
  rw [show windowOffset s.cfg addr = some off from windowOffset_of_at h]

theorem step_windowRead {s : State} {addr : Word64} {n : Nat} {rest : List HostAccess} {off : Nat}
    (h : AtOffset s addr off) (hn : HostNext s (.windowRead addr n) rest) :
    step s =
      if accessLegal off n then
        .next { s with host := rest, busReply := windowLoad { s with host := rest } off n }
      else .refused .hostBusError := by
  unfold step
  rw [hn.1, hn.2]
  simp only [Bool.false_eq_true, if_false, hostAccess]
  rw [show windowOffset s.cfg addr = some off from windowOffset_of_at h]

end Sys2Proof.Machine
end

