-- ==== Sys2Proof/Tests/Slice0.lean ====
section
/-! SUPPORT. Tests of the model, with results from 95_test_vectors.md (each test's docstring names the row), CMD words written out
from the pattern of 30_encoding.md R81, and for every obligation with hypotheses a witness that meets them. -/

namespace Sys2Proof.Tests

open Sys2Proof Sys2Proof.Machine

-- One theorem at a time: many at once each hold a thread and its stack, past the memory limit.
set_option Elab.async false

/-! The test platform: the premises at the head of 95_test_vectors.md. -/

def plat : Platform :=
  ⟨3, ⟨.wide256, false, true⟩, ⟨true, true, true, true, true, true⟩, [⟨0, 0x10000⟩], 0x40000000, .fips197⟩

/-- `n` bytes from a hexadecimal number, byte 0 first. -/
def hex (n v : Nat) : List Byte := beBytes n v

def A (l : List Nat) : Args :=
  let v := fun i => BitVec.ofNat 64 (l.getD i 0)
  ⟨v 0, v 1, v 2, v 3, v 4, v 5, v 6⟩

/-- CB1's first two plaintext and ciphertext blocks (95, 1.2). -/
def cbPlain : List Byte := hex 32 0x6bc1bee22e409f96e93d7e117393172aae2d8a571e03ac9c9eb76fac45af8e51
def cbCipher : List Byte := hex 32 0x7649abac8119b246cee98e9b12e9197d5086cb9b507219ee95db113a917678b2

/-- The 33 output bytes of row G27 (95, 2.5). -/
def gOut : List Byte := hex 33 0x936da5cd621ef15343db6b813aae7e07a36eefae2b3dd4b0949e66b7362fc74a1b

/-- The memory of 95, 2.5 (key, which is also the CBC vectors' IV, at 0x100; nonce 0x120; AAD 0x140; data 0x200), the CBC vectors'
key at 0x180, plaintext at 0x280 and ciphertext at 0x500, and the decrypt vectors' input at 0x700. -/
def image : Memory :=
  memWrite (memWrite (memWrite (memWrite (memWrite (memWrite (memWrite (memWrite [] 0x100
    (hex 16 0x000102030405060708090a0b0c0d0e0f)) 0x120 (hex 12 0x000102030405060708090a0b)) 0x140 (hex 3 0xa0a1a2)) 0x180
    (hex 16 0x2b7e151628aed2a6abf7158809cf4f3c)) 0x200 (hex 17 0x000102030405060708090a0b0c0d0e0f10)) 0x280 cbPlain) 0x500
    cbCipher) 0x700 gOut

/-- The state after a command with these argument registers. -/
def issue (s : State) (i : Instr) (l : List Nat) : State :=
  match exec i { s with args := A l } with
  | .next t => t
  | .fault _ => s
  | .refused _ => s

/-- STATUS.ERR and RESULT. -/
def outcome (s : State) : Nat × Nat := (s.err.toNat, s.result.toNat)

/-- The state with these argument registers. -/
def load (s : State) (l : List Nat) : State := { s with args := A l }

/-- A fresh machine of the test platform. -/
def fresh : State := State.launch plat image []

/-- Four sessions after CREATE: 1 CBC encrypt, 2 CBC decrypt, 3 AEAD encrypt, 4 AEAD decrypt, 16-byte keys. -/
def created : State :=
  { fresh with
    sess := [(1, createdSlot .cbc .encrypt .b16 .wide), (2, createdSlot .cbc .decrypt .b16 .wide),
      (3, createdSlot .aead .encrypt .b16 .wide), (4, createdSlot .aead .decrypt .b16 .wide)] }

def cbcArgs : List Nat := [0x180, 16, 0x100, 16]
def gcmArgs : List Nat := [0x100, 16, 0x120, 12, 0x140, 3, 128]

/-- The four sessions after their INIT (rows B8, G18 of 95). -/
def ready : State :=
  issue (issue (issue (issue created (.cbcInit 1) cbcArgs) (.cbcInit 2) cbcArgs) (.gcmInit 3 .encrypt) gcmArgs)
    (.gcmInit 4 .decrypt) gcmArgs

/-- With 17 bytes of data fed to session 3 and 33 to session 4 (row G23; V1 to V4 in one). -/
def fed : State :=
  issue (issue ready (.gcmBytes 3) [0x200, 17, 0, 0x300, 16]) (.gcmBytes 4) [0x700, 33, 0, 0x800, 16]

/-- With both messages finished (rows G27, V6). -/
def done : State := issue (issue fed (.gcmFinal 3) [0, 0, 0, 0x310, 17]) (.gcmFinal 4) [0, 0, 0, 0x810, 1]

/-! Well-formedness: an ill-formed term for each check. -/

theorem test_wf_len32 : WellFormed (.gcmUosize 2) (A [0, 0x100000000]) = false := by decide
theorem test_wf_byte8 : WellFormed (.gcmAadByte 2) (A [0x100]) = false := by decide
theorem test_wf_ignored : WellFormed (.gcmUosize 2) (A [0x100000000, 0xFFFFFFFF]) = true := by decide

/-! Decoding: words written out from `HHHHHHHHHHHHHHHH RRRR MM K D OOOOOOOO` (R81) and the opcodes of R82. -/

theorem test_decode_caps : decode 0b00000000000000000000000000000001 = .ok (.caps) := by decide
theorem test_decode_create : decode 0b00000000000000000000010100000010 = .ok (.create .decrypt .aead) := by decide
theorem test_decode_create_cbc : decode 0b00000000000000000000000000000010 = .ok (.create .encrypt .cbc) := by decide
theorem test_decode_dispose : decode 0b00000000000000100000000000000011 = .ok (.dispose 2) := by decide
theorem test_decode_blksz : decode 0b00000000000000000000000000000100 = .ok (.blksz) := by decide
theorem test_decode_cbcInit : decode 0b00000000000000010000000000010000 = .ok (.cbcInit 1) := by decide
theorem test_decode_cbcProcess : decode 0b00000000000000010000000000010001 = .ok (.cbcProcess 1) := by decide
theorem test_decode_cbcReset : decode 0b10000000000000000000000000010010 = .ok (.cbcReset 0x8000) := by decide
theorem test_decode_gcmInit : decode 0b00000000000000010000000100100000 = .ok (.gcmInit 1 .decrypt) := by decide
theorem test_decode_gcmAadByte : decode 0b00000000000000010000000000100001 = .ok (.gcmAadByte 1) := by decide
theorem test_decode_gcmAadBytes : decode 0b00000000000000010000000000100010 = .ok (.gcmAadBytes 1) := by decide
theorem test_decode_gcmByte : decode 0b00000000000000010000000000100011 = .ok (.gcmByte 1) := by decide
theorem test_decode_gcmBytes : decode 0b00000000000000010000000000100100 = .ok (.gcmBytes 1) := by decide
theorem test_decode_gcmFinal : decode 0b00000000000000010000000000100101 = .ok (.gcmFinal 1) := by decide
theorem test_decode_gcmUosize : decode 0b11111111111111110000000000100110 = .ok (.gcmUosize 0xFFFF) := by decide
theorem test_decode_gcmOsize : decode 0b00000000000000010000000000100111 = .ok (.gcmOsize 1) := by decide
theorem test_decode_gcmMac : decode 0b00000000000000010000000000101000 = .ok (.gcmMac 1) := by decide
theorem test_decode_gcmReset : decode 0b00000000000000010000001000101001 = .ok (.gcmReset 1 true) := by decide

/-- Rows E1, E2, E4, E3, E6, E5 of 95: each reserved encoding by its name. -/
theorem test_decode_errors :
    decode 0x00000000 = .error .reservedOp ∧ decode 0x00000005 = .error .reservedOp ∧
      decode 0x00001004 = .error .reservedBits ∧ decode 0x00010001 = .error .unusedField ∧
      decode 0x00010110 = .error .unusedField ∧ decode 0x00000802 = .error .reservedMode ∧
      decode 0x00000C02 = .error .reservedMode := by decide

/-- The table word of the host's interface. -/
theorem test_tableWord : decodeTableWord 32 0x00010229 = some (.gcmReset 1 true) ∧ decodeTableWord 32 0 = none := by decide

/-! The block primitive and the algebra (95, 1.2 and 2.4). -/

/-- Rows K1, K2, K3, and K1 backwards. -/
theorem test_aes :
    aesEnc plat (.k128 0x000102030405060708090a0b0c0d0e0f) 0x00112233445566778899aabbccddeeff =
        0x69c4e0d86a7b0430d8cdb78070b4c55a ∧
      aesEnc plat (.k192 0x000102030405060708090a0b0c0d0e0f1011121314151617) 0x00112233445566778899aabbccddeeff =
        0xdda97ca4864cdfe06eaf70a0ec0d7191 ∧
      aesEnc plat (.k256 0x000102030405060708090a0b0c0d0e0f101112131415161718191a1b1c1d1e1f)
        0x00112233445566778899aabbccddeeff = 0x8ea2b7ca516745bfeafc49904b496089 ∧
      aesDec plat (.k128 0x000102030405060708090a0b0c0d0e0f) 0x69c4e0d86a7b0430d8cdb78070b4c55a =
        0x00112233445566778899aabbccddeeff := by decide +kernel

/-- Rows A1, A2, A3, A4. -/
theorem test_algebra :
    gfMul 1 (0x40#128 <<< 120) = 0xe1#128 <<< 120 ∧ gfMul (0x40#128 <<< 120) (0x40#128 <<< 120) = 0x20#128 <<< 120 ∧
      inc32 0x000102030405060708090a0bffffffff = 0x000102030405060708090a0b00000000 ∧
      inc32 0xffffffffffffffffffffffff7ffffffe = 0xffffffffffffffffffffffff7fffffff := by decide +kernel

/-- Rows A7, A8. -/
theorem test_deriveJ0 :
    baseCounter plat (.k128 0xfeffe9928665731c6d6a8f9467308308) (hex 8 0xcafebabefacedbad) =
        0xc43a83c4c4badec4354ca984db252f7d ∧
      baseCounter plat (.k128 0) [0] = 0xd326e5c0a72a570d9692017ee375c24b := by decide +kernel

/-- P60 and A20 of 95, 1.2. -/
def p60 : List Byte :=
  hex 60 0xd9313225f88406e5a55909c5aff5269a86a7a9531534f7da2e4c303d8a318a721c3c0c95956809532fcf0e2449a6b525b16aedf5aa0de657ba637b39
def a20 : List Byte := hex 20 0xfeedfacedeadbeeffeedfacedeadbeefabaddad2

/-- Row G6: a 60-byte nonce, AAD and data that end in partial blocks. -/
theorem test_gcm_tc6 :
    let k : AesKey := .k128 0xfeffe9928665731c6d6a8f9467308308
    let n := hex 60 0x9313225df88406e555909c5aff5269aa6a7a9538534f7da1e4c303d2a318a728c3c0c95156809539fcf0e2429a6b525416aedbf5a0de6a57a637b39b
    let c := hex 60 0x8ce24998625615b603a033aca13fb894be9112a5c3a211a8ba262a3cca7e2ca701e4a9a4fba43c90ccdcb281d48c7c6fd62875d2aca417034c34aee5
    gcmCrypt plat k n p60 = c ∧ gcmTag plat k n a20 c 16 = hex 16 0x619cc5aefffe0bfa462af43c1699d050 := by decide +kernel

/-! One command each. -/

/-- Row DS1. -/
theorem test_caps : outcome (issue fresh .caps []) = (0, 0x13) := by decide +kernel

/-- Row DS2. -/
theorem test_blksz : outcome (issue fresh .blksz []) = (0, 0x10) := by decide +kernel

/-- Rows DS5, DS4, DS3. -/
theorem test_create :
    outcome (issue fresh (.create .encrypt .cbc) [16]) = (0, 0x20001) ∧
      outcome (issue fresh (.create .encrypt .cbc) [0x100000010]) = (7, 0) ∧
      outcome (issue fresh (.create .encrypt .cbc) [20]) = (7, 0) := by decide +kernel

/-- R6, and row W6: the table's default, and one entry false. -/
theorem test_wideOk_default :
    ({} : WideTable) = ⟨true, true, true, true, true, true⟩ ∧ wideOk { aead24 := false } .aead .b24 = false ∧
      wideOk { aead24 := false } .aead .b16 = true := by decide

/-- Row DS6. -/
theorem test_create_full : outcome (issue created (.create .encrypt .cbc) [16]) = (10, 0) := by decide +kernel

/-- Rows W1 to W4, WIDE_OK true and false. -/
theorem test_path :
    let yes : WideTable := plat.wideOk
    let no : WideTable := ⟨false, false, false, false, false, false⟩
    selectPath 0x00 yes .cbc .b16 = .soft ∧ selectPath 0x01 yes .cbc .b16 = .narrow ∧
      selectPath 0x03 yes .cbc .b16 = .wide ∧ selectPath 0x05 yes .cbc .b16 = .wide ∧
      selectPath 0x05 no .cbc .b16 = .narrow := by decide

/-- Rows DS7, DS11, DS10. -/
theorem test_dispose :
    outcome (issue created (.dispose 2) []) = (0, 0) ∧ (issue created (.dispose 2) []).slot 2 = Slot.free ∧
      outcome (issue created (.dispose 5) []) = (9, 0) ∧ outcome (issue created (.dispose 0) []) = (9, 0) := by
  decide +kernel

/-- Row B8. -/
theorem test_cbcInit :
    let t := issue created (.cbcInit 1) cbcArgs
    outcome t = (0, 0) ∧ (t.slot 1).phase = .ready ∧ (t.slot 1).chain = 0x000102030405060708090a0b0c0d0e0f ∧
      slotKey (t.slot 1) = .k128 0x2b7e151628aed2a6abf7158809cf4f3c := by decide +kernel

/-- Rows B6, B5, B7. -/
theorem test_cbcInit_errors :
    outcome (issue created (.cbcInit 1) [0x180, 24, 0x100, 12]) = (1, 0) ∧
      outcome (issue created (.cbcInit 1) [0x180, 16, 0x100, 12]) = (2, 0) ∧
      outcome (issue created (.cbcInit 1) [0x180, 16, 0xfff8, 16]) = (13, 0) := by decide +kernel

/-- Row B16. -/
theorem test_cbcProcess :
    let t := issue ready (.cbcProcess 1) [0x280, 32, 2, 0x400, 40]
    outcome t = (0, 0x20) ∧ memRead t.mem 0x400 40 = cbCipher ++ List.replicate 8 0 ∧
      (t.slot 1).chain = 0x5086cb9b507219ee95db113a917678b2 := by decide +kernel

/-- Row B19: the output overlaps the input. -/
theorem test_cbcProcess_overlap :
    let t := issue ready (.cbcProcess 2) [0x500, 32, 2, 0x508, 32]
    outcome t = (0, 0x20) ∧ memRead t.mem 0x508 32 = cbPlain := by decide +kernel

/-- Rows B15, B2. -/
theorem test_cbcReset :
    let t := issue ready (.cbcProcess 1) [0x280, 16, 1, 0x400, 16]
    (t.slot 1).chain = 0x7649abac8119b246cee98e9b12e9197d ∧
      ((issue t (.cbcReset 1) []).slot 1).chain = 0x000102030405060708090a0b0c0d0e0f ∧
      outcome (issue created (.cbcReset 1) []) = (4, 0) := by decide +kernel

/-- Row G18. -/
theorem test_gcmInit :
    let x := ready.slot 3
    x.phase = .aad ∧ x.hkey = 0xc6a13b37878f5b826f4f8162a1c8d879 ∧ x.j0 = 0x000102030405060708090a0b00000001 ∧
      x.ctr = 0x000102030405060708090a0b00000002 ∧ x.aadBuf = hex 3 0xa0a1a2 ∧ x.aadCount = 3 := by decide +kernel

/-- Rows G14, G15, G16, G17. -/
theorem test_gcmInit_errors :
    outcome (issue created (.gcmInit 3 .encrypt) [0x100, 16, 0x120, 0, 0x140, 3, 128]) = (2, 0) ∧
      outcome (issue created (.gcmInit 3 .encrypt) [0x100, 16, 0x120, 12, 0x140, 3, 24]) = (3, 0) ∧
      outcome (issue created (.gcmInit 3 .encrypt) [0x100, 16, 0x120, 12, 0x140, 3, 136]) = (3, 0) ∧
      outcome (issue created (.gcmInit 3 .encrypt) [0x100, 32, 0x120, 12, 0x140, 3, 128]) = (1, 0) ∧
      outcome (issue created (.gcmInit 3 .encrypt) [0x100, 16, 0x120, 12, 0xffff, 2, 128]) = (13, 0) := by decide +kernel

/-- Session 3 of `ready` with these counts. -/
def counted (aad data : Nat) : State :=
  ready.setSlot 3 { ready.slot 3 with aadCount := BitVec.ofNat 64 aad, dataCount := BitVec.ofNat 64 data }

/-- Rows LM10, LM11. -/
theorem test_gcmAadByte :
    outcome (issue (counted (2 ^ 61 - 2) 0) (.gcmAadByte 3) [7]) = (0, 0) ∧
      outcome (issue (counted (2 ^ 61 - 1) 0) (.gcmAadByte 3) [7]) = (12, 0) ∧
      ((issue ready (.gcmAadByte 3) [0xa3]).slot 3).aadBuf = hex 4 0xa0a1a2a3 := by decide +kernel

/-- Program P2, steps 2 and 3. -/
def p2 : State :=
  let s := { State.launch plat (memWrite (memWrite (memWrite [] 0 (hex 16 0xfeffe9928665731c6d6a8f9467308308)) 0x10
      (hex 12 0xcafebabefacedbaddecaf888)) 0x20 a20) [] with sess := [(1, createdSlot .aead .encrypt .b16 .wide)] }
  issue (issue s (.gcmInit 1 .encrypt) [0, 16, 0x10, 12, 0x20, 7, 128]) (.gcmAadBytes 1) [0x27, 13]

theorem test_gcmAadBytes :
    (p2.slot 1).acc = 0xed56aaf8a72d67049fdb9228edba1322 ∧ (p2.slot 1).aadBuf = hex 4 0xabaddad2 ∧
      (p2.slot 1).aadCount = 20 := by decide +kernel

/-- Row SE1: the 16th byte writes the first ciphertext block. -/
theorem test_gcmByte :
    let s := issue ready (.gcmBytes 3) [0x200, 15, 0, 0x300, 0]
    outcome s = (0, 0) ∧ outcome (issue s (.gcmByte 3) [0x0f, 0, 0, 0x300, 15]) = (5, 0) ∧
      outcome (issue s (.gcmByte 3) [0x0f, 0, 0, 0x300, 16]) = (0, 16) ∧
      memRead (issue s (.gcmByte 3) [0x0f, 0, 0, 0x300, 16]).mem 0x300 16 = gOut.take 16 := by decide +kernel

/-- Rows LM1, LM3. -/
theorem test_gcmBytes_limit :
    outcome (issue (counted 0 (2 ^ 36 - 48)) (.gcmBytes 3) [0x200, 16, 0, 0x300, 16]) = (0, 16) ∧
      outcome (issue (counted 0 (2 ^ 36 - 32)) (.gcmBytes 3) [0x200, 15, 0, 0x300, 16]) = (12, 0) := by decide +kernel

/-- Rows G23, Z1, and V1 to V4 in one. -/
theorem test_gcmBytes :
    memRead fed.mem 0x300 16 = gOut.take 16 ∧ (fed.slot 3).phase = .data ∧ (fed.slot 3).dataBuf = [0x10] ∧
      outcome fed = (0, 16) ∧ memRead fed.mem 0x800 16 = hex 16 0x000102030405060708090a0b0c0d0e0f ∧
      (fed.slot 4).dataBuf.length = 17 ∧ ((issue ready (.gcmBytes 3) [0x200, 0]).slot 3).phase = .aad := by decide +kernel

/-- Rows G27, V6. -/
theorem test_gcmFinal :
    memRead done.mem 0x300 33 = gOut ∧ (done.slot 3).phase = .final ∧ outcome done = (0, 1) ∧
      memRead done.mem 0x810 1 = [0x10] := by decide +kernel

/-- Rows T3 (the last tag byte flipped) and V8 (a stream shorter than the tag). -/
theorem test_gcmFinal_tampered :
    let s := issue { ready with mem := memWrite ready.mem 0x720 [0x1a] } (.gcmBytes 4) [0x700, 33, 0, 0x800, 16]
    outcome (issue s (.gcmFinal 4) [0, 0, 0, 0x810, 1]) = (6, 1) ∧
      outcome (issue (issue ready (.gcmBytes 4) [0x700, 10]) (.gcmFinal 4) []) = (6, 0) := by decide +kernel

/-- Row G20 and the size table of 95, 2.6. -/
theorem test_gcmUosize :
    outcome (issue ready (.gcmUosize 3) [0, 17]) = (0, 0x10) ∧ outcome (issue ready (.gcmUosize 4) [0, 31]) = (0, 0) ∧
      outcome (issue ready (.gcmUosize 4) [0, 32]) = (0, 16) ∧ outcome (issue created (.gcmUosize 3) [0, 0]) = (4, 0) := by
  decide +kernel

/-- Row G21 and the size table of 95, 2.6. -/
theorem test_gcmOsize :
    outcome (issue ready (.gcmOsize 3) [0, 17]) = (0, 0x21) ∧ outcome (issue ready (.gcmOsize 4) [0, 16]) = (0, 0) ∧
      outcome (issue ready (.gcmOsize 4) [0, 31]) = (0, 15) ∧ outcome (issue ready (.gcmOsize 4) [0, 33]) = (0, 17) := by
  decide +kernel

/-- Rows G31, G30, V7, G19. -/
theorem test_gcmMac :
    outcome (issue done (.gcmMac 3) [0, 0, 0, 0x400, 16]) = (0, 0x10) ∧
      memRead (issue done (.gcmMac 3) [0, 0, 0, 0x400, 16]).mem 0x400 16 = gOut.drop 17 ∧
      outcome (issue done (.gcmMac 3) [0, 0, 0, 0x400, 15]) = (5, 0) ∧
      outcome (issue done (.gcmMac 4) [0, 0, 0, 0x400, 16]) = (4, 0) ∧
      outcome (issue ready (.gcmMac 3) [0, 0, 0, 0x400, 16]) = (4, 0) := by decide +kernel

/-- Rows G33, G12, V10, V11. -/
theorem test_gcmReset :
    (issue done (.gcmReset 3 true) []).slot 3 = ready.slot 3 ∧ outcome (issue created (.gcmReset 3 true) []) = (4, 0) ∧
      (issue done (.gcmReset 4 false) []).slot 4 = created.slot 4 ∧
      outcome (issue (issue done (.gcmReset 4 false) []) (.gcmUosize 4) []) = (4, 0) := by decide +kernel

/-- Rows E7, E8, DS12. -/
theorem test_refused_operands :
    outcome (issue created (.gcmUosize 2) [0, 0x100000000]) = (11, 0) ∧
      outcome (issue created (.gcmAadByte 2) [0x100]) = (11, 0) ∧ outcome (issue created (.cbcReset 3) []) = (9, 0) := by
  decide +kernel

/-! The machine's steps. -/

/-- A machine whose host has these accesses to make. -/
def hosted (l : List HostAccess) : State := { fresh with host := l }

/-- The state after a step. -/
def stepped (s : State) : State :=
  match step s with
  | .next t => t
  | .fault _ => s
  | .refused _ => s

/-- R63: the lowest address holds bits 7:0; a half of ARG0 is written alone; the CMD write starts the command. -/
theorem test_window :
    (stepped (hosted [.windowWrite 0x40000014 [0x78, 0x56, 0x34, 0x12]])).args.arg0 = 0x1234567800000000 ∧
      (stepped (hosted [.windowWrite 0x40000000 [1, 0, 0, 0]])).cmd = 1 ∧
      (stepped (hosted [.windowWrite 0x40000000 [1, 0, 0, 0]])).cmdStarted = true ∧
      (stepped (stepped (hosted [.windowWrite 0x40000000 [1, 0, 0, 0]]))).result = 0x13 ∧
      (stepped (hosted [.windowRead 0x40000008 4])).busReply = [0x13, 0, 0, 0] := by decide +kernel

theorem test_window_refused :
    (match step (hosted [.windowWrite 0x40000002 [0, 0, 0, 0]]) with
      | .refused r => r = .hostBusError
      | _ => False) ∧
      (match step (hosted [.windowRead 0x40000000 8]) with
        | .refused r => r = .hostBusError
        | _ => False) ∧
      (match step (hosted [.windowRead 0x40000100 4]) with
        | .refused r => r = .outsideWindow
        | _ => False) ∧
      (match step (hosted [.memRead 0xFFFFFFFFFFFFFFFF 2]) with
        | .fault f => f = .noSuchAddress
        | _ => False) := by
  refine ⟨?_, ?_, ?_, ?_⟩ <;> rfl

/-- The host's interface: each row's word is executed by the first step after reset. -/
theorem test_fetch :
    (∃ t, step (State.reset.withFetchWord 32 0x00000001) = .next t) ∧
      (∃ t, step (State.reset.withFetchWord 32 0x00000502) = .next t) ∧
      (∃ t, step (State.reset.withFetchWord 32 0x00010003) = .next t) ∧
      (∃ t, step (State.reset.withFetchWord 32 0x00000004) = .next t) ∧
      (∃ t, step (State.reset.withFetchWord 32 0x00010010) = .next t) ∧
      (∃ t, step (State.reset.withFetchWord 32 0x00010011) = .next t) ∧
      (∃ t, step (State.reset.withFetchWord 32 0x00010012) = .next t) ∧
      (∃ t, step (State.reset.withFetchWord 32 0x00010120) = .next t) ∧
      (∃ t, step (State.reset.withFetchWord 32 0x00010021) = .next t) ∧
      (∃ t, step (State.reset.withFetchWord 32 0x00010022) = .next t) ∧
      (∃ t, step (State.reset.withFetchWord 32 0x00010023) = .next t) ∧
      (∃ t, step (State.reset.withFetchWord 32 0x00010024) = .next t) ∧
      (∃ t, step (State.reset.withFetchWord 32 0x00010025) = .next t) ∧
      (∃ t, step (State.reset.withFetchWord 32 0x00010026) = .next t) ∧
      (∃ t, step (State.reset.withFetchWord 32 0x00010027) = .next t) ∧
      (∃ t, step (State.reset.withFetchWord 32 0x00010028) = .next t) ∧
      (∃ t, step (State.reset.withFetchWord 32 0x00010229) = .next t) := by
  refine ⟨⟨_, rfl⟩, ⟨_, rfl⟩, ⟨_, rfl⟩, ⟨_, rfl⟩, ⟨_, rfl⟩, ⟨_, rfl⟩, ⟨_, rfl⟩, ⟨_, rfl⟩, ⟨_, rfl⟩, ⟨_, rfl⟩, ⟨_, rfl⟩, ⟨_, rfl⟩, ⟨_, rfl⟩, ⟨_, rfl⟩, ⟨_, rfl⟩, ⟨_, rfl⟩, ⟨_, rfl⟩⟩

/-! Witnesses: states and operands that meet the hypotheses of the obligations. -/

/-- The state after a command. -/
def after (i : Instr) (s : State) : State :=
  match exec i s with
  | .next t => t
  | .fault _ => s
  | .refused _ => s

/-- The command ends in a next state whose STATUS.ERR is `e`. -/
def endsIn (e : Byte) (i : Instr) (s : State) : Bool :=
  match exec i s with
  | .next t => t.err == e
  | .fault _ => false
  | .refused _ => false

theorem exec_after {e : Byte} {i : Instr} {s : State} (h : endsIn e i s = true) :
    exec i s = .next (after i s) ∧ (after i s).err = e := by
  unfold endsIn at h
  unfold after
  cases hx : exec i s with
  | next t => rw [hx] at h; exact ⟨rfl, by simpa using h⟩
  | fault f => rw [hx] at h; cases h
  | refused r => rw [hx] at h; cases h

theorem runs {i : Instr} {s : State} (h : endsIn 0 i s = true) : RunsOk i s (after i s) := exec_after h

theorem between_load {h : Handle} {s : State} {l : List Nat} : Between h s (load s l) := ⟨rfl, rfl⟩

theorem cbcFeed_cast {h : Handle} {s t : State} {i j o : List Byte} (e : i = j) (f : CbcFeed h s i o t) : CbcFeed h s j o t :=
  e ▸ f

theorem gcmFeed_cast {h : Handle} {s t : State} {a i j o : List Byte} (e : i = j) (f : GcmFeed h s a i o t) :
    GcmFeed h s a j o t := e ▸ f

/-- The state with another session table. -/
def withSess (s : State) (l : SessTable) : State := { s with sess := l }

theorem withSess_kept {s : State} {l : SessTable} :
    (withSess s l).args = s.args ∧ (withSess s l).mem = s.mem ∧ (withSess s l).cfg = s.cfg := ⟨rfl, rfl, rfl⟩

theorem names {s : State} {h : Handle} {m : Mode}
    (hc : (0 < h.toNat ∧ h.toNat ≤ numSessions s.cfg) ∧ (s.slot h.toNat).alloc = true ∧ (s.slot h.toNat).mode = m) :
    Names s h m (s.slot h.toNat) := ⟨hc.1.1, hc.1.2, rfl, hc.2.1, hc.2.2⟩

/-- The invariants of an AEAD slot, computed. -/
def aeadInvB (x : Slot) : Bool :=
  decide (x.aadBuf.length ≤ 15) && decide (0 < x.aadBuf.length → x.phase = .aad) &&
    decide (0 < x.dataBuf.length → x.phase = .data) &&
    decide (x.dataBuf.length ≤ (match x.dir with | .encrypt => 15 | .decrypt => 15 + x.tagLen.toNat)) &&
    decide (x.phase = .aad ∨ x.phase = .data → x.dataCount.toNat % 16 = 0) && decide (x.aadCount.toNat ≤ aadMax) &&
    decide (x.dataCount.toNat + pending x 0 ≤ dataMax) && decide (x.tagValid = true → x.phase = .final) &&
    decide (x.phase = .aad ∨ x.phase = .data → x.ctr = inc32Iter (1 + x.dataCount.toNat / 16) x.j0)

theorem aeadInv {x : Slot} (h : aeadInvB x = true) : AeadInv x := by
  simp only [aeadInvB, Bool.and_eq_true, decide_eq_true_eq] at h
  obtain ⟨⟨⟨⟨⟨⟨⟨⟨a, b⟩, c⟩, d⟩, e⟩, f⟩, g⟩, i⟩, j⟩ := h
  exact ⟨a, b, c, d, e, f, g, i, j⟩

theorem witness_DecodeOnlyEncodings : ∃ w i, decode w = .ok i := ⟨0x10229, .gcmReset 1 true, by decide⟩

theorem witness_StepRunsDecodedCommand : ∃ (s : State) (i : Instr), s.cmdStarted = true ∧ decode s.cmd = .ok i :=
  ⟨fresh.withFetchWord 32 0x10229, .gcmReset 1 true, rfl, by decide +kernel⟩

/-- The state with this CMD word started. -/
def cmd (w : Nat) : State := fresh.withFetchWord 32 w

theorem witness_IllegalEncodingsChangeNothing :
    ((cmd 0).cmdStarted = true ∧ ∀ op : Op, (cmd 0).cmd.extractLsb' 0 8 ≠ op.code) ∧
      (∀ op : Op, (cmd 0x2A).cmd.extractLsb' 0 8 ≠ op.code) ∧ (cmd 0x1004).cmd.extractLsb' 12 4 ≠ 0 ∧
      (cmd 0x10110).cmd.extractLsb' 0 8 = Op.cbcInit.code ∧ (cmd 0x10110).cmd.getLsbD 8 = true ∧
      (cmd 0x10210).cmd.getLsbD 9 = true ∧ (cmd 0x10410).cmd.extractLsb' 10 2 ≠ 0 ∧
      (cmd 0x10001).cmd.extractLsb' 16 16 ≠ 0 ∧ (cmd 0x802).cmd.extractLsb' 0 8 = Op.create.code ∧
      1 < ((cmd 0x802).cmd.extractLsb' 10 2).toNat ∧
      (∃ x ∈ operandsOf .gcmUosize, x.2 = .len32 ∧ (getArg (A [0, 0x100000000]) x.1).extractLsb' 32 32 ≠ 0) ∧
      ∃ x ∈ operandsOf .gcmByte, x.2 = .byte8 ∧ (getArg (A [0x100]) x.1).extractLsb' 8 56 ≠ 0 := by
  have h : ∀ b : Byte, (b = 0 ∨ b = 0x2A) → ∀ op : Op, b ≠ op.code := by
    rintro b (rfl | rfl) op <;> cases op <;> decide
  refine ⟨⟨rfl, h _ (.inl (by decide +kernel))⟩, h _ (.inr (by decide +kernel)), by decide +kernel, by decide +kernel,
    by decide +kernel, by decide +kernel, by decide +kernel, by decide +kernel, by decide +kernel, by decide +kernel,
    ⟨(.arg1, .len32), by decide, rfl, by decide⟩, ⟨(.arg0, .byte8), by decide, rfl, by decide⟩⟩

theorem witness_BadHandlesAreRefused :
    handleOf (.gcmUosize 0) = some 0 ∧ WellFormed (.gcmUosize 0) created.args = true ∧ (0 : Handle) = 0 ∧
      numSessions created.cfg < (5 : Handle).toNat ∧ (fresh.slot 4).alloc = false ∧
      ∃ m, modeOf (.gcmUosize 1) = some m ∧ (created.slot 1).mode ≠ m :=
  ⟨rfl, by decide, rfl, by decide, rfl, .aead, rfl, by decide⟩

theorem witness_ErrorsChangeNothing : ∃ i s t, exec i s = .next t ∧ t.err ≠ 0 ∧ t.err ≠ 6 := by
  obtain ⟨h1, h2⟩ := exec_after (e := 4) (i := .gcmMac 3) (s := created) (by decide +kernel)
  exact ⟨_, _, _, h1, by rw [h2]; decide, by rw [h2]; decide⟩

theorem witness_CommandsReportInStatus : ∃ i s t, exec i s = .next t :=
  ⟨_, _, _, (exec_after (e := 0) (i := .caps) (s := fresh) (by decide +kernel)).1⟩

theorem witness_FirstFailingCheckIsReported :
    firstError (checks (.gcmMac 3) created) = some .invalidStateTransition ∧
      firstError (checks (.gcmMac 0) created) = some .invalidHandle ∧ firstError (checks .caps created) = none := by
  decide +kernel

theorem witness_AuthenticationFailureOnlyAtFinal :
    ∃ i s t, exec i s = .next t ∧ t.err = errByte .authenticationFailure :=
  ⟨_, _, _, exec_after (e := 6) (i := .gcmFinal 4) (s := ready) (by decide +kernel)⟩

theorem witness_SessionsAreIsolated :
    ∃ s s' t : State, handleOf (.cbcReset 1) = some 1 ∧ s'.args = s.args ∧ s'.mem = s.mem ∧ s'.cfg = s.cfg ∧
      s'.slot (1 : Handle).toNat = s.slot (1 : Handle).toNat ∧ exec (.cbcReset 1) s = .next t ∧ s'.sess ≠ s.sess :=
  ⟨ready, withSess ready [(1, ready.slot 1)], _, rfl, withSess_kept.1, withSess_kept.2.1, withSess_kept.2.2,
    by decide +kernel, (exec_after (e := 0) (by decide +kernel)).1, by decide +kernel⟩

theorem witness_OnlyOutputBytesChange :
    (writesOutput (.cbcProcess 1) = true ∧
        ∃ t, exec (.cbcProcess 1) (load ready [0x280, 32, 2, 0x400, 32]) = .next t) ∧
      writesOutput .caps = false ∧ ∃ t, exec .caps fresh = .next t :=
  ⟨⟨rfl, _, (exec_after (e := 0) (by decide +kernel)).1⟩, rfl, _, rfl⟩

theorem witness_OnlyCreateAndDisposeAllocate :
    (∃ t, exec (.create .encrypt .aead) (load fresh [16]) = .next t ∧ (fresh.slot 1).alloc = false ∧
        (t.slot 1).alloc = true) ∧
      ∃ t, exec (.dispose 2) created = .next t ∧ (created.slot 2).alloc = true ∧ (t.slot 2).alloc = false :=
  ⟨⟨_, (exec_after (e := 0) (by decide +kernel)).1, rfl, by decide +kernel⟩,
    ⟨_, (exec_after (e := 0) (by decide +kernel)).1, rfl, by decide +kernel⟩⟩

theorem witness_ResultsDoNotDependOnPath :
    ∃ s s' t : State, s'.args = s.args ∧ s'.mem = s.mem ∧ s'.cfg = { s.cfg with caps := s'.cfg.caps, wideOk := s'.cfg.wideOk } ∧
      (∀ h, s'.slot h = { s.slot h with path := (s'.slot h).path }) ∧ (s'.slot 1).path ≠ (s.slot 1).path ∧
      exec (.cbcReset 1) s = .next t := by
  refine ⟨{ ready with sess := [(1, ready.slot 1)] },
    { ready with cfg := { plat with caps := failedProbe true }, caps := 0, sess := [(1, { ready.slot 1 with path := .soft })] },
    _, rfl, rfl, by decide +kernel, fun h => ?_, by decide +kernel, (exec_after (e := 0) (by decide +kernel)).1⟩
  by_cases e : 1 = h <;> simp [State.slot, sparseGet, e]

theorem witness_CapsChangesOnlyAtReset :
    (∃ t, step (hosted [.reset]) = .next t) ∧ ∃ t, step (hosted [.memRead 0 1]) = .next t := ⟨⟨_, rfl⟩, ⟨_, rfl⟩⟩

theorem witness_OutcomeStaysUntilNextCommand :
    ∃ t, step (hosted [.memRead 0 1]) = .next t ∧ (hosted [.memRead 0 1]).cmdStarted = false ∧
      (hosted [.memRead 0 1]).host.head? ≠ some .reset := ⟨_, rfl, rfl, by decide⟩

theorem witness_ResetGivesTheResetState : HostNext (hosted [.reset]) .reset [] := ⟨rfl, rfl⟩

theorem witness_StoresStayCanonical :
    ∃ s t, StoresInv s ∧ step s = .next t ∧ s.mem ≠ [] := by
  refine ⟨(load fresh [16]).withFetchWord 32 2, _, ⟨⟨⟨?_, ?_⟩, ?_⟩, ⟨by decide, by decide⟩, by decide⟩, rfl, ?_⟩ <;> decide +kernel

theorem witness_SlotInvariantsAreKept : ∃ s t, SlotsInv s ∧ step s = .next t :=
  ⟨(load fresh [16]).withFetchWord 32 2, _, fun _ => slotInv_free, rfl⟩

/-- The first and the last handle of the table. -/
theorem witness_CreateAllocatesTheLeastFreeHandle :
    ((load fresh [16]).args.arg0.toNat = keyBytes .b16 ∧ (fresh.slot 1).alloc = false) ∧
      (load created [32]).args.arg0.toNat = keyBytes .b32 ∧ 4 ≤ numSessions created.cfg ∧
      (({ created with sess := created.sess.take 3 } : State).slot 4).alloc = false ∧
      ∀ j, 1 ≤ j → j < 4 → (({ created with sess := created.sess.take 3 } : State).slot j).alloc = true :=
  ⟨⟨by decide, rfl⟩, by decide, by decide, rfl, fun j h1 h2 => by interval_cases j <;> rfl⟩

theorem witness_CreateIsDeterministic :
    ∃ s s' t : State, s'.caps = s.caps ∧ s'.cfg.wideOk = s.cfg.wideOk ∧ s'.cfg.lastSession = s.cfg.lastSession ∧
      s'.args.arg0 = s.args.arg0 ∧ (∀ h, (s'.slot h).alloc = (s.slot h).alloc) ∧ s'.mem ≠ s.mem ∧
      exec (.create .encrypt .cbc) s = .next t :=
  ⟨load fresh [16], { load fresh [16, 1] with mem := [] }, _, rfl, rfl, rfl, rfl, fun _ => rfl, by decide +kernel,
    (exec_after (e := 0) (by decide +kernel)).1⟩

theorem witness_DisposeFreesTheSlot :
    Names created 1 .cbc (created.slot (1 : Handle).toNat) ∧ Names ready 4 .aead (ready.slot (4 : Handle).toNat) :=
  ⟨names (by decide +kernel), names (by decide +kernel)⟩

theorem witness_KeysChangeOnlyAtInit :
    (∃ t, exec (.gcmInit 3 .decrypt) (load created gcmArgs) = .next t ∧ (created.slot 3).alloc = true ∧
        (t.slot 3).alloc = true ∧ (t.slot 3).dir ≠ (created.slot 3).dir ∧ (t.slot 3).key ≠ (created.slot 3).key ∧
        (t.slot 3).j0 ≠ (created.slot 3).j0) ∧
      ∃ t, exec (.cbcInit 1) (load created cbcArgs) = .next t ∧ (t.slot 1).iv ≠ (created.slot 1).iv ∧
        (t.slot 1).chain ≠ (created.slot 1).chain :=
  ⟨⟨_, (exec_after (e := 0) (by decide +kernel)).1, rfl, by decide +kernel, by decide +kernel, by decide +kernel,
    by decide +kernel⟩, ⟨_, (exec_after (e := 0) (by decide +kernel)).1, by decide +kernel, by decide +kernel⟩⟩

theorem witness_CbcInitLoadsKeyAndIv :
    let s := load created cbcArgs;
    Names s 1 .cbc (s.slot (1 : Handle).toNat) ∧ WellFormed (.cbcInit 1) s.args = true ∧ (s.slot 1).keySize ≠ .none ∧
      len32 s.args .arg1 = keyBytes (s.slot 1).keySize ∧ len32 s.args .arg3 = 16 ∧
      accessible s.cfg (addrOf s.args .arg0) (len32 s.args .arg1) = true ∧
      accessible s.cfg (addrOf s.args .arg2) 16 = true :=
  ⟨names (by decide +kernel), by decide +kernel, by decide +kernel, by decide +kernel, by decide +kernel, by decide +kernel,
    by decide +kernel⟩

/-- Two blocks, and none at addresses no byte of which is accessible. -/
theorem witness_CbcProcess :
    (let s := load ready [0x280, 32, 2, 0x400, 32];
      Names s 1 .cbc (s.slot (1 : Handle).toNat) ∧ WellFormed (.cbcProcess 1) s.args = true ∧ (s.slot 1).phase = .ready ∧
        (s.slot 1).dir = .encrypt ∧ 16 * len32 s.args .arg2 ≤ len32 s.args .arg1 ∧
        16 * len32 s.args .arg2 ≤ len32 s.args .arg4 ∧
        accessible s.cfg (addrOf s.args .arg0) (16 * len32 s.args .arg2) = true ∧
        accessible s.cfg (addrOf s.args .arg3) (16 * len32 s.args .arg2) = true) ∧
      let s := load ready [0x20000, 0, 0, 0x20000, 0];
      Names s 2 .cbc (s.slot (2 : Handle).toNat) ∧ WellFormed (.cbcProcess 2) s.args = true ∧ (s.slot 2).phase = .ready ∧
        (s.slot 2).dir = .decrypt ∧ 16 * len32 s.args .arg2 ≤ len32 s.args .arg1 ∧
        16 * len32 s.args .arg2 ≤ len32 s.args .arg4 ∧
        accessible s.cfg (addrOf s.args .arg0) (16 * len32 s.args .arg2) = true ∧
        accessible s.cfg (addrOf s.args .arg3) (16 * len32 s.args .arg2) = true :=
  ⟨⟨names (by decide +kernel), by decide +kernel⟩, ⟨names (by decide +kernel), by decide +kernel⟩⟩

theorem witness_CbcResetRestoresTheChain :
    Names ready 1 .cbc (ready.slot (1 : Handle).toNat) ∧ (ready.slot 1).phase = .ready :=
  ⟨names (by decide +kernel), by decide +kernel⟩

/-! Sessions over several commands. -/

/-- One CBC.PROCESS of two blocks, and two of one. -/
def twoBlocks : State := load ready [0x280, 32, 2, 0x400, 32]
def block1 : State := load ready [0x280, 16, 1, 0x400, 16]
def block2 : State := load (after (.cbcProcess 1) block1) [0x290, 16, 1, 0x410, 16]

theorem witness_CbcBatchesAgree :
    ∃ inp out out' t t', CbcFeed 1 ready inp out t ∧ CbcFeed 1 ready inp out' t' ∧ inp.length = 32 := by
  have h1 := CbcFeed.process (.between (CbcFeed.start (h := 1) (s := ready)) (u := twoBlocks) between_load)
    (runs (by decide +kernel))
  have h2 := CbcFeed.process (.between (CbcFeed.process (.between (CbcFeed.start (h := 1) (s := ready)) (u := block1) between_load)
    (runs (by decide +kernel))) (u := block2) between_load) (runs (by decide +kernel))
  have e : [] ++ memRead twoBlocks.mem (addrOf twoBlocks.args .arg0) (16 * len32 twoBlocks.args .arg2) =
      [] ++ memRead block1.mem (addrOf block1.args .arg0) (16 * len32 block1.args .arg2) ++
        memRead block2.mem (addrOf block2.args .arg0) (16 * len32 block2.args .arg2) := by decide +kernel
  exact ⟨_, _, _, _, _, h1, cbcFeed_cast e.symm h2, by decide +kernel⟩

/-- An encrypt session, then a decrypt session on what it put out. -/
def enc0 : State := load created cbcArgs
def enc1 : State := load (after (.cbcInit 1) enc0) [0x280, 32, 2, 0x400, 32]
def enc2 : State := after (.cbcProcess 1) enc1
def dec0 : State := load enc2 cbcArgs
def dec1 : State := load (after (.cbcInit 2) dec0) [0x400, 32, 2, 0x600, 32]

theorem witness_CbcRoundTrip :
    ∃ key iv pt ct pt' s s' t t', CbcStarts 1 key iv s ∧ CbcStarts 2 key iv s' ∧
      (s.slot (1 : Handle).toNat).dir = .encrypt ∧ (s'.slot (2 : Handle).toNat).dir = .decrypt ∧
      s'.cfg.primitive = s.cfg.primitive ∧ CbcFeed 1 s pt ct t ∧ CbcFeed 2 s' ct pt' t' ∧ pt.length = 32 := by
  have h1 := CbcFeed.process (.between (CbcFeed.start (h := 1) (s := after (.cbcInit 1) enc0)) (u := enc1) between_load)
    (runs (by decide +kernel))
  have h2 := CbcFeed.process (.between (CbcFeed.start (h := 2) (s := after (.cbcInit 2) dec0)) (u := dec1) between_load)
    (runs (by decide +kernel))
  have e : [] ++ memRead dec1.mem (addrOf dec1.args .arg0) (16 * len32 dec1.args .arg2) =
      [] ++ outputOf enc1 (after (.cbcProcess 1) enc1) := by decide +kernel
  have s1 : CbcStarts 1 (memRead image 0x180 16) (memRead image 0x100 16) (after (.cbcInit 1) enc0) :=
    ⟨enc0, runs (by decide +kernel), by decide +kernel, by decide +kernel⟩
  have s2 : CbcStarts 2 (memRead image 0x180 16) (memRead image 0x100 16) (after (.cbcInit 2) dec0) :=
    ⟨dec0, runs (by decide +kernel), by decide +kernel, by decide +kernel⟩
  exact ⟨_, _, _, _, _, _, _, _, _, s1, s2, by decide +kernel, by decide +kernel, by decide +kernel, h1, cbcFeed_cast e h2, by decide +kernel⟩

/-! The AEAD engine. -/

/-- A command the phase admits, and one it does not. -/
theorem witness_PhasesFollowTheTables :
    ∃ t t', Names ready 3 .aead (ready.slot (3 : Handle).toNat) ∧ SlotInv (ready.slot (3 : Handle).toNat) ∧
      exec (.gcmAadByte 3) (load ready [7]) = .next t ∧ WellFormed (.gcmAadByte 3) (A [7]) = true ∧
      phaseAfter (.gcmAadByte 3) 0 (ready.slot (3 : Handle).toNat) = some .aad ∧ exec (.gcmMac 3) ready = .next t' ∧
      WellFormed (.gcmMac 3) ready.args = true ∧ phaseAfter (.gcmMac 3) 0 (ready.slot (3 : Handle).toNat) = none := by
  refine ⟨_, _, names (by decide +kernel), slotInv_aead (by decide +kernel) (by decide +kernel) (aeadInv (by decide +kernel))
    ?_, (exec_after (e := 0) (by decide +kernel)).1, by decide, by decide +kernel,
    (exec_after (e := 4) (by decide +kernel)).1, by decide +kernel, by decide +kernel⟩
  constructor <;> decide +kernel

theorem witness_GcmInitStartsAMessage :
    let s := load created gcmArgs;
    Names s 3 .aead (s.slot (3 : Handle).toNat) ∧ WellFormed (.gcmInit 3 .encrypt) s.args = true ∧
      (s.slot 3).keySize ≠ .none ∧ len32 s.args .arg1 = keyBytes (s.slot 3).keySize ∧ 0 < len32 s.args .arg3 ∧
      len32 s.args .arg6 % 8 = 0 ∧ 32 ≤ len32 s.args .arg6 ∧ len32 s.args .arg6 ≤ 128 ∧
      accessible s.cfg (addrOf s.args .arg0) (len32 s.args .arg1) = true ∧
      accessible s.cfg (addrOf s.args .arg2) (len32 s.args .arg3) = true ∧
      accessible s.cfg (addrOf s.args .arg4) (len32 s.args .arg5) = true ∧
      rawKey (memRead s.mem (addrOf s.args .arg0) (len32 s.args .arg1)) =
        some (.k128 0x000102030405060708090a0b0c0d0e0f) :=
  ⟨names (by decide +kernel), by decide +kernel⟩

/-- The last AAD byte the limit admits, and a string of AAD. -/
theorem witness_AadCommandsAbsorb :
    (let s := load (counted (2 ^ 61 - 2) 0) [7];
      Names s 3 .aead (s.slot (3 : Handle).toNat) ∧ WellFormed (.gcmAadByte 3) s.args = true ∧
        (s.slot 3).phase = .aad ∧ (s.slot 3).aadBuf.length < 16 ∧ (s.slot 3).aadCount.toNat + [byte8 s.args].length ≤ aadMax) ∧
      let s := load ready [0x140, 20];
      Names s 3 .aead (s.slot (3 : Handle).toNat) ∧ WellFormed (.gcmAadBytes 3) s.args = true ∧
        (s.slot 3).phase = .aad ∧ (s.slot 3).aadBuf.length < 16 ∧
        accessible s.cfg (addrOf s.args .arg0) (len32 s.args .arg1) = true ∧
        (s.slot 3).aadCount.toNat + (memRead s.mem (addrOf s.args .arg0) (len32 s.args .arg1)).length ≤ aadMax :=
  ⟨⟨names (by decide +kernel), by decide +kernel⟩, ⟨names (by decide +kernel), by decide +kernel⟩⟩

/-- A byte in phase DATA of a decrypt session, and bytes in phase AAD of an encrypt session. -/
theorem witness_DataCommandsProcessWholeBlocks :
    (let s := load fed [7, 0, 0, 0x300, 16];
      Names s 4 .aead (s.slot (4 : Handle).toNat) ∧ AeadInv (s.slot (4 : Handle).toNat) ∧
        WellFormed (.gcmByte 4) s.args = true ∧ (s.slot 4).phase = .data ∧ uoSize (s.slot 4) 1 ≤ len32 s.args .arg4 ∧
        (s.slot 4).dataCount.toNat + pending (s.slot 4) 1 ≤ dataMax ∧
        accessible s.cfg (addrOf s.args .arg3) (uoSize (s.slot 4) 1) = true) ∧
      let s := load ready [0x200, 17, 0, 0x300, 16];
      Names s 3 .aead (s.slot (3 : Handle).toNat) ∧ AeadInv (s.slot (3 : Handle).toNat) ∧
        WellFormed (.gcmBytes 3) s.args = true ∧ (s.slot 3).phase = .aad ∧ 0 < len32 s.args .arg1 ∧
        accessible s.cfg (addrOf s.args .arg0) (len32 s.args .arg1) = true ∧ uoSize (s.slot 3) 17 = len32 s.args .arg4 ∧
        (s.slot 3).dataCount.toNat + pending (s.slot 3) 17 ≤ dataMax ∧
        accessible s.cfg (addrOf s.args .arg3) (uoSize (s.slot 3) 17) = true :=
  ⟨⟨names (by decide +kernel), aeadInv (by decide +kernel), by decide +kernel⟩,
    ⟨names (by decide +kernel), aeadInv (by decide +kernel), by decide +kernel⟩⟩

theorem witness_GcmBytesOfNothingIsNoOp :
    let s := load ready [0, 0];
    Names s 3 .aead (s.slot (3 : Handle).toNat) ∧ WellFormed (.gcmBytes 3) s.args = true ∧ (s.slot 3).phase = .aad ∧
      len32 s.args .arg1 = 0 := ⟨names (by decide +kernel), by decide +kernel⟩

/-- GCM.FINAL in an encrypt session, in a decrypt session with enough for a tag, and in one without. -/
theorem witness_GcmFinal :
    (let s := load fed [0, 0, 0, 0x310, 17];
      Names s 3 .aead (s.slot (3 : Handle).toNat) ∧ AeadInv (s.slot (3 : Handle).toNat) ∧
        WellFormed (.gcmFinal 3) s.args = true ∧ (s.slot 3).phase = .data ∧ (s.slot 3).dir = .encrypt ∧
        (s.slot 3).tagLen.toNat ≤ 16 ∧ (s.slot 3).dataBuf.length + (s.slot 3).tagLen.toNat ≤ len32 s.args .arg4 ∧
        accessible s.cfg (addrOf s.args .arg3) ((s.slot 3).dataBuf.length + (s.slot 3).tagLen.toNat) = true) ∧
      (let s := load fed [0, 0, 0, 0x810, 1];
        Names s 4 .aead (s.slot (4 : Handle).toNat) ∧ AeadInv (s.slot (4 : Handle).toNat) ∧
          WellFormed (.gcmFinal 4) s.args = true ∧ (s.slot 4).phase = .data ∧ (s.slot 4).dir = .decrypt ∧
          (s.slot 4).dataBuf.length = 1 + (s.slot 4).tagLen.toNat ∧ 1 ≤ len32 s.args .arg4 ∧
          accessible s.cfg (addrOf s.args .arg3) 1 = true) ∧
      Names ready 4 .aead (ready.slot (4 : Handle).toNat) ∧ AeadInv (ready.slot (4 : Handle).toNat) ∧
        WellFormed (.gcmFinal 4) ready.args = true ∧ (ready.slot 4).phase = .aad ∧ (ready.slot 4).dir = .decrypt ∧
        (ready.slot 4).dataBuf.length < (ready.slot 4).tagLen.toNat :=
  ⟨⟨names (by decide +kernel), aeadInv (by decide +kernel), by decide +kernel⟩,
    ⟨names (by decide +kernel), aeadInv (by decide +kernel), by decide +kernel⟩,
    ⟨names (by decide +kernel), aeadInv (by decide +kernel), by decide +kernel⟩⟩

theorem witness_SizeQueriesAnswer :
    Names fed 4 .aead (fed.slot (4 : Handle).toNat) ∧ (fed.slot 4).phase ≠ .uninit ∧ (fed.slot 4).dataBuf.length < 2 ^ 32 ∧
      WellFormed (.gcmUosize 4) fed.args = true ∧ WellFormed (.gcmOsize 4) fed.args = true :=
  ⟨names (by decide +kernel), by decide +kernel⟩

/-- Session 3 with 17 bytes to come. -/
def sized : State := load ready [0x200, 17, 0, 0x300, 64]

theorem witness_OutputSizeIsWhatIsWritten :
    ∃ t u u' v, Names sized 3 .aead (sized.slot (3 : Handle).toNat) ∧ AeadInv (sized.slot (3 : Handle).toNat) ∧
      Between 3 sized sized ∧ RunsOk (.gcmOsize 3) sized t ∧ RunsOk (.gcmBytes 3) sized u ∧ Between 3 u u' ∧
      u'.args.arg3 ≠ u.args.arg3 ∧ exec (.gcmFinal 3) u' = .next v ∧ v.err = errByte .ok :=
  ⟨_, _, load (after (.gcmBytes 3) sized) [0, 0, 0, 0x900, 17], _, names (by decide +kernel), aeadInv (by decide +kernel),
    ⟨rfl, rfl⟩, runs (by decide +kernel), runs (by decide +kernel), between_load, by decide +kernel,
    exec_after (e := 0) (by decide +kernel)⟩

theorem witness_GcmMacWritesTheTag :
    let s := load done [0, 0, 0, 0x400, 16];
    Names s 3 .aead (s.slot (3 : Handle).toNat) ∧ WellFormed (.gcmMac 3) s.args = true ∧ (s.slot 3).phase = .final ∧
      (s.slot 3).dir = .encrypt ∧ (s.slot 3).tagValid = true ∧ (s.slot 3).tagLen.toNat ≤ 16 ∧
      (s.slot 3).tagLen.toNat ≤ len32 s.args .arg4 ∧
      accessible s.cfg (addrOf s.args .arg3) (s.slot 3).tagLen.toNat = true :=
  ⟨names (by decide +kernel), by decide +kernel⟩

theorem witness_GcmResetRestartsOrClears :
    Names done 3 .aead (done.slot (3 : Handle).toNat) ∧ (done.slot 3).phase ≠ .uninit :=
  ⟨names (by decide +kernel), by decide +kernel⟩

/-- A message of 17 bytes in session 3, in one GCM.BYTES. -/
def enc3 : State := load created gcmArgs
def init3 : State := after (.gcmInit 3 .encrypt) enc3
def data3 : State := load init3 [0x200, 17, 0, 0x300, 64]
def end3 : State := load (after (.gcmBytes 3) data3) [0, 0, 0, 0x310, 64]

theorem starts3 : ∃ key nonce aad, rawKey key = some (.k128 0x000102030405060708090a0b0c0d0e0f) ∧
    key = memRead enc3.mem 0x100 16 ∧ nonce = memRead enc3.mem 0x120 12 ∧ aad = memRead enc3.mem 0x140 3 ∧
    GcmStarts 3 .encrypt key nonce aad 16 init3 :=
  ⟨_, _, _, by decide +kernel, rfl, rfl, rfl, enc3, runs (by decide +kernel), by decide +kernel, by decide +kernel,
    by decide +kernel, by decide +kernel⟩

theorem feed3 : GcmFeed 3 init3 [] ([] ++ memRead data3.mem (addrOf data3.args .arg0) (len32 data3.args .arg1))
    ([] ++ outputOf data3 (after (.gcmBytes 3) data3)) end3 :=
  .between (.bytes (.between .start between_load) (runs (by decide +kernel))) between_load

/-- The same message with its last byte in a GCM.BYTE. -/
def data3a : State := load init3 [0x200, 16, 0, 0x300, 64]
def data3b : State := load (after (.gcmBytes 3) data3a) [0x10, 0, 0, 0x310, 64]
def end3b : State := load (after (.gcmByte 3) data3b) [0, 0, 0, 0x310, 64]

theorem feed3b : GcmFeed 3 init3 [] ([] ++ memRead data3a.mem (addrOf data3a.args .arg0) (len32 data3a.args .arg1) ++
    [byte8 data3b.args]) ([] ++ outputOf data3a (after (.gcmBytes 3) data3a) ++ outputOf data3b (after (.gcmByte 3) data3b))
    end3b :=
  .between (.byte (.between (.bytes (.between .start between_load) (runs (by decide +kernel))) between_load)
    (runs (by decide +kernel))) between_load

/-- What session 3 put out, fed to session 4. -/
def dec4 : State := load (after (.gcmFinal 3) end3) gcmArgs
def init4 : State := after (.gcmInit 4 .decrypt) dec4
def data4 : State := load init4 [0x300, 33, 0, 0x800, 64]
def end4 : State := load (after (.gcmBytes 4) data4) [0, 0, 0, 0x810, 64]

theorem feed4 : GcmFeed 4 init4 [] ([] ++ memRead data4.mem (addrOf data4.args .arg0) (len32 data4.args .arg1))
    ([] ++ outputOf data4 (after (.gcmBytes 4) data4)) end4 :=
  .between (.bytes (.between .start between_load) (runs (by decide +kernel))) between_load

theorem witness_GcmResetReturnsToInit :
    ∃ key nonce aad0 aad data out u v, GcmStarts 3 .encrypt key nonce aad0 16 init3 ∧ GcmFeed 3 init3 aad data out end3 ∧
      exec (.gcmFinal 3) end3 = .next u ∧ RunsOk (.gcmReset 3 true) u v := by
  obtain ⟨k, n, a, -, -, -, -, hs⟩ := starts3
  exact ⟨k, n, a, _, _, _, _, _, hs, feed3, (exec_after (e := 0) (by decide +kernel)).1, runs (by decide +kernel)⟩

theorem witness_GcmEncryptsInOneShot :
    ∃ key nonce aad pt out k t, GcmMessage 3 .encrypt key nonce aad 16 pt out end3 ∧ rawKey key = some k ∧
      RunsOk (.gcmFinal 3) end3 t ∧ pt.length = 17 := by
  obtain ⟨k, n, a, hk, -, -, -, hs⟩ := starts3
  exact ⟨k, n, _, _, _, _, _, ⟨_, _, _, hs, feed3, rfl⟩, hk, runs (by decide +kernel), by decide +kernel⟩

theorem witness_StreamingIsEquivalent :
    ∃ key nonce aad data out out' t t', GcmMessage 3 .encrypt key nonce aad 16 data out end3 ∧
      GcmMessage 3 .encrypt key nonce aad 16 data out' end3b ∧ end3b.cfg = end3.cfg ∧
      exec (.gcmFinal 3) end3 = .next t ∧ exec (.gcmFinal 3) end3b = .next t' ∧ t.err = errByte .ok ∧
      t'.err = errByte .ok := by
  obtain ⟨k, n, a, hk, -, -, -, hs⟩ := starts3
  have e : [] ++ memRead data3.mem (addrOf data3.args .arg0) (len32 data3.args .arg1) =
      [] ++ memRead data3a.mem (addrOf data3a.args .arg0) (len32 data3a.args .arg1) ++ [byte8 data3b.args] := by
    decide +kernel
  obtain ⟨h1, h2⟩ := exec_after (e := 0) (i := .gcmFinal 3) (s := end3) (by decide +kernel)
  obtain ⟨h3, h4⟩ := exec_after (e := 0) (i := .gcmFinal 3) (s := end3b) (by decide +kernel)
  exact ⟨k, n, _, _, _, _, _, _, ⟨_, _, _, hs, feed3, rfl⟩, ⟨_, _, _, hs, gcmFeed_cast e.symm feed3b, rfl⟩, by decide +kernel, h1, h3, h2, h4⟩

/-- Also for GcmDecryptsInOneShot: the decrypt session's stream is ciphertext and tag. -/
theorem witness_AeadRoundTrip :
    ∃ key nonce aad pt out out' t t', GcmMessage 3 .encrypt key nonce aad 16 pt out end3 ∧ RunsOk (.gcmFinal 3) end3 t ∧
      GcmMessage 4 .decrypt key nonce aad 16 (out ++ outputOf end3 t) out' end4 ∧
      end4.cfg.primitive = end3.cfg.primitive ∧ exec (.gcmFinal 4) end4 = .next t' ∧ t'.err = errByte .ok ∧
      (∃ ct tag, out ++ outputOf end3 t = ct ++ tag ∧ tag.length = 16) ∧ ∃ k, rawKey key = some k := by
  obtain ⟨key, n, a, hk, rfl, rfl, rfl, hs⟩ := starts3
  have e : [] ++ memRead data4.mem (addrOf data4.args .arg0) (len32 data4.args .arg1) =
      [] ++ outputOf data3 (after (.gcmBytes 3) data3) ++ outputOf end3 (after (.gcmFinal 3) end3) := by decide +kernel
  have hs4 : GcmStarts 4 .decrypt (memRead enc3.mem 0x100 16) (memRead enc3.mem 0x120 12) (memRead enc3.mem 0x140 3) 16
      init4 := ⟨dec4, runs (by decide +kernel), by decide +kernel, by decide +kernel, by decide +kernel, by decide +kernel⟩
  obtain ⟨h1, h2⟩ := exec_after (e := 0) (i := .gcmFinal 4) (s := end4) (by decide +kernel)
  exact ⟨_, _, _, _, _, _, _, _, ⟨_, _, _, hs, feed3, rfl⟩, runs (by decide +kernel), ⟨_, _, _, hs4, gcmFeed_cast e feed4, rfl⟩,
    by decide +kernel, h1, h2, ⟨_, _, (List.take_append_drop 17 _).symm, by decide +kernel⟩, _, hk⟩

/-! The rest. -/

theorem witness_GfMulIsPolynomialMultiplication :
    ∃ poly : Block → Polynomial (ZMod 2),
      ∀ x : Block, poly x = ∑ j ∈ Finset.range 128, if x.getMsbD j then Polynomial.X ^ j else 0 := ⟨_, fun _ => rfl⟩

theorem witness_CountersDoNotRepeat : ∃ n m : Nat, n < m ∧ m - n < 2 ^ 32 := ⟨0, 2 ^ 32 - 1, by decide, by decide⟩

theorem witness_AccessibleObeysItsLaws :
    accessible plat 0 0x10000 = true ∧ accessible plat 0 0x10001 = false ∧ accessible plat 0x10000 0 = true := by decide

/-- A host access between commands. -/
theorem hostNext (a : HostAccess) : HostNext (hosted [a]) a [] := ⟨rfl, rfl⟩

theorem at_offset {s : State} (hs : s.cfg.mmioBase = 0x40000000) (off : Nat) (h : off < 256) :
    AtOffset s (BitVec.ofNat 64 (0x40000000 + off)) off := by
  refine ⟨?_, h⟩
  rw [hs, BitVec.toNat_ofNat]
  show (0x40000000 + off) % 2 ^ 64 = 0x40000000 + off
  omega

theorem witness_HostReachesMemory :
    HostNext (hosted [.memWrite 0xFFFFFFFFFFFFFFFF [1]]) (.memWrite 0xFFFFFFFFFFFFFFFF [1]) [] ∧
      (0xFFFFFFFFFFFFFFFF : Word64).toNat + [(1 : Byte)].length ≤ 2 ^ 64 ∧
      HostNext (hosted [.memRead 0 4]) (.memRead 0 4) [] := ⟨hostNext _, by decide, hostNext _⟩

/-- Every offset of the window is reached, and an access of each width is the host's next in some state. -/
theorem witness_window (off : Nat) (h : off < 256) (bytes : List Byte) (n : Nat) :
    AtOffset (hosted [.windowWrite (BitVec.ofNat 64 (0x40000000 + off)) bytes]) (BitVec.ofNat 64 (0x40000000 + off)) off ∧
      HostNext (hosted [.windowWrite (BitVec.ofNat 64 (0x40000000 + off)) bytes])
        (.windowWrite (BitVec.ofNat 64 (0x40000000 + off)) bytes) [] ∧
      AtOffset (hosted [.windowRead (BitVec.ofNat 64 (0x40000000 + off)) n]) (BitVec.ofNat 64 (0x40000000 + off)) off ∧
      HostNext (hosted [.windowRead (BitVec.ofNat 64 (0x40000000 + off)) n])
        (.windowRead (BitVec.ofNat 64 (0x40000000 + off)) n) [] :=
  ⟨at_offset rfl off h, hostNext _, at_offset rfl off h, hostNext _⟩

/-- CmdWriteStartsACommand, ArgumentWrites, OtherWindowWrites, WindowReads: a case for each clause, at the ends of the ranges. -/
theorem witness_windowClauses :
    argOffset .arg0 = 0x10 ∧ argOffset .arg6 = 0x40 ∧ (hex 8 0).length = 8 ∧ (hex 4 0).length = 4 ∧
      (0x50 ≤ 0x50 ∧ 0x50 % 4 = 0) ∧ (0x50 ≤ 0xFC ∧ 0xFC % 4 = 0 ∧ 0xFC < 256) ∧ (0xF8 % 8 = 0 ∧ 0x48 ≤ 0xF8 ∧ 0xF8 < 256) ∧
      (hex 2 0).length ≠ 4 ∧ (hex 2 0).length ≠ 8 ∧ 0x02 % (hex 4 0).length ≠ 0 ∧ (0x08 < 0x10 ∧ (hex 8 0).length = 8) ∧
      (0 ≠ 4 ∧ 0 ≠ 8) ∧ 0xFE % 4 ≠ 0 ∧ 0x14 % 8 ≠ 0 := by
  decide

end Sys2Proof.Tests
end

section
/-! What a step does when a command is due, and the settled statements of 00_scope.md. -/

namespace Sys2Proof.Machine

/-- A due command runs before the host's next access, with its mark cleared (R12; log entry 6). -/
theorem step_of_cmdStarted {s : State} (h : s.cmdStarted = true) :
    step s = runCommand { s with cmdStarted := false } := if_pos h

/-- A CMD word that decodes is executed as the command it decodes to (R22, R92). -/
theorem runCommand_of_decode_ok {s : State} {i : Instr} (h : decode s.cmd = .ok i) : runCommand s = exec i s := by
  simp only [runCommand, h]

/-- Settles O5: the due mark makes the step run the command, and clearing it leaves the CMD word that is decoded. -/
theorem stepRunsDecodedCommand : Obligations.StepRunsDecodedCommand := by
  intro s i hdue hdec
  calc step s = runCommand { s with cmdStarted := false } := step_of_cmdStarted hdue
    _ = exec i { s with cmdStarted := false } := runCommand_of_decode_ok hdec

end Sys2Proof.Machine
end

section
/-! What a command does to one slot of the session table (10_state.md R28 to R34, R39), said once, and the settled statements that follow
from it: which commands allocate and free, what belongs to a session, and the invariants of R34. -/

namespace Sys2Proof.Machine

/-- The slots the commands of a running AEAD message leave: AAD, data, a short decrypt stream, GCM.FINAL, and the restart from the
checkpoint (R150 to R161, R165). -/
inductive MessageStep (p : Platform) (x : Slot) : Slot → Prop
  | aad (a : List Byte) : x.phase = .aad → x.aadCount.toNat + a.length ≤ aadMax → MessageStep p x (absorbAad x a)
  | data (d : List Byte) : x.phase = .aad ∨ x.phase = .data → x.dataCount.toNat + pending x d.length ≤ dataMax →
      MessageStep p x (absorbData p (enterData x) d).1
  | short : x.phase = .aad ∨ x.phase = .data → x.dir = .decrypt →
      MessageStep p x { enterData x with dataBuf := [], tagValid := false, phase := .final }
  | final : x.phase = .aad ∨ x.phase = .data → MessageStep p x (sealTag p (finalBlock p (enterData x)).1)
  | restart : x.phase ≠ .uninit → MessageStep p x (restartSlot x)

/-- Command `i` writes slot `j`, which held `x`, with `y`. -/
inductive SlotWrite (p : Platform) (x : Slot) : Instr → Nat → Slot → Prop
  | create (d : Dir) (m : Mode) (k : KeySize) (path : Path) (j : Nat) : x.alloc = false → k ≠ .none →
      SlotWrite p x (.create d m) j (createdSlot m d k path)
  | dispose (h : Handle) : SlotWrite p x (.dispose h) h.toNat Slot.free
  | cbcInit (h : Handle) (key : BitVec 256) (v : Block) : x.alloc = true → x.mode = .cbc →
      SlotWrite p x (.cbcInit h) h.toNat { x with key := key, iv := v, chain := v, phase := .ready }
  | cbcProcess (h : Handle) (c : Block) : x.alloc = true → x.mode = .cbc →
      SlotWrite p x (.cbcProcess h) h.toNat { x with chain := c }
  | cbcReset (h : Handle) : x.alloc = true → x.mode = .cbc → SlotWrite p x (.cbcReset h) h.toNat { x with chain := x.iv }
  | gcmInit (h : Handle) (d : Dir) (key nonce aad : List Byte) (tagBits : Nat) : x.alloc = true → x.mode = .aead →
      aad.length ≤ aadMax → 32 ≤ tagBits → tagBits ≤ 128 →
      SlotWrite p x (.gcmInit h d) h.toNat (initSlot p x d key nonce aad tagBits)
  | message {i : Instr} {y : Slot} (h : Handle) : handleOf i = some h → x.alloc = true → x.mode = .aead →
      MessageStep p x y → SlotWrite p x i h.toNat y
  | clear (h : Handle) : x.alloc = true → x.mode = .aead → SlotWrite p x (.gcmReset h false) h.toNat (clearedSlot x)

/-- A command that writes slot `k` leaves every other slot. -/
theorem slot_of_setSlot {i : Instr} {s t : State} {k : Nat} {y : Slot} (hsess : t.sess = (s.setSlot k y).sess)
    (hw : SlotWrite s.cfg (s.slot k) i k y) (j : Nat) :
    t.slot j = s.slot j ∨ SlotWrite s.cfg (s.slot j) i j (t.slot j) := by
  have ht : t.slot j = (s.setSlot k y).slot j := congrArg (sparseGet Slot.free · j) hsess
  by_cases hj : j = k
  · subst hj
    rw [ht, slot_setSlot_same]
    exact .inr hw
  · exact .inl (ht.trans (slot_setSlot_other _ _ _ hj))

/-- What a handle resolved in a mode tells of its slot (R92). -/
theorem slot_of_resolve {s : State} {m : Mode} {h : Handle} {x : Slot} (hr : s.resolve (some m) h = some x) :
    x = s.slot h.toNat ∧ (s.slot h.toNat).alloc = true ∧ (s.slot h.toNat).mode = m := by
  obtain ⟨_, _, ha, hm, hx⟩ := (resolve_some_iff _ _ _ _).1 hr
  exact ⟨hx, ha, hm⟩

/-- A command of a running AEAD message writes the slot of its handle. -/
theorem slot_of_message {i : Instr} {s t : State} {h : Handle} {x y : Slot} (hi : handleOf i = some h)
    (hr : s.resolve (some .aead) h = some x) (hy : MessageStep s.cfg x y) (hsess : t.sess = (s.setSlot h.toNat y).sess)
    (j : Nat) : t.slot j = s.slot j ∨ SlotWrite s.cfg (s.slot j) i j (t.slot j) := by
  obtain ⟨rfl, ha, hm⟩ := slot_of_resolve hr
  exact slot_of_setSlot hsess (.message h hi ha hm hy) j

/-- A length operand is below the limit on AAD (R148, R85). -/
theorem len32_le_aadMax (a : Args) (r : ArgReg) : len32 a r ≤ aadMax := by
  have := len32_lt a r
  unfold aadMax
  omega

/-- Everything a command can do to slot `j`. -/
theorem exec_slot {i : Instr} {s t : State} (hs : exec i s = .next t) (j : Nat) :
    t.slot j = s.slot j ∨ SlotWrite s.cfg (s.slot j) i j (t.slot j) := by
  cases i with
  | caps =>
    obtain rfl := Host.Outcome.next.inj hs
    exact .inl rfl
  | blksz =>
    obtain rfl := Host.Outcome.next.inj hs
    exact .inl rfl
  | create d m =>
    rcases execCreate_cases hs with ⟨e, rfl, _⟩ | ⟨k, l, hk, hl, rfl⟩
    · exact .inl rfl
    · have hfree := ((firstFree_some_iff _ _ _ _).1 hl).2.2.1
      exact slot_of_setSlot rfl (.create d m k _ l hfree ((keySizeOf_some_iff _ _).1 hk).1) j
  | dispose h =>
    rcases execDispose_cases hs with ⟨e, rfl, _⟩ | ⟨x, _, rfl⟩
    · exact .inl rfl
    · exact slot_of_setSlot rfl (.dispose h) j
  | cbcInit h =>
    rcases execCbcInit_cases hs with ⟨e, rfl, _⟩ | ⟨x, _, hx, _, _, _, _, _, rfl⟩
    · exact .inl rfl
    · obtain ⟨rfl, ha, hm⟩ := slot_of_resolve hx
      exact slot_of_setSlot rfl (.cbcInit h _ _ ha hm) j
  | cbcProcess h =>
    rcases execCbcProcess_cases hs with ⟨e, rfl, _⟩ | ⟨x, _, hx, _, _, _, _, _, r, _, rfl⟩
    · exact .inl rfl
    · obtain ⟨rfl, ha, hm⟩ := slot_of_resolve hx
      exact slot_of_setSlot rfl (.cbcProcess h r.2 ha hm) j
  | cbcReset h =>
    rcases execCbcReset_cases hs with ⟨e, rfl, _⟩ | ⟨x, hx, _, rfl⟩
    · exact .inl rfl
    · obtain ⟨rfl, ha, hm⟩ := slot_of_resolve hx
      exact slot_of_setSlot rfl (.cbcReset h ha hm) j
  | gcmInit h d =>
    rcases execGcmInit_cases hs with ⟨e, rfl, _⟩ | ⟨x, _, hx, _, _, _, _, ht1, ht2, _, _, _, rfl⟩
    · exact .inl rfl
    · obtain ⟨rfl, ha, hm⟩ := slot_of_resolve hx
      exact slot_of_setSlot rfl
        (.gcmInit h d _ _ _ _ ha hm (by rw [memRead_length]; exact len32_le_aadMax _ _) ht1 ht2) j
  | gcmAadByte h =>
    rcases execGcmAadByte_cases hs with ⟨e, rfl, _⟩ | ⟨x, _, hx, hp, hc, rfl⟩
    · exact .inl rfl
    · exact slot_of_message rfl hx (.aad [byte8 s.args] hp hc) rfl j
  | gcmAadBytes h =>
    rcases execGcmAadBytes_cases hs with ⟨e, rfl, _⟩ | ⟨x, _, hx, hp, hc, _, rfl⟩
    · exact .inl rfl
    · exact slot_of_message rfl hx (.aad _ hp (by rw [memRead_length]; exact hc)) rfl j
  | gcmByte h =>
    rcases execGcmByte_cases hs with ⟨e, rfl, _⟩ | ⟨x, _, hx, hp, _, hc, _, r, rfl, rfl⟩
    · exact .inl rfl
    · exact slot_of_message rfl hx (.data [byte8 s.args] hp hc) rfl j
  | gcmBytes h =>
    rcases execGcmBytes_cases hs with ⟨e, rfl, _⟩ | ⟨x, _, _, _, _, rfl⟩ | ⟨x, _, hx, hp, _, _, hc, _, _, r, rfl, rfl⟩
    · exact .inl rfl
    · exact .inl rfl
    · exact slot_of_message rfl hx (.data _ hp (by rw [memRead_length]; exact hc)) rfl j
  | gcmFinal h =>
    rcases execGcmFinal_cases hs with
      ⟨e, rfl, _⟩ | ⟨x, _, hx, hp, ⟨hd, _, rfl⟩ | ⟨_, _, _, r, z, rfl, rfl, ⟨_, rfl⟩ | ⟨_, rfl⟩⟩⟩
    · exact .inl rfl
    · exact slot_of_message rfl hx (.short hp hd) rfl j
    · exact slot_of_message rfl hx (.final hp) rfl j
    · exact slot_of_message rfl hx (.final hp) rfl j
  | gcmUosize h =>
    rcases execGcmUosize_cases hs with ⟨e, rfl, _⟩ | ⟨x, _, _, _, rfl⟩ <;> exact .inl rfl
  | gcmOsize h =>
    rcases execGcmOsize_cases hs with ⟨e, rfl, _⟩ | ⟨x, _, _, _, rfl⟩ <;> exact .inl rfl
  | gcmMac h =>
    rcases execGcmMac_cases hs with ⟨e, rfl, _⟩ | ⟨x, _, _, _, _, _, _, _, rfl⟩ <;> exact .inl rfl
  | gcmReset h keep =>
    rcases execGcmReset_cases hs with ⟨e, rfl, _⟩ | ⟨x, hx, ⟨_, hp, rfl⟩ | ⟨rfl, rfl⟩⟩
    · exact .inl rfl
    · exact slot_of_message rfl hx (.restart hp) rfl j
    · obtain ⟨rfl, ha, hm⟩ := slot_of_resolve hx
      exact slot_of_setSlot rfl (.clear h ha hm) j

section
variable {p : Platform} {x y : Slot} {i : Instr} {j : Nat}

/-- The commands of a running message change only the running fields of R31: what the session was set up with and its checkpoint
stay. -/
theorem MessageStep.shape (h : MessageStep p x y) :
    y = { x with
      phase := y.phase, ctr := y.ctr, acc := y.acc, aadCount := y.aadCount, dataCount := y.dataCount, aadBuf := y.aadBuf,
      dataBuf := y.dataBuf, tag := y.tag, tagValid := y.tagValid } := by
  cases h with
  | aad a => rw [absorbAad_shape]
  | data d => rw [absorbData_shape, enterData_shape]
  | short => rw [enterData_shape]
  | final => rw [sealTag_shape, finalBlock_shape, enterData_shape]
  | restart => rfl

theorem MessageStep.alloc_eq (h : MessageStep p x y) : y.alloc = x.alloc := by rw [h.shape]
theorem MessageStep.mode_eq (h : MessageStep p x y) : y.mode = x.mode := by rw [h.shape]
theorem MessageStep.keySize_eq (h : MessageStep p x y) : y.keySize = x.keySize := by rw [h.shape]

/-- The commands of a running message keep the invariants of R34. -/
theorem MessageStep.inv (h : MessageStep p x y) (hx : AeadInv x) (hy : AeadAux x) : AeadInv y ∧ AeadAux y := by
  cases h with
  | aad a hp hc => exact ⟨aeadInv_absorbAad hx hp hc, aeadAux_absorbAad hy⟩
  | data d hp hc => exact ⟨aeadInv_absorbData hx hp hc, aeadAux_absorbData hx hy hp⟩
  | short hp hd => exact aeadInv_short hx hy hp hd
  | final hp => exact ⟨aeadInv_seal hx hp, aeadAux_seal hx hy hp⟩
  | restart hp => exact aeadInv_restart hy hp

/-- A session command writes no slot but that of its handle (R39). -/
theorem SlotWrite.eq_handle (hw : SlotWrite p x i j y) {h : Handle} (hi : handleOf i = some h) : j = h.toNat := by
  cases hw with
  | create => cases hi
  | message h' hi' => rw [Option.some.inj (hi.symm.trans hi')]
  | dispose | cbcInit | cbcProcess | cbcReset | gcmInit | clear => rw [Option.some.inj hi]

/-- A slot that comes to be allocated is CREATE's (R28). -/
theorem SlotWrite.create_of_alloc (hw : SlotWrite p x i j y) (hx : x.alloc = false) (hy : y.alloc = true) :
    ∃ d m, i = .create d m := by
  cases hw with
  | create d m => exact ⟨d, m, rfl⟩
  | dispose => cases hy
  | cbcInit _ _ _ ha | cbcProcess _ _ ha | cbcReset _ ha | gcmInit _ _ _ _ _ _ ha | message _ _ ha | clear _ ha =>
    rw [hx] at ha
    cases ha

/-- A slot that comes to be free is DISPOSE's (R28). -/
theorem SlotWrite.dispose_of_free (hw : SlotWrite p x i j y) (hx : x.alloc = true) (hy : y.alloc = false) :
    ∃ h, i = .dispose h ∧ h.toNat = j := by
  cases hw with
  | dispose h => exact ⟨h, rfl, rfl⟩
  | create => cases hy
  | message _ _ _ _ hm => exact absurd (hm.alloc_eq.trans hx) (by simp [hy])
  | gcmInit => exact absurd (hy.symm.trans ((initSlot_alloc ..).trans hx)) (by simp)
  | cbcInit | cbcProcess | cbcReset | clear => exact absurd hx (by simp [show x.alloc = false from hy])

/-- Every write of a slot keeps its invariants (R34). -/
theorem SlotWrite.inv (hw : SlotWrite p x i j y) (hx : SlotInv x) : SlotInv y := by
  cases hw with
  | create d m k path _ _ hk =>
    cases m with
    | cbc => exact slotInv_cbc hk rfl (.inl rfl)
    | aead =>
      obtain ⟨hinv, haux⟩ := aeadInv_fresh (x := createdSlot .aead d k path) rfl rfl rfl rfl rfl rfl rfl rfl
      exact slotInv_aead hk rfl hinv haux
  | dispose => exact slotInv_free
  | cbcInit _ _ _ ha hm => exact slotInv_cbc (hx ha).1 hm (.inr rfl)
  | cbcProcess _ _ ha hm | cbcReset _ ha hm => exact slotInv_cbc (hx ha).1 hm ((hx ha).2.1 hm)
  | gcmInit _ d key nonce aad tagBits ha hm hl h1 h2 =>
    have hshape := initSlot_closed (p := p) (x := x) (d := d) (key := key) (nonce := nonce) (aad := aad) (tb := tagBits) rfl
    exact slotInv_aead ((congrArg Slot.keySize hshape).trans_ne (hx ha).1) ((congrArg Slot.mode hshape).trans hm)
      (aeadInv_init hl) (aeadAux_init hl h1 h2)
  | message _ _ ha hm hstep =>
    obtain ⟨hk, -, haead⟩ := hx ha
    obtain ⟨hinv, haux⟩ := haead hm
    obtain ⟨hinv', haux'⟩ := hstep.inv hinv haux
    exact slotInv_aead (hstep.keySize_eq.trans_ne hk) (hstep.mode_eq.trans hm) hinv' haux'
  | clear _ ha hm =>
    obtain ⟨hinv, haux⟩ := aeadInv_fresh (x := clearedSlot x) rfl rfl rfl rfl rfl rfl rfl rfl
    exact slotInv_aead (hx ha).1 hm hinv haux

/-- What a command `i` may change of an allocated slot `j` that held `x` and now holds `y` (R29, R30, R33, R113, R165). -/
def KeyChanges (i : Instr) (j : Nat) (x y : Slot) : Prop :=
  y.mode = x.mode ∧ y.keySize = x.keySize ∧ y.path = x.path ∧
    (y.dir ≠ x.dir → ∃ h d, i = .gcmInit h d ∧ h.toNat = j) ∧
    (y.key ≠ x.key → ∃ h, h.toNat = j ∧ (i = .cbcInit h ∨ (∃ d, i = .gcmInit h d) ∨ i = .gcmReset h false)) ∧
    (y.iv ≠ x.iv → ∃ h, i = .cbcInit h ∧ h.toNat = j) ∧
    (y.chain ≠ x.chain → ∃ h, h.toNat = j ∧ (i = .cbcInit h ∨ i = .cbcProcess h ∨ i = .cbcReset h)) ∧
    ((y.hkey, y.j0, y.tagLen, y.ckAcc, y.ckAadCount, y.ckAadBuf) ≠
        (x.hkey, x.j0, x.tagLen, x.ckAcc, x.ckAadCount, x.ckAadBuf) →
      ∃ h, h.toNat = j ∧ ((∃ d, i = .gcmInit h d) ∨ i = .gcmReset h false))

/-- A slot whose running fields alone have changed. -/
theorem keyChanges_running (i : Instr) (j : Nat) (x : Slot) (phase : Phase) (ctr acc : Block) (aadCount dataCount : Word64)
    (aadBuf dataBuf : List Byte) (tag : Block) (tagValid : Bool) :
    KeyChanges i j x { x with
      phase := phase, ctr := ctr, acc := acc, aadCount := aadCount, dataCount := dataCount, aadBuf := aadBuf,
      dataBuf := dataBuf, tag := tag, tagValid := tagValid } :=
  ⟨rfl, rfl, rfl, absurd rfl, absurd rfl, absurd rfl, absurd rfl, absurd rfl⟩

theorem SlotWrite.keyChanges (hw : SlotWrite p x i j y) (hx : x.alloc = true) (hy : y.alloc = true) : KeyChanges i j x y := by
  cases hw with
  | create _ _ _ _ _ ha => simp [hx] at ha
  | dispose => cases hy
  | cbcInit h =>
    exact ⟨rfl, rfl, rfl, absurd rfl, fun _ => ⟨h, rfl, .inl rfl⟩, fun _ => ⟨h, rfl, rfl⟩, fun _ => ⟨h, rfl, .inl rfl⟩, absurd rfl⟩
  | cbcProcess h =>
    exact ⟨rfl, rfl, rfl, absurd rfl, absurd rfl, absurd rfl, fun _ => ⟨h, rfl, .inr (.inl rfl)⟩, absurd rfl⟩
  | cbcReset h =>
    exact ⟨rfl, rfl, rfl, absurd rfl, absurd rfl, absurd rfl, fun _ => ⟨h, rfl, .inr (.inr rfl)⟩, absurd rfl⟩
  | gcmInit h d =>
    rw [initSlot_closed rfl]
    exact ⟨rfl, rfl, rfl, fun _ => ⟨h, d, rfl, rfl⟩, fun _ => ⟨h, rfl, .inr (.inl ⟨d, rfl⟩)⟩, absurd rfl, absurd rfl,
      fun _ => ⟨h, rfl, .inl ⟨d, rfl⟩⟩⟩
  | message _ _ _ _ hm =>
    rw [hm.shape]
    exact keyChanges_running ..
  | clear h =>
    exact ⟨rfl, rfl, rfl, absurd rfl, fun _ => ⟨h, rfl, .inr (.inr rfl)⟩, absurd rfl, absurd rfl, fun _ => ⟨h, rfl, .inr rfl⟩⟩

end

/-- Settles O15: of the slots a command writes, only CREATE's was free and only DISPOSE's is. -/
theorem onlyCreateAndDisposeAllocate : Obligations.OnlyCreateAndDisposeAllocate := by
  intro i s t j hs
  rcases exec_slot hs j with hkept | hw
  · rw [hkept]
    exact ⟨fun hx hy => by simp [hx] at hy, fun hx hy => by simp [hx] at hy⟩
  · exact ⟨hw.create_of_alloc, hw.dispose_of_free⟩

/-- Settles O23, by the cases of the one slot a command writes. -/
theorem keysChangeOnlyAtInit : Obligations.KeysChangeOnlyAtInit := by
  rintro i s t j x y hs rfl rfl hx hy
  rcases exec_slot hs j with hkept | hw
  · rw [hkept]
    exact keyChanges_running ..
  · exact hw.keyChanges hx hy

/-! The invariants over a step. -/

theorem slotsInv_of_slotsKept {s t : State} (hs : SlotsInv s) (hk : SlotsKept s t) : SlotsInv t := fun j => by
  rw [hk j]
  exact hs j

theorem slotsInv_of_free {s : State} (h : ∀ j, s.slot j = Slot.free) : SlotsInv s := fun j => by
  rw [h j]
  exact slotInv_free

/-- A command keeps the invariants of the slots (R34). -/
theorem exec_slotsInv {i : Instr} {s t : State} (hs : SlotsInv s) (hx : exec i s = .next t) : SlotsInv t := fun j => by
  rcases exec_slot hx j with hkept | hw
  · rw [hkept]
    exact hs j
  · exact hw.inv (hs j)

/-- A host access keeps them: a reset frees every slot, and no other access reaches the table (R71, R250). -/
theorem hostAccess_slotsInv {a : HostAccess} {s t : State} (hs : SlotsInv s) (hx : hostAccess a s = .next t) :
    SlotsInv t := by
  rcases hostAccess_cases hx with ⟨_, rfl⟩ | ⟨_, ⟨_, _, _, rfl⟩ | ⟨_, rfl⟩ | ⟨_, _, _, rfl⟩⟩
  · exact slotsInv_of_free fun j => afterReset_slot s j
  · exact slotsInv_of_slotsKept hs fun _ => rfl
  · exact slotsInv_of_slotsKept hs fun _ => rfl
  · exact slotsInv_of_slotsKept hs fun _ => rfl

/-- Settles O21: a step is a command, a CMD word that is no command, a host access, or nothing. -/
theorem slotInvariantsAreKept : Obligations.SlotInvariantsAreKept := by
  intro s t hs hstep
  rcases step_cases hstep with ⟨_, ⟨i, _, hx⟩ | ⟨_, _, rfl⟩⟩ | ⟨_, ⟨_, rfl⟩ | ⟨a, rest, _, hx⟩⟩
  · exact exec_slotsInv (s := { s with cmdStarted := false }) hs hx
  · exact slotsInv_of_slotsKept hs fun _ => rfl
  · exact hs
  · exact hostAccess_slotsInv (s := { s with host := rest }) hs hx

/-- Settles O22: after reset the table lists no slot, so every slot is the free slot. -/
theorem resetMeetsTheInvariants : Obligations.ResetMeetsTheInvariants := by
  refine ⟨⟨reset_memory_wf, ⟨List.Pairwise.nil, ?_⟩, ?_⟩, slotsInv_of_free fun j => afterReset_slot _ j⟩
  · exact fun e he => absurd he List.not_mem_nil
  · exact fun e he => absurd he List.not_mem_nil

end Sys2Proof.Machine
end

section
/-! Isolation of the sessions (10_state.md R39): two machines that agree on the operands, memory, the platform and one slot get the same
outcome from every command that names this slot. -/

namespace Sys2Proof.Machine

/-- Two machines agree on all that a command on session `h` may read of them (R39). -/
structure Agree (h : Nat) (s s' : State) : Prop where
  args : s'.args = s.args
  mem : s'.mem = s.mem
  cfg : s'.cfg = s.cfg
  slot : s'.slot h = s.slot h

/-- Two machines agree, and their commands have ended alike (R220). -/
structure SameEnd (h : Nat) (t t' : State) : Prop extends Agree h t t' where
  err : t'.err = t.err
  result : t'.result = t.result

section
variable {h : Nat} {s s' : State}

theorem Agree.setSlot (ha : Agree h s s') (x : Slot) : Agree h (s.setSlot h x) (s'.setSlot h x) :=
  ⟨ha.args, ha.mem, ha.cfg, by rw [slot_setSlot_same, slot_setSlot_same]⟩

theorem Agree.store (ha : Agree h s s') (a : Nat) (v : List Byte) : Agree h (s.store a v) (s'.store a v) :=
  ⟨ha.args, by rw [store_mem, store_mem, ha.mem], ha.cfg, ha.slot⟩

theorem Agree.finish (ha : Agree h s s') (e : ErrCode) (r : Word64) : SameEnd h (s.finish e r) (s'.finish e r) :=
  ⟨⟨ha.args, ha.mem, ha.cfg, ha.slot⟩, rfl, rfl⟩

theorem Agree.raise (ha : Agree h s s') (e : ErrCode) : SameEnd h (s.raise e) (s'.raise e) := ha.finish e 0

theorem SameEnd.ite {c : Prop} [Decidable c] {t t' u u' : State} (ht : SameEnd h t t') (hu : SameEnd h u u') :
    SameEnd h (if c then t else u) (if c then t' else u') := by
  split
  · exact ht
  · exact hu

/-- `Resolve` reads the slot of its handle and NUM_SESSIONS only (R92). -/
theorem Agree.resolve {h : Handle} (ha : Agree h.toNat s s') (m : Option Mode) : s'.resolve m h = s.resolve m h := by
  unfold State.resolve
  rw [ha.slot, ha.cfg]

/-- The frame of a session command gives agreeing machines the same end where its own rule does (R92). -/
theorem Agree.sessionCommand {h : Handle} (ha : Agree h.toNat s s') {op : Op} {m : Option Mode} {body body' : Slot → State}
    (hb : ∀ x, SameEnd h.toNat (body x) (body' x)) {t : State} (ht : sessionCommand op m h s body = .next t) :
    ∃ t', Machine.sessionCommand op m h s' body' = .next t' ∧ SameEnd h.toNat t t' := by
  rcases sessionCommand_cases ht with ⟨hl, rfl⟩ | ⟨hl, hr, rfl⟩ | ⟨hl, x, hr, rfl⟩
  · exact ⟨_, sessionCommand_illegal (ha.args ▸ hl), ha.raise _⟩
  · exact ⟨_, sessionCommand_badHandle (ha.args ▸ hl) ((ha.resolve m).trans hr), ha.raise _⟩
  · exact ⟨_, sessionCommand_run (ha.args ▸ hl) ((ha.resolve m).trans hr), hb x⟩

end

/-- A session command gives agreeing machines the same end: each rule reads the operands, memory, the platform and its slot, and
ends in a `raise`, or writes its slot, its output or both and ends in `finish` (R39). -/
theorem exec_agree {i : Instr} {h : Handle} (hi : handleOf i = some h) {s s' t : State} (ha : Agree h.toNat s s')
    (ht : exec i s = .next t) : ∃ t', exec i s' = .next t' ∧ SameEnd h.toNat t t' := by
  cases i with
  | caps | create | blksz => cases hi
  | dispose =>
    cases hi
    change execDispose h s = _ at ht
    refine ha.sessionCommand (fun x => ?_) ht
    exact (ha.setSlot _).finish _ _
  | cbcInit =>
    cases hi
    refine ha.sessionCommand (fun x => ?_) ht
    simp only [ha.args, ha.mem, ha.cfg]
    exact .ite (ha.raise _) (.ite (ha.raise _) (.ite (ha.raise _) ((ha.setSlot _).finish _ _)))
  | cbcProcess =>
    cases hi
    refine ha.sessionCommand (fun x => ?_) ht
    simp only [ha.args, ha.mem, ha.cfg]
    exact .ite (ha.raise _) (.ite (ha.raise _) (.ite (ha.raise _) (((ha.setSlot _).store _ _).finish _ _)))
  | cbcReset =>
    cases hi
    change execCbcReset h s = _ at ht
    refine ha.sessionCommand (fun x => ?_) ht
    exact .ite (ha.raise _) ((ha.setSlot _).finish _ _)
  | gcmInit =>
    cases hi
    refine ha.sessionCommand (fun x => ?_) ht
    simp only [ha.args, ha.mem, ha.cfg]
    exact .ite (ha.raise _) (.ite (ha.raise _) (.ite (ha.raise _) (.ite (ha.raise _) ((ha.setSlot _).finish _ _))))
  | gcmAadByte =>
    cases hi
    refine ha.sessionCommand (fun x => ?_) ht
    simp only [ha.args]
    exact .ite (ha.raise _) (.ite (ha.raise _) ((ha.setSlot _).finish _ _))
  | gcmAadBytes =>
    cases hi
    refine ha.sessionCommand (fun x => ?_) ht
    simp only [ha.args, ha.mem, ha.cfg]
    exact .ite (ha.raise _) (.ite (ha.raise _) (.ite (ha.raise _) ((ha.setSlot _).finish _ _)))
  | gcmByte =>
    cases hi
    refine ha.sessionCommand (fun x => ?_) ht
    simp only [ha.args, ha.cfg]
    exact .ite (ha.raise _) (.ite (ha.raise _) (.ite (ha.raise _) (.ite (ha.raise _)
      (((ha.setSlot _).store _ _).finish _ _))))
  | gcmBytes =>
    cases hi
    refine ha.sessionCommand (fun x => ?_) ht
    simp only [ha.args, ha.mem, ha.cfg]
    exact .ite (ha.raise _) (.ite (ha.finish _ _) (.ite (ha.raise _) (.ite (ha.raise _) (.ite (ha.raise _)
      (((ha.setSlot _).store _ _).finish _ _)))))
  | gcmFinal =>
    cases hi
    refine ha.sessionCommand (fun x => ?_) ht
    simp only [ha.args, ha.cfg]
    refine .ite (ha.raise _) (.ite ((ha.setSlot _).finish _ _) (.ite (ha.raise _) (.ite (ha.raise _) ?_)))
    cases x.dir with
    | encrypt => exact ((ha.setSlot _).store _ _).finish _ _
    | decrypt => exact ((ha.setSlot _).store _ _).finish _ _
  | gcmUosize =>
    cases hi
    refine ha.sessionCommand (fun x => ?_) ht
    simp only [ha.args]
    exact .ite (ha.raise _) (ha.finish _ _)
  | gcmOsize =>
    cases hi
    refine ha.sessionCommand (fun x => ?_) ht
    simp only [ha.args]
    exact .ite (ha.raise _) (ha.finish _ _)
  | gcmMac =>
    cases hi
    refine ha.sessionCommand (fun x => ?_) ht
    simp only [ha.args, ha.cfg]
    exact .ite (ha.raise _) (.ite (ha.raise _) (.ite (ha.raise _) ((ha.store _ _).finish _ _)))
  | gcmReset _ keep =>
    cases hi
    change execGcmReset h keep s = _ at ht
    refine ha.sessionCommand (fun x => ?_) ht
    exact .ite (.ite (ha.raise _) ((ha.setSlot _).finish _ _)) ((ha.setSlot _).finish _ _)

/-- A session command leaves the other sessions (R39). -/
theorem exec_otherSlotsKept {i : Instr} {h : Handle} (hi : handleOf i = some h) {s t : State} (ht : exec i s = .next t) :
    OtherSlotsKept h.toNat s t := fun j hj => (exec_slot ht j).resolve_right fun hw => hj (hw.eq_handle hi)

/-- Settles O13: the outcome by `exec_agree`, the other slots, of either machine, by `exec_otherSlotsKept`. -/
theorem sessionsAreIsolated : Obligations.SessionsAreIsolated := by
  intro i h s s' t hi hargs hmem hcfg hslot ht
  obtain ⟨t', ht', hend⟩ := exec_agree hi ⟨hargs, hmem, hcfg, hslot⟩ ht
  exact ⟨exec_otherSlotsKept hi ht, t', ht', hend.err, hend.result, hend.mem, hend.slot, exec_otherSlotsKept hi ht'⟩

end Sys2Proof.Machine
end

section
/-! Writes of the register window (20_memory.md R62, R63): CMD, and an argument register whole or by halves. -/

namespace Sys2Proof.Machine

section
variable {s : State} {addr : Word64} {bytes : List Byte} {rest : List HostAccess}

/-- A 4-byte write at an aligned offset writes the little-endian word (R63). -/
theorem step_windowWrite_word {off : Nat} (hat : AtOffset s addr off) (hn : HostNext s (.windowWrite addr bytes) rest)
    (hoff : off % 4 = 0) (hlen : bytes.length = 4) :
    step s = .next (writeWord { s with host := rest } off (BitVec.ofNat 32 (intLe bytes))) := by
  rw [step_windowWrite hat hn, if_pos (by simp [accessLegal, hlen, hoff]), windowStore, if_neg (by omega)]

/-- An 8-byte write at an aligned offset from 0x10 on writes the low and the high word (R63). -/
theorem step_windowWrite_double {off : Nat} (hat : AtOffset s addr off)
    (hn : HostNext s (.windowWrite addr bytes) rest) (hoff : off % 8 = 0) (h16 : 16 ≤ off) (hlen : bytes.length = 8) :
    step s = .next
      (writeWord (writeWord { s with host := rest } off (BitVec.ofNat 32 (intLe (bytes.take 4)))) (off + 4)
        (BitVec.ofNat 32 (intLe (bytes.drop 4)))) := by
  rw [step_windowWrite hat hn, if_pos (by simp [accessLegal, hlen, hoff, h16]), windowStore, if_pos hlen]

/-- A 4-byte string is the value of its little-endian word (R63). -/
theorem word_toNat (hlen : bytes.length = 4) : (BitVec.ofNat 32 (intLe bytes)).toNat = intLe bytes := by
  have hlt := intLe_lt bytes
  rw [hlen] at hlt
  exact Nat.mod_eq_of_lt (by omega)

/-- An 8-byte string is the value of its two little-endian words, the low one first (R63). -/
theorem double_toNat (hlen : bytes.length = 8) :
    (BitVec.ofNat 32 (intLe (bytes.drop 4)) ++ BitVec.ofNat 32 (intLe (bytes.take 4))).toNat = intLe bytes := by
  have ht : (bytes.take 4).length = 4 := by simp [hlen]
  have hd : (bytes.drop 4).length = 4 := by simp [hlen]
  calc (BitVec.ofNat 32 (intLe (bytes.drop 4)) ++ BitVec.ofNat 32 (intLe (bytes.take 4))).toNat
      = intLe (bytes.take 4) + 2 ^ 32 * intLe (bytes.drop 4) := by rw [append_toNat, word_toNat hd, word_toNat ht]
    _ = intLe (bytes.take 4 ++ bytes.drop 4) := by
      rw [intLe_append, ht]
      norm_num
    _ = intLe bytes := by rw [List.take_append_drop]

/-- The state once the host has written `v` to an argument register (R21). -/
def argWritten (s : State) (rest : List HostAccess) (r : ArgReg) (v : Word64) : State :=
  { s with host := rest, args := setArg s.args r v }

variable {r : ArgReg}

theorem step_argWrite_whole (hat : AtOffset s addr (argOffset r)) (hn : HostNext s (.windowWrite addr bytes) rest)
    (hlen : bytes.length = 8) :
    step s = .next (argWritten s rest r
      (BitVec.ofNat 32 (intLe (bytes.drop 4)) ++ BitVec.ofNat 32 (intLe (bytes.take 4)))) := by
  obtain ⟨-, -, hoff, h16⟩ := argAtOffset_argOffset r
  rw [step_windowWrite_double hat hn hoff h16 hlen, writeWord_arg_low, writeWord_arg_high]
  simp only [getArg_setArg, setArg_setArg, append_low, argWritten]

theorem step_argWrite_low (hat : AtOffset s addr (argOffset r)) (hn : HostNext s (.windowWrite addr bytes) rest)
    (hlen : bytes.length = 4) :
    step s = .next (argWritten s rest r ((getArg s.args r).extractLsb' 32 32 ++ BitVec.ofNat 32 (intLe bytes))) := by
  obtain ⟨-, -, hoff, -⟩ := argAtOffset_argOffset r
  rw [step_windowWrite_word hat hn (by omega) hlen, writeWord_arg_low, argWritten]

theorem step_argWrite_high (hat : AtOffset s addr (argOffset r + 4)) (hn : HostNext s (.windowWrite addr bytes) rest)
    (hlen : bytes.length = 4) :
    step s = .next (argWritten s rest r (BitVec.ofNat 32 (intLe bytes) ++ (getArg s.args r).extractLsb' 0 32)) := by
  obtain ⟨-, -, hoff, -⟩ := argAtOffset_argOffset r
  rw [step_windowWrite_word hat hn (by omega) hlen, writeWord_arg_high, argWritten]

/-- A host address is at one offset of the window (R62). -/
theorem atOffset_inj {off off' : Nat} (h : AtOffset s addr off) (h' : AtOffset s addr off') : off = off' := by
  obtain ⟨ha, _⟩ := h
  obtain ⟨ha', _⟩ := h'
  omega

end

/-- Settles O57: the word at offset 0 is CMD. -/
theorem cmdWriteStartsACommand : Obligations.CmdWriteStartsACommand := by
  intro s addr bytes rest hat hlen hn
  rw [step_windowWrite_word hat hn rfl hlen, writeWord, if_pos rfl]

/-- Settles O58: the three accesses exclude each other by offset and width, so one value of the register serves them all. -/
theorem argumentWrites : Obligations.ArgumentWrites := by
  intro s r addr bytes rest hn
  obtain ⟨v, hwhole, hlow, hhigh⟩ : ∃ v,
      (AtOffset s addr (argOffset r) → bytes.length = 8 → step s = .next (argWritten s rest r v) ∧ v.toNat = intLe bytes) ∧
      (AtOffset s addr (argOffset r) → bytes.length = 4 →
        step s = .next (argWritten s rest r v) ∧ (v.extractLsb' 0 32).toNat = intLe bytes ∧
          v.extractLsb' 32 32 = (getArg s.args r).extractLsb' 32 32) ∧
      (AtOffset s addr (argOffset r + 4) → bytes.length = 4 →
        step s = .next (argWritten s rest r v) ∧ (v.extractLsb' 32 32).toNat = intLe bytes ∧
          v.extractLsb' 0 32 = (getArg s.args r).extractLsb' 0 32) := by
    by_cases hlo : AtOffset s addr (argOffset r)
    · have hne : ¬ AtOffset s addr (argOffset r + 4) := fun hhi => by
        have := atOffset_inj hlo hhi
        omega
      by_cases h8 : bytes.length = 8
      · exact ⟨_, fun _ _ => ⟨step_argWrite_whole hlo hn h8, double_toNat h8⟩, fun _ h4 => by omega,
          fun hhi => absurd hhi hne⟩
      · exact ⟨_, fun _ h8' => absurd h8' h8,
          fun _ h4 => ⟨step_argWrite_low hlo hn h4, by rw [append_low, word_toNat h4], append_high _ _⟩,
          fun hhi => absurd hhi hne⟩
    · exact ⟨_, fun hlo' => absurd hlo' hlo, fun hlo' => absurd hlo' hlo,
        fun hhi h4 => ⟨step_argWrite_high hhi hn h4, by rw [append_high, word_toNat h4], append_low _ _⟩⟩
  have hget : getArg (argWritten s rest r v).args r = v := getArg_setArg _ _ _
  refine ⟨argWritten s rest r v, ?_, ?_, ?_, fun q hq => getArg_setArg_other _ _ hq, rfl⟩
  · rw [hget]
    exact hwhole
  · rw [hget]
    exact hlow
  · rw [hget]
    exact hhigh

end Sys2Proof.Machine
end

section
/-! Buffer memory and the session table as stores (20_memory.md R60, R61, R69; 10_state.md R28): the canonical forms every step keeps, the
bytes a command and the host may write, and the outcome that stays between commands. -/

namespace Sys2Proof.Machine

section
variable {s t : State}

/-- The canonical forms speak of memory, the session table and the platform only. -/
theorem StoresInv.of_same (h : StoresInv s) (hmem : t.mem = s.mem) (hsess : t.sess = s.sess) (hcfg : t.cfg = s.cfg) :
    StoresInv t := by
  unfold StoresInv
  rw [hmem, hsess, hcfg]
  exact h

/-- Ending a command writes neither store (R220). -/
theorem StoresInv.finish (h : StoresInv s) (e : ErrCode) (r : Word64) : StoresInv (s.finish e r) := h.of_same rfl rfl rfl

/-- A slot of the table may be written with an allocated slot, or with the free slot, which is not listed (log entry 5). -/
theorem StoresInv.setSlot (h : StoresInv s) {j : Nat} {y : Slot} (h1 : 1 ≤ j) (hn : j ≤ numSessions s.cfg)
    (hy : y = Slot.free ∨ y.alloc = true) : StoresInv (s.setSlot j y) := by
  obtain ⟨hmem, hsess, hlist⟩ := h
  refine ⟨hmem, sparseSet_wf j y hsess, fun e he => ?_⟩
  rcases mem_sparseSet he with ⟨rfl, hne⟩ | he
  · exact ⟨h1, hn, hy.resolve_left hne⟩
  · exact hlist e he

/-- Bytes may be written at addresses that exist (R60). -/
theorem StoresInv.store (h : StoresInv s) {a : Nat} {v : List Byte} (hv : a + v.length ≤ 2 ^ 64) :
    StoresInv (s.store a v) := by
  obtain ⟨hmem, hsess⟩ := h
  exact ⟨memWrite_wf hmem hv, hsess⟩

/-- A reset lists no slot and leaves memory (R250). -/
theorem StoresInv.afterReset (h : StoresInv s) : StoresInv s.afterReset :=
  ⟨h.1, ⟨List.Pairwise.nil, fun _ he => absurd he List.not_mem_nil⟩, fun _ he => absurd he List.not_mem_nil⟩

variable {i : Instr}

/-- The slot a command writes is one of the table (R28). -/
theorem WritesSlot.range {j : Nat} (h : WritesSlot i s j) : 1 ≤ j ∧ j ≤ numSessions s.cfg := by
  rcases h with ⟨_, _, _, h1, hn, _⟩ | ⟨_, _, h1, hn⟩
  · exact ⟨h1, hn⟩
  · exact ⟨h1, hn⟩

/-- The bytes a command writes exist: an accessible range ends in the address space, and an empty one holds no byte (R61). -/
theorem WritesRange.bound {v : List Byte} {r : Word64} (h : WritesRange i s v r) :
    addrOf s.args .arg3 + v.length ≤ 2 ^ 64 := by
  obtain ⟨_, hlen, hacc⟩ := h
  have haddr : addrOf s.args .arg3 < 2 ^ 64 := (getArg s.args .arg3).isLt
  rcases accessible_bound hacc with hr | hr <;> omega

theorem Effect.storesInv {e : ErrCode} {r : Word64} (h : Effect i s e r t) (hs : StoresInv s) : StoresInv t := by
  cases h with
  | query => exact hs.finish e r
  | slot j y hj hy =>
    obtain ⟨h1, hn⟩ := hj.range
    exact (hs.setSlot h1 hn hy).finish e r
  | mem v hv => exact (hs.store hv.bound).finish e r
  | both j y v hj hy hv =>
    obtain ⟨h1, hn⟩ := hj.range
    have hslot : StoresInv (s.setSlot j y) := hs.setSlot h1 hn (.inr hy)
    exact (hslot.store hv.bound).finish e r

theorem exec_storesInv (hs : StoresInv s) (hx : exec i s = .next t) : StoresInv t := by
  rcases exec_cases hx with ⟨e, rfl, _⟩ | ⟨e, r, _, heff⟩
  · exact hs.finish e 0
  · exact heff.storesInv hs

theorem hostAccess_storesInv {a : HostAccess} (hs : StoresInv s) (hx : hostAccess a s = .next t) : StoresInv t := by
  rcases hostAccess_cases hx with ⟨_, rfl⟩ | ⟨_, ⟨_, _, _, rfl⟩ | ⟨_, rfl⟩ | ⟨_, _, hv, rfl⟩⟩
  · exact hs.afterReset
  · exact hs.of_same rfl rfl rfl
  · exact hs.of_same rfl rfl rfl
  · exact hs.store hv

end

/-- Settles O20: a command writes one slot of the table and an accessible range at most, and the host only bytes that exist. -/
theorem storesStayCanonical : Obligations.StoresStayCanonical := by
  intro s t hs hstep
  rcases step_cases hstep with ⟨_, ⟨i, _, hx⟩ | ⟨_, _, rfl⟩⟩ | ⟨_, ⟨_, rfl⟩ | ⟨a, rest, _, hx⟩⟩
  · exact exec_storesInv (s := { s with cmdStarted := false }) (hs.of_same rfl rfl rfl) hx
  · exact hs.of_same rfl rfl rfl
  · exact hs
  · exact hostAccess_storesInv (s := { s with host := rest }) (hs.of_same rfl rfl rfl) hx

/-- A command that leaves memory and has an output range only for RESULT 0 keeps to its output range. -/
theorem outputRange_of_memoryKept {i : Instr} {s t : State} (hmem : MemoryKept s t)
    (hr : writesOutput i = false ∨ t.result = 0) :
    if writesOutput i then
      MemoryKeptOutside (addrOf s.args .arg3) t.result.toNat s t ∧
        accessible s.cfg (addrOf s.args .arg3) t.result.toNat = true
    else MemoryKept s t := by
  split
  · rename_i hout
    have hzero : t.result = 0 := hr.resolve_left (by simp [hout])
    rw [hzero]
    exact ⟨fun b _ => hmem b, accessible_zero _ _⟩
  · exact hmem

/-- Settles O14: an error writes no byte and ends with RESULT 0; what else a command may write is `Effect.memory`. -/
theorem onlyOutputBytesChange : Obligations.OnlyOutputBytesChange := by
  intro i s t hx
  rcases exec_cases hx with ⟨e, rfl, _⟩ | ⟨e, r, _, heff⟩
  · exact outputRange_of_memoryKept (fun _ => rfl) (.inr rfl)
  · rcases heff.memory with ⟨hmem, hr⟩ | ⟨hout, hmem, hacc⟩
    · exact outputRange_of_memoryKept hmem hr
    · rw [if_pos hout]
      exact ⟨hmem, hacc⟩

/-- A host access other than a reset leaves STATUS, RESULT and the session table (R71). -/
theorem hostAccess_outcome {a : HostAccess} {s t : State} (hx : hostAccess a s = .next t) (ha : a ≠ .reset) :
    t.status = s.status ∧ t.result = s.result ∧ t.sess = s.sess := by
  rcases hostAccess_cases hx with ⟨hreset, _⟩ | ⟨_, ⟨_, _, _, rfl⟩ | ⟨_, rfl⟩ | ⟨_, _, _, rfl⟩⟩
  · exact absurd hreset ha
  · exact ⟨rfl, rfl, rfl⟩
  · exact ⟨rfl, rfl, rfl⟩
  · exact ⟨rfl, rfl, rfl⟩

/-- Settles O18: with no command due, a step is a host access or nothing. -/
theorem outcomeStaysUntilNextCommand : Obligations.OutcomeStaysUntilNextCommand := by
  intro s t hstep hidle hreset
  rcases step_cases hstep with ⟨hdue, _⟩ | ⟨_, ⟨_, rfl⟩ | ⟨a, rest, hhost, hx⟩⟩
  · simp [hidle] at hdue
  · exact ⟨rfl, rfl, rfl⟩
  · have ha : a ≠ .reset := by
      rintro rfl
      simp [hhost] at hreset
    exact hostAccess_outcome (s := { s with host := rest }) hx ha

/-- Settles O55: the laws are those of the intervals that give `Accessible` (log entry 2). -/
theorem accessibleObeysItsLaws : Obligations.AccessibleObeysItsLaws := by
  intro p a n
  refine ⟨accessible_zero p a, fun hacc hpos => ?_, fun hacc b k hlo hhi => accessible_sub hacc hlo hhi⟩
  exact (accessible_bound hacc).resolve_left (by omega)

/-- Between commands a step is the host's next access (R12). -/
theorem step_of_hostNext {s : State} {a : HostAccess} {rest : List HostAccess} (hn : HostNext s a rest) :
    step s = hostAccess a { s with host := rest } := by
  obtain ⟨hidle, hhost⟩ := hn
  simp only [step, hidle, hhost, Bool.false_eq_true, if_false]

/-- Settles O56: a store reads back inside its range and keeps every byte outside; a read changes nothing. -/
theorem hostReachesMemory : Obligations.HostReachesMemory := by
  intro s addr rest
  refine ⟨fun bytes hn hlen => ?_, fun n hn hlen => ?_⟩
  · refine ⟨State.store { s with host := rest } addr.toNat bytes, ?_, memRead_memWrite_same _ _ _,
      fun b hb => memByte_memWrite_outside _ _ _ hb, rfl⟩
    rw [step_of_hostNext hn]
    exact if_pos hlen
  · rw [step_of_hostNext hn]
    exact if_pos hlen

end Sys2Proof.Machine
end

section
/-! The rest of the register window (20_memory.md R62, R63): ill-formed accesses, writes that are ignored, and reads. -/

namespace Sys2Proof.Machine

/-- The accesses the window admits (R63; log entries 7, 8). -/
theorem accessLegal_iff (off n : Nat) :
    accessLegal off n = true ↔ n = 4 ∧ off % 4 = 0 ∨ n = 8 ∧ off % 8 = 0 ∧ 16 ≤ off := by
  simp [accessLegal, and_assoc]

/-- A misaligned access, or one of another width than the location's, is not legal (R63). -/
theorem accessLegal_of_illFormed {off n : Nat} (h : (n ≠ 4 ∧ n ≠ 8) ∨ off % n ≠ 0 ∨ (off < 16 ∧ n = 8)) :
    ¬ accessLegal off n = true := by
  rw [accessLegal_iff]
  rintro (⟨rfl, hoff⟩ | ⟨rfl, hoff, h16⟩) <;> omega

/-! The words a read returns (R62). -/

theorem windowWord_cmd (s : State) : windowWord s 0x00 = s.cmd := rfl

theorem windowWord_status (s : State) : windowWord s 0x04 = s.status := rfl

theorem windowWord_caps (s : State) : windowWord s 0x08 = s.caps := rfl

theorem windowWord_result (s : State) :
    windowWord s 0x48 = s.result.extractLsb' 0 32 ∧ windowWord s 0x4C = s.result.extractLsb' 32 32 := ⟨rfl, rfl⟩

section
variable {s : State} {addr : Word64} {rest : List HostAccess} {off n : Nat}

/-- A 4-byte read at an aligned offset returns the word there, little-endian (R63). -/
theorem step_windowRead_word {w : Word32} (hat : AtOffset s addr off) (hn : HostNext s (.windowRead addr 4) rest)
    (hoff : off % 4 = 0) (hw : windowWord s off = w) :
    step s = .next { s with host := rest, busReply := leBytes 4 w.toNat } := by
  rw [step_windowRead hat hn, if_pos ((accessLegal_iff off 4).2 (.inl ⟨rfl, hoff⟩)), ← hw]
  rfl

/-- An 8-byte read at an aligned offset from 0x10 on returns the register whose halves stand there (R63). -/
theorem step_windowRead_double {v : Word64} (hat : AtOffset s addr off) (hn : HostNext s (.windowRead addr 8) rest)
    (hoff : off % 8 = 0) (h16 : 16 ≤ off) (hlow : windowWord s off = v.extractLsb' 0 32)
    (hhigh : windowWord s (off + 4) = v.extractLsb' 32 32) :
    step s = .next { s with host := rest, busReply := leBytes 8 v.toNat } := by
  have hv : leBytes 4 (windowWord s off).toNat ++ leBytes 4 (windowWord s (off + 4)).toNat = leBytes 8 v.toNat := by
    rw [hlow, hhigh, leBytes_halves, high_append_low]
  rw [step_windowRead hat hn, if_pos ((accessLegal_iff off 8).2 (.inr ⟨rfl, hoff, h16⟩)), ← hv]
  rfl

end

/-- Settles O59: the locations but CMD and the argument registers ignore their words, and an access that is not legal is refused. -/
theorem otherWindowWrites : Obligations.OtherWindowWrites := by
  intro s addr off bytes rest hat hn
  refine ⟨fun hoff h4 => ?_, fun hoff h48 h8 => ?_, fun hbad => ?_⟩
  · rw [step_windowWrite_word hat hn (by omega) h4, writeWord_ignored _ _ (by omega)]
  · rw [step_windowWrite_double hat hn hoff (by omega) h8, writeWord_ignored _ _ (by omega),
      writeWord_ignored _ _ (by omega)]
  · rw [step_windowWrite hat hn, if_neg (accessLegal_of_illFormed hbad)]

/-- Settles O60: one case for each register or reserved location, by the word or the two halves that stand there. -/
theorem windowReads : Obligations.WindowReads := by
  intro s addr off n rest hat hn
  refine ⟨fun reply hreply => ?_, fun hbad => ?_⟩
  · rcases hreply with ⟨rfl, ⟨rfl, rfl⟩ | ⟨rfl, rfl⟩ | ⟨rfl, rfl⟩ | ⟨rfl, rfl⟩ | ⟨rfl, rfl⟩ | ⟨hoff, rfl⟩ | ⟨r, rfl, rfl⟩ |
      ⟨r, rfl, rfl⟩⟩ | ⟨rfl, ⟨r, rfl, rfl⟩ | ⟨rfl, rfl⟩ | ⟨hoff, rfl⟩⟩
    · exact step_windowRead_word hat hn rfl (windowWord_cmd s)
    · exact step_windowRead_word hat hn rfl (windowWord_status s)
    · exact step_windowRead_word hat hn rfl (windowWord_caps s)
    · exact step_windowRead_word hat hn rfl (windowWord_result s).1
    · exact step_windowRead_word hat hn rfl (windowWord_result s).2
    · exact step_windowRead_word hat hn (by omega) (windowWord_reserved s (by omega))
    · obtain ⟨-, -, hoff, -⟩ := argAtOffset_argOffset r
      exact step_windowRead_word hat hn (by omega) (windowWord_arg s r).1
    · obtain ⟨-, -, hoff, -⟩ := argAtOffset_argOffset r
      exact step_windowRead_word hat hn (by omega) (windowWord_arg s r).2
    · obtain ⟨-, -, hoff, h16⟩ := argAtOffset_argOffset r
      exact step_windowRead_double hat hn hoff h16 (windowWord_arg s r).1 (windowWord_arg s r).2
    · exact step_windowRead_double hat hn rfl (by omega) (windowWord_result s).1 (windowWord_result s).2
    · exact step_windowRead_double (v := 0) hat hn hoff.2 (by omega) (windowWord_reserved s (by omega))
        (windowWord_reserved s (by omega))
  · rw [step_windowRead hat hn, if_neg (accessLegal_of_illFormed hbad)]

end Sys2Proof.Machine
end

section
/-! The CMD word as an encoding (30_encoding.md R81 to R88): decoding and encoding as inverses, the rows of opcode_table.json, and the
reserved encodings. -/

namespace Sys2Proof

section
variable {op : Op} {w : Word32} {i : Instr}

/-! Fields an opcode does not use (R83). -/

theorem unusedFieldSet_eq_false_iff :
    unusedFieldSet op w = false ↔
      (op.usesDir = false → dirField w = false) ∧ (op.usesKeep = false → keepField w = false) ∧
        (op.usesMode = false → modeField w = 0) ∧ (op.usesHandle = false → handleField w = 0) := by
  have himp (a b : Bool) : (a && !b) = false ↔ (b = false → a = false) := by cases a <;> cases b <;> decide
  simp only [unusedFieldSet, Bool.or_eq_false_iff, himp, bne_eq_false_iff_eq, and_assoc]

/-- A word with RSV 0 is the word of its opcode and its fields (R81). -/
theorem cmdWord_of_fields (hop : opField w = op.code) (hrsv : rsvField w = 0) :
    cmdWord op (dirField w) (keepField w) (modeField w) (handleField w) = w := by
  obtain ⟨f1, f2, f3, f4, f5, f6⟩ := cmdWord_fields op (dirField w) (keepField w) (modeField w) (handleField w)
  exact word_ext (f1.trans hop.symm) f2 f3 f4 (f5.trans hrsv.symm) f6

/-- CREATE is built from a word whose MODE is a mode (R81). -/
theorem buildInstr_create_ok (h : buildInstr .create w = .ok i) :
    ∃ m, modeOfBits (modeField w) = some m ∧ i = .create (dirOfBit (dirField w)) m := by
  simp only [buildInstr] at h
  split at h <;> cases h
  exact ⟨_, by assumption, rfl⟩

/-- The encoding of a command built from a word has the word's fields: those the opcode uses were read from it, the others are 0
(R83). -/
theorem encode_of_buildInstr (hbuild : buildInstr op w = .ok i) (hunused : unusedFieldSet op w = false) :
    encode i = cmdWord op (dirField w) (keepField w) (modeField w) (handleField w) := by
  obtain ⟨hdir, hkeep, hmode, hhandle⟩ := unusedFieldSet_eq_false_iff.1 hunused
  cases op
  case create =>
    obtain ⟨m, hm, rfl⟩ := buildInstr_create_ok hbuild
    rw [encode, bitOfDir_dirOfBit, bits_of_modeOfBits hm, hkeep rfl, hhandle rfl]
  case caps | blksz =>
    cases hbuild
    rw [encode, hdir rfl, hkeep rfl, hmode rfl, hhandle rfl]
  case gcmInit =>
    cases hbuild
    rw [encode, bitOfDir_dirOfBit, hkeep rfl, hmode rfl]
  case gcmReset =>
    cases hbuild
    rw [encode, hdir rfl, hmode rfl]
  all_goals
    cases hbuild
    rw [encode, hdir rfl, hkeep rfl, hmode rfl]

/-! Decoding and encoding as inverses (R83, R88). -/

theorem dirOfBit_bitOfDir (d : Dir) : dirOfBit (bitOfDir d) = d := by cases d <;> rfl

theorem modeOfBits_bitsOfMode (m : Mode) : modeOfBits (bitsOfMode m) = some m := by cases m <;> rfl

/-- The command of an encoded word's opcode and fields is the one that was encoded (R82). -/
theorem buildInstr_encode (i : Instr) : buildInstr (opOf i) (encode i) = .ok i := by
  cases i <;> simp only [opOf, encode, buildInstr, cmdWord_fields, dirOfBit_bitOfDir, modeOfBits_bitsOfMode]

/-- An encoded word passes the checks on OP, RSV and the unused fields (R83). -/
theorem decode_encode_eq_buildInstr (i : Instr) : decode (encode i) = buildInstr (opOf i) (encode i) := by
  cases i <;>
    exact decode_cmdWord _ _ _ _ _ (by simp [Op.usesDir]) (by simp [Op.usesKeep]) (by simp [Op.usesMode])
      (by simp [Op.usesHandle])

theorem decode_encode (i : Instr) : decode (encode i) = .ok i :=
  (decode_encode_eq_buildInstr i).trans (buildInstr_encode i)

theorem encode_of_decode_ok (h : decode w = .ok i) : encode i = w := by
  obtain ⟨hop, hrsv, hunused, hbuild⟩ := decode_ok h
  exact (encode_of_buildInstr hbuild hunused).trans (cmdWord_of_fields hop hrsv)

/-- Each command has one CMD word. -/
theorem decode_eq_ok_iff : decode w = .ok i ↔ encode i = w :=
  ⟨encode_of_decode_ok, fun h => h ▸ decode_encode i⟩

/-! The rows of opcode_table.json (R82, R88). -/

/-- The CMD word of every command is of its row. -/
theorem encode_row (i : Instr) : Laws.EncodesItsRow.Statement i := by
  cases i with
  | caps => exact Laws.EncodesItsRow.caps
  | create d m => exact Laws.EncodesItsRow.create d m
  | dispose h => exact Laws.EncodesItsRow.dispose h
  | blksz => exact Laws.EncodesItsRow.blksz
  | cbcInit h => exact Laws.EncodesItsRow.cbcInit h
  | cbcProcess h => exact Laws.EncodesItsRow.cbcProcess h
  | cbcReset h => exact Laws.EncodesItsRow.cbcReset h
  | gcmInit h d => exact Laws.EncodesItsRow.gcmInit h d
  | gcmAadByte h => exact Laws.EncodesItsRow.gcmAadByte h
  | gcmAadBytes h => exact Laws.EncodesItsRow.gcmAadBytes h
  | gcmByte h => exact Laws.EncodesItsRow.gcmByte h
  | gcmBytes h => exact Laws.EncodesItsRow.gcmBytes h
  | gcmFinal h => exact Laws.EncodesItsRow.gcmFinal h
  | gcmUosize h => exact Laws.EncodesItsRow.gcmUosize h
  | gcmOsize h => exact Laws.EncodesItsRow.gcmOsize h
  | gcmMac h => exact Laws.EncodesItsRow.gcmMac h
  | gcmReset h keep => exact Laws.EncodesItsRow.gcmReset h keep

open Machine (rowMask rowMatch)

/-- Where a row's mask has every bit of a field, a word of the row has the row's value there. -/
theorem field_of_row {a n : Nat} (hrow : w &&& rowMask op = rowMatch op)
    (hmask : (rowMask op).extractLsb' a n = BitVec.allOnes n) : w.extractLsb' a n = (rowMatch op).extractLsb' a n := by
  rw [← hrow, BitVec.extractLsb'_and, hmask, BitVec.and_allOnes]

/-- The same for one bit. -/
theorem bit_of_row {a : Nat} (hrow : w &&& rowMask op = rowMatch op) (hmask : (rowMask op).getLsbD a = true) :
    w.getLsbD a = (rowMatch op).getLsbD a := by
  rw [← hrow, BitVec.getLsbD_and, hmask, Bool.and_true]

theorem opField_of_row (hrow : w &&& rowMask op = rowMatch op) : opField w = op.code :=
  (field_of_row hrow (by cases op <;> rfl)).trans (by cases op <;> rfl)

theorem rsvField_of_row (hrow : w &&& rowMask op = rowMatch op) : rsvField w = 0 :=
  (field_of_row hrow (by cases op <;> rfl)).trans (by cases op <;> rfl)

/-- A row's mask has every field its opcode does not use, and the row is 0 there (R83). -/
theorem unusedFieldSet_of_row (hrow : w &&& rowMask op = rowMatch op) : unusedFieldSet op w = false := by
  refine unusedFieldSet_eq_false_iff.2 ⟨fun hd => ?_, fun hk => ?_, fun hm => ?_, fun hh => ?_⟩
  · exact (bit_of_row hrow (by revert hd; cases op <;> decide)).trans (by cases op <;> rfl)
  · exact (bit_of_row hrow (by revert hk; cases op <;> decide)).trans (by cases op <;> rfl)
  · exact (field_of_row hrow (by revert hm; cases op <;> decide)).trans (by cases op <;> rfl)
  · exact (field_of_row hrow (by revert hh; cases op <;> decide)).trans (by cases op <;> rfl)

/-- CREATE's row leaves MODE 0 and 1 only (R81). -/
theorem modeOfBits_of_createRow (hrow : w &&& rowMask .create = rowMatch .create) :
    ∃ m, modeOfBits (modeField w) = some m := by
  have hhigh : (modeField w).getLsbD 1 = false := by
    rw [modeField, BitVec.getLsbD_extractLsb', bit_of_row hrow (by rfl)]
    rfl
  generalize modeField w = m at hhigh ⊢
  obtain rfl | rfl : m = 0 ∨ m = 1 := by
    revert m
    decide
  · exact ⟨.cbc, rfl⟩
  · exact ⟨.aead, rfl⟩

/-- A word of a row gives a command of the row's opcode. -/
theorem buildInstr_of_row (hrow : w &&& rowMask op = rowMatch op) : ∃ i, buildInstr op w = .ok i ∧ opOf i = op := by
  cases op
  case create =>
    obtain ⟨m, hm⟩ := modeOfBits_of_createRow hrow
    exact ⟨.create (dirOfBit (dirField w)) m, by simp only [buildInstr, hm], rfl⟩
  all_goals exact ⟨_, rfl, rfl⟩

theorem decode_of_fields (hop : opField w = op.code) (hrsv : rsvField w = 0) (hunused : unusedFieldSet op w = false) :
    decode w = buildInstr op w := by
  simp only [decode, hop, opOfByte_code, hrsv, hunused, ne_eq, not_true_eq_false, Bool.false_eq_true, if_false]

theorem decode_of_row (hrow : w &&& rowMask op = rowMatch op) : decode w = buildInstr op w :=
  decode_of_fields (opField_of_row hrow) (rsvField_of_row hrow) (unusedFieldSet_of_row hrow)

/-! Reserved encodings of the CMD word (R87). -/

theorem code_injective {p q : Op} (h : p.code = q.code) : p = q :=
  Option.some.inj ((opOfByte_code p).symm.trans ((congrArg opOfByte h).trans (opOfByte_code q)))

/-- The fields of a word that decodes are those of no reserved encoding: its OP is in the table, RSV is 0, and so is each field its
opcode does not use; CREATE's MODE is 0 or 1. -/
theorem decode_ok_legal (h : decode w = .ok i) :
    (opField w = (opOf i).code ∧ rsvField w = 0) ∧
      (∀ q : Op, opField w = q.code → unusedFieldSet q w = false) ∧
      (opField w = Op.create.code → (modeField w).toNat ≤ 1) := by
  obtain ⟨hop, hrsv, hunused, hbuild⟩ := decode_ok h
  refine ⟨⟨hop, hrsv⟩, fun q hq => ?_, fun hcreate => ?_⟩
  · rwa [code_injective (hq.symm.trans hop)]
  · rw [code_injective (hop.symm.trans hcreate)] at hbuild
    obtain ⟨m, hm, -⟩ := buildInstr_create_ok hbuild
    rw [← bits_of_modeOfBits hm]
    cases m <;> decide

end

/-- Settles O1: an encoded word passes the checks of `decode`, and its fields are read back as they were written. -/
theorem decodeEncodeAgree : Obligations.DecodeEncodeAgree := decode_encode

/-- Settles O2: a word is its fields; those the opcode uses are in the command, and `decode` checks that the others are 0. -/
theorem decodeOnlyEncodings : Obligations.DecodeOnlyEncodings := fun _ _ => encode_of_decode_ok

/-- Settles O3: a word of a row passes the checks of `decode`, and a word that decodes is an encoding, which is of its row. -/
theorem tableRowsDecideDecoding : Obligations.TableRowsDecideDecoding := by
  intro w op
  constructor
  · intro hrow
    obtain ⟨i, hbuild, hop⟩ := buildInstr_of_row hrow
    exact ⟨i, (decode_of_row hrow).trans hbuild, hop⟩
  · rintro ⟨i, hdec, rfl⟩
    rw [← encode_of_decode_ok hdec]
    exact encode_row i

/-- Settles O4: each word is the encoding of its command. -/
theorem writtenWordsDecode : Obligations.WrittenWordsDecode :=
  ⟨decode_eq_ok_iff.2 (by decide), decode_eq_ok_iff.2 (by decide), decode_eq_ok_iff.2 (by decide),
    decode_eq_ok_iff.2 (by decide), decode_eq_ok_iff.2 (by decide)⟩

end Sys2Proof

namespace Sys2Proof.Machine

/-! Commands refused by `Decode` and by `Resolve` (R87, R92). -/

/-- A CMD word that is no command raises IllegalCommand (R87). -/
theorem runCommand_of_not_decode_ok {s : State} (h : ∀ i, decode s.cmd ≠ .ok i) :
    runCommand s = .next (s.raise .illegalCommand) := by
  unfold runCommand
  split
  · rename_i i hi
    exact absurd hi (h i)
  · rfl

/-- One operand out of range is enough (R85, R86). -/
theorem operandsLegal_eq_false {op : Op} {a : Args} {x : ArgReg × OperandForm} (hx : x ∈ operandsOf op)
    (hbad : formLegal x.2 (getArg a x.1) = false) : operandsLegal op a = false :=
  List.all_eq_false.2 ⟨x, hx, by simp [hbad]⟩

/-- A session command whose handle does not resolve raises InvalidHandle (R92). -/
theorem exec_badHandle {i : Instr} {h : Handle} {s : State} (hi : handleOf i = some h)
    (hl : operandsLegal (opOf i) s.args = true) (hr : s.resolve (modeOf i) h = none) :
    exec i s = .next (s.raise .invalidHandle) := by
  cases i
  case caps | blksz | create => cases hi
  all_goals
    obtain rfl := Option.some.inj hi
    exact sessionCommand_badHandle hl hr

/-- Settles O6: a CMD word with a reserved field does not decode, and an operand out of range fails the operand half of `Decode`. -/
theorem illegalEncodingsChangeNothing : Obligations.IllegalEncodingsChangeNothing := by
  constructor
  · intro s hdue hreserved
    refine (step_of_cmdStarted hdue).trans (runCommand_of_not_decode_ok fun i hdec => ?_)
    obtain ⟨⟨hop, hrsv⟩, hunused, hmode⟩ := decode_ok_legal hdec
    rcases hreserved with hnone | hset | ⟨op, hcode, hset⟩ | ⟨hcode, hset⟩
    · exact hnone _ hop
    · exact hset hrsv
    · obtain ⟨hdir, hkeep, hmode0, hhandle⟩ := unusedFieldSet_eq_false_iff.1 (hunused op hcode)
      rcases hset with ⟨hbit, huse⟩ | ⟨hbit, huse⟩ | ⟨hbits, huse⟩ | ⟨hbits, huse⟩
      · exact Bool.false_ne_true ((hdir huse).symm.trans hbit)
      · exact Bool.false_ne_true ((hkeep huse).symm.trans hbit)
      · exact hbits (hmode0 huse)
      · exact hbits (hhandle huse)
    · exact absurd (hmode hcode) (Nat.not_le.2 hset)
  · rintro i s ⟨x, hx, hbad⟩
    refine exec_illegal (operandsLegal_eq_false hx ?_)
    rcases hbad with ⟨hform, hbits⟩ | ⟨hform, hbits⟩ <;> simpa only [hform, formLegal, beq_eq_false_iff_ne] using hbits

/-- Settles O7: none of these handles resolves in the command's mode. -/
theorem badHandlesAreRefused : Obligations.BadHandlesAreRefused := fun _ _ _ hi hl hbad =>
  exec_badHandle hi hl (resolve_none_of_bad hbad)

end Sys2Proof.Machine
end

section
/-! Capability and results (40_capability.md R100 to R103): CAPS between two resets, the capability query, and that neither CAPS, the table
WIDE_OK nor a session's path shows in any other command's result. -/

namespace Sys2Proof.Machine

/-- No command writes a register but STATUS and RESULT (R220). -/
theorem exec_registersKept {i : Instr} {s t : State} (hx : exec i s = .next t) : RegistersKept s t := by
  rcases exec_cases hx with ⟨e, rfl, _⟩ | ⟨e, r, _, heff⟩
  · exact ⟨rfl, rfl, rfl, rfl, rfl, rfl, rfl⟩
  · exact heff.kept

theorem exec_caps_eq {i : Instr} {s t : State} (hx : exec i s = .next t) : t.caps = s.caps := by
  obtain ⟨_, _, hcaps, _⟩ := exec_registersKept hx
  exact hcaps

/-- CAPS is read-only to the host: a reset alone latches it anew (R25, R100). -/
theorem hostAccess_caps {a : HostAccess} {s t : State} (hx : hostAccess a s = .next t) :
    if a = .reset then t.caps = capsWord s.cfg.caps else t.caps = s.caps := by
  rcases hostAccess_cases hx with ⟨ha, rfl⟩ | ⟨ha, ⟨_, _, _, rfl⟩ | ⟨_, rfl⟩ | ⟨_, _, _, rfl⟩⟩
  · rw [if_pos ha, afterReset_caps]
  · rw [if_neg ha]
  · rw [if_neg ha]
  · rw [if_neg ha, store_caps]

/-- Settles O17: a step is a command, a CMD word that is no command, a host access, or nothing. -/
theorem capsChangesOnlyAtReset : Obligations.CapsChangesOnlyAtReset := by
  intro s t hstep
  rcases step_cases hstep with ⟨hdue, ⟨i, _, hx⟩ | ⟨_, _, rfl⟩⟩ | ⟨hidle, ⟨hnone, rfl⟩ | ⟨a, rest, hhost, hx⟩⟩
  · rw [if_neg (by simp [hdue])]
    exact exec_caps_eq (s := { s with cmdStarted := false }) hx
  · rw [if_neg (by simp [hdue])]
    rfl
  · rw [if_neg (by simp [hnone])]
  · simpa [hidle, hhost] using hostAccess_caps hx

/-- Settles O24: CAPS ends in `finish` alone, and a 32-bit register keeps its value in the 64 bits of RESULT. -/
theorem capsReturnsTheRecord : Obligations.CapsReturnsTheRecord := fun s =>
  ⟨s.finish .ok (s.caps.setWidth 64), rfl, ⟨rfl, BitVec.toNat_setWidth_of_le (by omega)⟩, ⟨rfl, rfl, rfl, rfl, rfl, rfl, rfl⟩,
    fun _ => rfl, fun _ => rfl⟩

/-! What R103 varies, and that the procedures of the two modes do not read it. -/

/-- A platform with another CAPS_VALUE and another table WIDE_OK (R103). -/
def withCapability (p : Platform) (c : CapsRecord) (w : WideTable) : Platform := { p with caps := c, wideOk := w }

/-- A slot with another path (R29, R103). -/
@[simps] def Slot.withPath (x : Slot) (q : Path) : Slot := { x with path := q }

section
variable (p : Platform) (c : CapsRecord) (w : WideTable) (x : Slot) (q : Path)

@[simp] theorem aesEnc_withCapability : aesEnc (withCapability p c w) = aesEnc p := rfl
@[simp] theorem aesDec_withCapability : aesDec (withCapability p c w) = aesDec p := rfl
@[simp] theorem slotKey_withPath : slotKey (x.withPath q) = slotKey x := rfl
@[simp] theorem holdLen_withPath : holdLen (x.withPath q) = holdLen x := rfl
@[simp] theorem finalLen_withPath : finalLen (x.withPath q) = finalLen x := rfl

@[simp] theorem cbcEncrypt_withCapability (k : AesKey) (v : Block) (xs : List Block) :
    cbcEncrypt (withCapability p c w) k v xs = cbcEncrypt p k v xs := by
  induction xs generalizing v with
  | nil => rfl
  | cons b rest ih => simp [cbcEncrypt, ih]

@[simp] theorem cbcDecrypt_withCapability (k : AesKey) (v : Block) (xs : List Block) :
    cbcDecrypt (withCapability p c w) k v xs = cbcDecrypt p k v xs := by
  induction xs generalizing v with
  | nil => rfl
  | cons b rest ih => simp [cbcDecrypt, ih]

/-- The CBC loop reads the block primitive of the platform, and the key, direction and chaining value of the slot (R112). -/
@[simp] theorem cbcCrypt_withPath (xs : List Block) :
    cbcCrypt (withCapability p c w) (x.withPath q) xs = cbcCrypt p x xs := by
  simp [cbcCrypt]

theorem foldBlock_withPath (b : Block) : foldBlock (x.withPath q) b = (foldBlock x b).withPath q := by
  simp only [foldBlock, Slot.withPath]

theorem absorbAadByte_withPath (b : Byte) : absorbAadByte (x.withPath q) b = (absorbAadByte x b).withPath q := by
  by_cases hb : (x.aadBuf ++ [b]).length = 16
  · simp only [absorbAadByte, Slot.withPath_aadBuf, if_pos hb, foldBlock_withPath]
    rfl
  · simp only [absorbAadByte, Slot.withPath_aadBuf, if_neg hb]
    rfl

@[simp] theorem absorbAad_withPath (a : List Byte) : absorbAad (x.withPath q) a = (absorbAad x a).withPath q := by
  have hfold : a.foldl absorbAadByte (x.withPath q) = (a.foldl absorbAadByte x).withPath q := by
    induction a generalizing x with
    | nil => rfl
    | cons b rest ih => rw [List.foldl_cons, List.foldl_cons, absorbAadByte_withPath, ih]
  rw [absorbAad, hfold]
  rfl

theorem closeAad_withPath : closeAad (x.withPath q) = (closeAad x).withPath q := by
  by_cases hl : 0 < x.aadBuf.length
  · simp only [closeAad, Slot.withPath_aadBuf, if_pos hl, foldBlock_withPath]
    rfl
  · simp only [closeAad, Slot.withPath_aadBuf, if_neg hl]
    rfl

@[simp] theorem enterData_withPath : enterData (x.withPath q) = (enterData x).withPath q := by
  by_cases hp : x.phase = .aad
  · simp only [enterData, Slot.withPath_phase, if_pos hp, closeAad_withPath]
  · simp only [enterData, Slot.withPath_phase, if_neg hp]

theorem dataBlock_withPath (b : Block) :
    dataBlock (withCapability p c w) (x.withPath q) b = ((dataBlock p x b).1.withPath q, (dataBlock p x b).2) := by
  simp only [dataBlock, foldBlock_withPath]
  rfl

theorem absorbDataByte_withPath (b : Byte) :
    absorbDataByte (withCapability p c w) (x.withPath q) b =
      ((absorbDataByte p x b).1.withPath q, (absorbDataByte p x b).2) := by
  by_cases hb : (x.dataBuf ++ [b]).length = holdLen x
  · simp only [absorbDataByte, Slot.withPath_dataBuf, holdLen_withPath, if_pos hb, dataBlock_withPath]
    rfl
  · simp only [absorbDataByte, Slot.withPath_dataBuf, holdLen_withPath, if_neg hb]
    rfl

@[simp] theorem absorbData_withPath (d : List Byte) :
    absorbData (withCapability p c w) (x.withPath q) d = ((absorbData p x d).1.withPath q, (absorbData p x d).2) := by
  induction d generalizing x with
  | nil => rfl
  | cons b rest ih => simp only [absorbData, absorbDataByte_withPath, ih]

@[simp] theorem finalBlock_withPath :
    finalBlock (withCapability p c w) (x.withPath q) = ((finalBlock p x).1.withPath q, (finalBlock p x).2) := by
  by_cases hm : 0 < finalLen x
  · simp only [finalBlock, finalLen_withPath, if_pos hm, foldBlock_withPath]
    rfl
  · have hm' : ¬ 0 < finalLen (x.withPath q) := hm
    simp only [finalBlock, if_neg hm, if_neg hm']

theorem lengthBlock_withPath : lengthBlock (x.withPath q) = lengthBlock x := rfl

theorem tagOf_withPath : tagOf (withCapability p c w) (x.withPath q) = tagOf p x := rfl

@[simp] theorem sealTag_withPath : sealTag (withCapability p c w) (x.withPath q) = (sealTag p x).withPath q := by
  simp only [sealTag, lengthBlock_withPath, foldBlock_withPath, tagOf_withPath]
  rfl

/-- GCM.INIT leaves the path of its slot and reads neither it nor the capability parameters (R149). -/
@[simp] theorem initSlot_withPath (d : Dir) (key nonce aad : List Byte) (tagBits : Nat) :
    initSlot (withCapability p c w) (x.withPath q) d key nonce aad tagBits =
      (initSlot p x d key nonce aad tagBits).withPath q := by
  have hkey : slotKey { x.withPath q with key := keyField key, dir := d } =
      slotKey { x with key := keyField key, dir := d } := rfl
  rw [initSlot_closed hkey, initSlot_closed rfl, aesEnc_withCapability]
  simp only [Slot.withPath]

end

/-! Two machines side by side. -/

/-- Two machines that differ at most in CAPS, CAPS_VALUE, WIDE_OK and the sessions' paths, as far as a command reads them (R103). -/
structure SameButPath (s s' : State) : Prop where
  args : s'.args = s.args
  mem : s'.mem = s.mem
  cfg : ∃ c w, s'.cfg = withCapability s.cfg c w
  slot : ∀ h, ∃ q, s'.slot h = (s.slot h).withPath q

/-- Two such machines whose commands have ended alike (R220). -/
structure SameResult (t t' : State) : Prop extends SameButPath t t' where
  err : t'.err = t.err
  result : t'.result = t.result

section
variable {s s' : State}

/-- The slots as R103 compares them. -/
theorem SameButPath.slot_eq (hs : SameButPath s s') (h : Nat) : s'.slot h = { s.slot h with path := (s'.slot h).path } := by
  obtain ⟨q, hslot⟩ := hs.slot h
  rw [hslot]
  rfl

theorem SameButPath.setSlot (hs : SameButPath s s') (j : Nat) (x : Slot) (q : Path) :
    SameButPath (s.setSlot j x) (s'.setSlot j (x.withPath q)) := by
  refine ⟨hs.args, hs.mem, hs.cfg, fun h => ?_⟩
  by_cases hj : h = j
  · subst hj
    exact ⟨q, by rw [slot_setSlot_same, slot_setSlot_same]⟩
  · rw [slot_setSlot_other _ _ _ hj, slot_setSlot_other _ _ _ hj]
    exact hs.slot h

theorem SameButPath.store (hs : SameButPath s s') (a : Nat) (v : List Byte) : SameButPath (s.store a v) (s'.store a v) :=
  ⟨hs.args, by rw [store_mem, store_mem, hs.mem], hs.cfg, hs.slot⟩

/-- `finish` writes STATUS and RESULT only (R220). -/
theorem SameButPath.finished (hs : SameButPath s s') (e e' : ErrCode) (r r' : Word64) :
    SameButPath (s.finish e r) (s'.finish e' r') := ⟨hs.args, hs.mem, hs.cfg, hs.slot⟩

theorem SameButPath.finish (hs : SameButPath s s') (e : ErrCode) (r : Word64) :
    SameResult (s.finish e r) (s'.finish e r) := ⟨hs.finished e e r r, rfl, rfl⟩

theorem SameButPath.raise (hs : SameButPath s s') (e : ErrCode) : SameResult (s.raise e) (s'.raise e) := hs.finish e 0

theorem SameResult.ite {P : Prop} [Decidable P] {t t' u u' : State} (ht : SameResult t t') (hu : SameResult u u') :
    SameResult (if P then t else u) (if P then t' else u') := by
  split
  · exact ht
  · exact hu

/-- `Resolve` reads `alloc` and `mode` of a slot, and NUM_SESSIONS (R92). -/
theorem SameButPath.resolve (hs : SameButPath s s') (m : Option Mode) (h : Handle) :
    ∃ q, s'.resolve m h = (s.resolve m h).map (Slot.withPath · q) := by
  obtain ⟨c, w, hcfg⟩ := hs.cfg
  obtain ⟨q, hslot⟩ := hs.slot h.toNat
  refine ⟨q, ?_⟩
  unfold State.resolve
  rw [hslot, hcfg, apply_ite (Option.map _), apply_ite (Option.map _)]
  rfl

/-- The frame of a session command ends alike where the command's own rule does (R92). -/
theorem SameButPath.sessionCommand (hs : SameButPath s s') {op : Op} {m : Option Mode} {h : Handle}
    {body body' : Slot → State} (hb : ∀ x q, SameResult (body x) (body' (x.withPath q))) {t : State}
    (ht : sessionCommand op m h s body = .next t) :
    ∃ t', Machine.sessionCommand op m h s' body' = .next t' ∧ SameResult t t' := by
  obtain ⟨q, hres⟩ := hs.resolve m h
  rcases sessionCommand_cases ht with ⟨hl, rfl⟩ | ⟨hl, hr, rfl⟩ | ⟨hl, x, hr, rfl⟩
  · exact ⟨_, sessionCommand_illegal (hs.args ▸ hl), hs.raise _⟩
  · exact ⟨_, sessionCommand_badHandle (hs.args ▸ hl) (by rw [hres, hr]; rfl), hs.raise _⟩
  · exact ⟨_, sessionCommand_run (hs.args ▸ hl) (by rw [hres, hr]; rfl), hb x q⟩

/-- CREATE's search reads the `alloc` bits (R201). -/
theorem firstFree_congr (h : ∀ j, (s'.slot j).alloc = (s.slot j).alloc) (n lo : Nat) :
    firstFree s' n lo = firstFree s n lo := by
  induction n generalizing lo with
  | zero => rfl
  | succ k ih => rw [firstFree, firstFree, h lo, ih]

/-- CREATE of a length that is no key size (R201). -/
theorem execCreate_unsupported {d : Dir} {m : Mode} (hk : keySizeOf s.args.arg0.toNat = none) :
    execCreate d m s = .next (s.raise .unsupportedKeySize) := by
  have hk' : keySizeOf (getArg s.args .arg0).toNat = none := hk
  rw [execCreate, if_pos (show operandsLegal .create s.args = true from rfl), hk']

/-- CREATE with every slot allocated (R201). -/
theorem execCreate_full {d : Dir} {m : Mode} {k : KeySize} (hk : keySizeOf s.args.arg0.toNat = some k)
    (hj : firstFree s (numSessions s.cfg) 1 = none) : execCreate d m s = .next (s.raise .noFreeSession) := by
  have hk' : keySizeOf (getArg s.args .arg0).toNat = some k := hk
  rw [execCreate, if_pos (show operandsLegal .create s.args = true from rfl), hk']
  simp only
  rw [hj]

/-- The HANDLE half of CREATE's RESULT (R38). -/
theorem createResult_handle (n j : Nat) : (BitVec.ofNat 64 (n * 2 ^ 16 + j)).extractLsb' 0 16 = BitVec.ofNat 16 j := by
  apply BitVec.eq_of_toNat_eq
  rw [BitVec.extractLsb'_toNat, BitVec.toNat_ofNat, BitVec.toNat_ofNat, Nat.shiftRight_zero]
  omega

end

/-- A session command gives such machines the same result: its rule reads no path, CAPS_VALUE or WIDE_OK, and what it writes of a
slot differs in the path at most (R103). -/
theorem exec_sameResult {i : Instr} {h : Handle} (hi : handleOf i = some h) {s s' t : State} (hs : SameButPath s s')
    (ht : exec i s = .next t) : ∃ t', exec i s' = .next t' ∧ SameResult t t' := by
  obtain ⟨c, w, hcfg⟩ := hs.cfg
  cases i with
  | caps | create | blksz => cases hi
  | dispose =>
    cases hi
    change execDispose h s = _ at ht
    refine hs.sessionCommand (fun x q => ?_) ht
    exact (hs.setSlot _ Slot.free .soft).finish _ _
  | cbcInit =>
    cases hi
    refine hs.sessionCommand (fun x q => ?_) ht
    simp only [hs.args, hs.mem, hcfg]
    exact .ite (hs.raise _) (.ite (hs.raise _) (.ite (hs.raise _) ((hs.setSlot _ _ q).finish _ _)))
  | cbcProcess =>
    cases hi
    refine hs.sessionCommand (fun x q => ?_) ht
    simp only [hs.args, hs.mem, hcfg, cbcCrypt_withPath]
    exact .ite (hs.raise _) (.ite (hs.raise _) (.ite (hs.raise _) (((hs.setSlot _ _ q).store _ _).finish _ _)))
  | cbcReset =>
    cases hi
    change execCbcReset h s = _ at ht
    refine hs.sessionCommand (fun x q => ?_) ht
    exact .ite (hs.raise _) ((hs.setSlot _ _ q).finish _ _)
  | gcmInit =>
    cases hi
    refine hs.sessionCommand (fun x q => ?_) ht
    simp only [hs.args, hs.mem, hcfg, initSlot_withPath]
    exact .ite (hs.raise _) (.ite (hs.raise _) (.ite (hs.raise _) (.ite (hs.raise _) ((hs.setSlot _ _ q).finish _ _))))
  | gcmAadByte =>
    cases hi
    refine hs.sessionCommand (fun x q => ?_) ht
    simp only [hs.args, absorbAad_withPath]
    exact .ite (hs.raise _) (.ite (hs.raise _) ((hs.setSlot _ _ q).finish _ _))
  | gcmAadBytes =>
    cases hi
    refine hs.sessionCommand (fun x q => ?_) ht
    simp only [hs.args, hs.mem, hcfg, absorbAad_withPath]
    exact .ite (hs.raise _) (.ite (hs.raise _) (.ite (hs.raise _) ((hs.setSlot _ _ q).finish _ _)))
  | gcmByte =>
    cases hi
    refine hs.sessionCommand (fun x q => ?_) ht
    simp only [hs.args, hcfg, enterData_withPath, absorbData_withPath]
    exact .ite (hs.raise _) (.ite (hs.raise _) (.ite (hs.raise _) (.ite (hs.raise _)
      (((hs.setSlot _ _ q).store _ _).finish _ _))))
  | gcmBytes =>
    cases hi
    refine hs.sessionCommand (fun x q => ?_) ht
    simp only [hs.args, hs.mem, hcfg, enterData_withPath, absorbData_withPath]
    exact .ite (hs.raise _) (.ite (hs.finish _ _) (.ite (hs.raise _) (.ite (hs.raise _) (.ite (hs.raise _)
      (((hs.setSlot _ _ q).store _ _).finish _ _)))))
  | gcmFinal =>
    cases hi
    refine hs.sessionCommand (fun x q => ?_) ht
    simp only [hs.args, hcfg, Slot.withPath_dir, enterData_withPath, finalBlock_withPath, sealTag_withPath]
    refine .ite (hs.raise _) (.ite ((hs.setSlot _ _ q).finish _ _) (.ite (hs.raise _) (.ite (hs.raise _) ?_)))
    cases x.dir with
    | encrypt => exact ((hs.setSlot _ _ q).store _ _).finish _ _
    | decrypt => exact ((hs.setSlot _ _ q).store _ _).finish _ _
  | gcmUosize =>
    cases hi
    refine hs.sessionCommand (fun x q => ?_) ht
    simp only [hs.args]
    exact .ite (hs.raise _) (hs.finish _ _)
  | gcmOsize =>
    cases hi
    refine hs.sessionCommand (fun x q => ?_) ht
    simp only [hs.args]
    exact .ite (hs.raise _) (hs.finish _ _)
  | gcmMac =>
    cases hi
    refine hs.sessionCommand (fun x q => ?_) ht
    simp only [hs.args, hcfg]
    exact .ite (hs.raise _) (.ite (hs.raise _) (.ite (hs.raise _) ((hs.store _ _).finish _ _)))
  | gcmReset _ keep =>
    cases hi
    change execGcmReset h keep s = _ at ht
    refine hs.sessionCommand (fun x q => ?_) ht
    exact .ite (.ite (hs.raise _) ((hs.setSlot _ _ q).finish _ _)) ((hs.setSlot _ _ q).finish _ _)

/-- BLKSZ returns a constant (R114). -/
theorem exec_blksz_sameResult {s s' t : State} (hs : SameButPath s s') (ht : exec .blksz s = .next t) :
    ∃ t', exec .blksz s' = .next t' ∧ SameResult t t' := by
  obtain rfl := Host.Outcome.next.inj ht
  exact ⟨_, rfl, hs.finish _ _⟩

/-- CREATE finds the same handle on such machines; the path alone, in its slot and in RESULT above HANDLE, may differ (R201, R38). -/
theorem exec_create_sameHandle {d : Dir} {m : Mode} {s s' t : State} (hs : SameButPath s s')
    (ht : exec (.create d m) s = .next t) :
    ∃ t', exec (.create d m) s' = .next t' ∧ SameButPath t t' ∧ t'.err = t.err ∧
      t'.result.extractLsb' 0 16 = t.result.extractLsb' 0 16 := by
  have hfree : firstFree s' (numSessions s'.cfg) 1 = firstFree s (numSessions s.cfg) 1 := by
    obtain ⟨c, w, hcfg⟩ := hs.cfg
    rw [hcfg]
    refine firstFree_congr (fun j => ?_) _ _
    obtain ⟨q, hslot⟩ := hs.slot j
    rw [hslot, Slot.withPath_alloc]
  have hsize : keySizeOf s'.args.arg0.toNat = keySizeOf s.args.arg0.toNat := by rw [hs.args]
  cases hk : keySizeOf s.args.arg0.toNat with
  | none =>
    obtain rfl := Host.Outcome.next.inj ((execCreate_unsupported hk).symm.trans ht)
    exact ⟨_, execCreate_unsupported (hsize.trans hk), hs.finished _ _ _ _, rfl, rfl⟩
  | some k =>
    cases hj : firstFree s (numSessions s.cfg) 1 with
    | none =>
      obtain rfl := Host.Outcome.next.inj ((execCreate_full hk hj).symm.trans ht)
      exact ⟨_, execCreate_full (hsize.trans hk) (hfree.trans hj), hs.finished _ _ _ _, rfl, rfl⟩
    | some j =>
      obtain rfl := Host.Outcome.next.inj ((execCreate_run hk hj).symm.trans ht)
      have hset := hs.setSlot j (createdSlot m d k (selectPath s.caps s.cfg.wideOk m k))
        (selectPath s'.caps s'.cfg.wideOk m k)
      exact ⟨_, execCreate_run (hsize.trans hk) (hfree.trans hj), hset.finished _ _ _ _, rfl, by
        rw [finish_result, finish_result, createResult_handle, createResult_handle]⟩

/-- Settles O16: the session commands by `exec_sameResult`, BLKSZ, and CREATE by the handle it finds. -/
theorem resultsDoNotDependOnPath : Obligations.ResultsDoNotDependOnPath := by
  intro i s s' t hcaps hargs hmem hcfg hslot ht
  have hs : SameButPath s s' := ⟨hargs, hmem, ⟨_, _, hcfg⟩, fun h => ⟨_, hslot h⟩⟩
  cases i with
  | caps => exact absurd rfl hcaps
  | create d m =>
    obtain ⟨t', ht', hsame, herr, hhandle⟩ := exec_create_sameHandle hs ht
    exact ⟨t', ht', herr, hsame.mem, hhandle, hsame.slot_eq⟩
  | blksz =>
    obtain ⟨t', ht', hsame⟩ := exec_blksz_sameResult hs ht
    exact ⟨t', ht', hsame.err, hsame.mem, hsame.result, hsame.slot_eq⟩
  | _ =>
    obtain ⟨t', ht', hsame⟩ := exec_sameResult rfl hs ht
    exact ⟨t', ht', hsame.err, hsame.mem, hsame.result, hsame.slot_eq⟩

end Sys2Proof.Machine
end

section
/-! The chained-block engine (41_cbc.md R111 to R117): what a successful CBC command leaves, and CBC.PROCESS over any cut of a
string of blocks. -/

namespace Sys2Proof.Machine

/-! The loop of R112 over blocks. -/

theorem blocksOf_leftInverse : Function.LeftInverse (fun b => blocksOf (b.length / 16) b) bytesOfBlocks := fun xs => by
  simpa using blocksOf_bytesOfBlocks xs []

/-- A string of whole blocks is one list of blocks only (R7). -/
theorem bytesOfBlocks_injective : Function.Injective bytesOfBlocks := blocksOf_leftInverse.injective

theorem dir_cases (d : Dir) : d = .encrypt ∨ d = .decrypt := by cases d <;> simp

theorem cbcCrypt_encrypt {x : Slot} (hd : x.dir = .encrypt) (p : Platform) (xs : List Block) :
    cbcCrypt p x xs = cbcEncrypt p (slotKey x) x.chain xs := by simp only [cbcCrypt, hd]

theorem cbcCrypt_decrypt {x : Slot} (hd : x.dir = .decrypt) (p : Platform) (xs : List Block) :
    cbcCrypt p x xs = cbcDecrypt p (slotKey x) x.chain xs := by simp only [cbcCrypt, hd]

@[simp] theorem cbcCrypt_nil (p : Platform) (x : Slot) : cbcCrypt p x [] = ([], x.chain) := by
  rcases dir_cases x.dir with hd | hd
  · rw [cbcCrypt_encrypt hd, cbcEncrypt]
  · rw [cbcCrypt_decrypt hd, cbcDecrypt]

/-- The loop in either direction goes on from the chaining value it has reached (R115). -/
theorem cbcCrypt_append (p : Platform) (x : Slot) (xs ys : List Block) :
    cbcCrypt p x (xs ++ ys) =
      ((cbcCrypt p x xs).1 ++ (cbcCrypt p { x with chain := (cbcCrypt p x xs).2 } ys).1,
        (cbcCrypt p { x with chain := (cbcCrypt p x xs).2 } ys).2) := by
  rcases dir_cases x.dir with hd | hd
  · have hrest (c : Block) : cbcCrypt p { x with chain := c } ys = cbcEncrypt p (slotKey x) c ys :=
      cbcCrypt_encrypt (x := { x with chain := c }) hd p ys
    rw [hrest, cbcCrypt_encrypt hd, cbcCrypt_encrypt hd, cbcEncrypt_append]
  · have hrest (c : Block) : cbcCrypt p { x with chain := c } ys = cbcDecrypt p (slotKey x) c ys :=
      cbcCrypt_decrypt (x := { x with chain := c }) hd p ys
    rw [hrest, cbcCrypt_decrypt hd, cbcCrypt_decrypt hd, cbcDecrypt_append]

/-- The loop reads nothing of the platform but the block primitive (R112). -/
theorem cbcDecrypt_congr {p p' : Platform} (hp : p'.primitive = p.primitive) (k : AesKey) (c : Block) (xs : List Block) :
    cbcDecrypt p' k c xs = cbcDecrypt p k c xs := by
  have haes : aesDec p' = aesDec p := by
    funext k x
    simp only [aesDec, hp]
  induction xs generalizing c with
  | nil => rfl
  | cons x rest ih => simp only [cbcDecrypt, haes, ih]

/-! A CBC command that ends in OK. -/

section
variable {h : Handle} {s t : State} {x : Slot}

/-- A command raises no other code than those of its list (R221). -/
theorem err_ne_of_raise {l : List ErrCode} {f : ErrCode} (hr : ∃ e, t = s.raise e ∧ e ∈ l) (hf : f ∉ l) :
    t.err ≠ errByte f := by
  obtain ⟨e, rfl, he⟩ := hr
  exact fun heq => hf (errByte_inj heq ▸ he)

/-- A write of a slot done again changes nothing more. -/
theorem finish_setSlot_again (s : State) (j : Nat) (y : Slot) (e : ErrCode) (r : Word64) :
    (((s.setSlot j y).finish e r).setSlot j y).finish e r = (s.setSlot j y).finish e r := by
  have hsess : sparseSet Slot.free (sparseSet Slot.free s.sess j y) j y = sparseSet Slot.free s.sess j y :=
    sparseSet_set ..
  simp only [State.finish, State.setSlot, hsess]

/-- A write of a session's slot that keeps `alloc` and `mode` leaves its handle naming the session (R92). -/
theorem Names.finish_setSlot {m : Mode} {y : Slot} (hn : Names s h m x) (ha : y.alloc = x.alloc) (hm : y.mode = x.mode)
    (e : ErrCode) (r : Word64) : Names ((s.setSlot h.toNat y).finish e r) h m y := by
  obtain ⟨hpos, hmax, _, halloc, hmode⟩ := hn
  exact ⟨hpos, hmax, slot_setSlot_same .., ha.trans halloc, hm.trans hmode⟩

/-- The blocks CBC.PROCESS reads (R112). -/
def cbcInput (s : State) : List Block :=
  blocksOf (len32 s.args .arg2) (memRead s.mem (addrOf s.args .arg0) (16 * len32 s.args .arg2))

@[simp] theorem cbcInput_length (s : State) : (cbcInput s).length = len32 s.args .arg2 := blocksOf_length ..

theorem bytesOfBlocks_cbcInput (s : State) :
    bytesOfBlocks (cbcInput s) = memRead s.mem (addrOf s.args .arg0) (16 * len32 s.args .arg2) :=
  bytesOfBlocks_blocksOf (memRead_length ..)

/-- Input block `j` stands at `16 * j` in the input range (R112). -/
theorem cbcInput_getElem (s : State) (j : Nat) (hj : j < (cbcInput s).length) :
    (cbcInput s)[j] = blockOfBytes (memRead s.mem (addrOf s.args .arg0 + 16 * j) 16) := by
  rw [cbcInput_length] at hj
  rw [memRead_sub (n := 16 * len32 s.args .arg2) _ (by omega)]
  exact blocksOf_getElem ..

/-- What a CBC.PROCESS on session `h` that ends in OK has done (R112). -/
structure CbcProcessed (h : Handle) (s t : State) : Prop where
  finished : Finished .ok (16 * len32 s.args .arg2) t
  slot : t.slot h.toNat = { s.slot h.toNat with chain := (cbcCrypt s.cfg (s.slot h.toNat) (cbcInput s)).2 }
  output : memRead t.mem (addrOf s.args .arg3) (16 * len32 s.args .arg2) =
    bytesOfBlocks (cbcCrypt s.cfg (s.slot h.toNat) (cbcInput s)).1
  others : OtherSlotsKept h.toNat s t
  registers : RegistersKept s t
  memory : MemoryKeptOutside (addrOf s.args .arg3) (16 * len32 s.args .arg2) s t

theorem cbcProcessed_of_runsOk (hr : RunsOk (.cbcProcess h) s t) : CbcProcessed h s t := by
  obtain ⟨hx, hok⟩ := hr
  have hothers := exec_otherSlotsKept rfl hx
  have hregs := exec_registersKept hx
  rcases execCbcProcess_cases hx with hraise | ⟨x, _, hres, _, _, hcap, _, _, r, rfl, rfl⟩
  · exact absurd hok (err_ne_of_raise hraise (by decide))
  · obtain ⟨_, _, _, rfl⟩ := resolve_some hres
    have hlen : (bytesOfBlocks (cbcCrypt s.cfg (s.slot h.toNat) (cbcInput s)).1).length = 16 * len32 s.args .arg2 := by
      rw [bytesOfBlocks_length, cbcCrypt_length, cbcInput_length]
    have hn : 16 * len32 s.args .arg2 < 2 ^ 32 := hcap.trans_lt (len32_lt ..)
    exact ⟨⟨rfl, toNat_ofNat_of_lt hn⟩, slot_setSlot_same .., memRead_memWrite_of_length _ _ hlen, hothers, hregs,
      fun b hb => memByte_memWrite_outside _ _ _ (hlen.symm ▸ hb)⟩

/-- CBC.PROCESS of an admitted request ends in OK (R112). -/
theorem exec_cbcProcess (hn : Names s h .cbc x) (hl : WellFormed (.cbcProcess h) s.args = true) (hp : x.phase = .ready)
    (hi : 16 * len32 s.args .arg2 ≤ len32 s.args .arg1) (ho : 16 * len32 s.args .arg2 ≤ len32 s.args .arg4)
    (h1 : accessible s.cfg (addrOf s.args .arg0) (16 * len32 s.args .arg2) = true)
    (h2 : accessible s.cfg (addrOf s.args .arg3) (16 * len32 s.args .arg2) = true) :
    ∃ t, exec (.cbcProcess h) s = .next t ∧ CbcProcessed h s t ∧ s.slot h.toNat = x := by
  have hx : exec (.cbcProcess h) s = _ := execCbcProcess_run hl (resolve_of_names hn) hp hi ho h1 h2 rfl
  obtain ⟨_, _, hslot, _, _⟩ := hn
  exact ⟨_, hx, cbcProcessed_of_runsOk ⟨hx, rfl⟩, hslot⟩

/-- The bytes RESULT counts are the whole output (R220). -/
theorem CbcProcessed.outputOf_eq (hc : CbcProcessed h s t) :
    outputOf s t = bytesOfBlocks (cbcCrypt s.cfg (s.slot h.toNat) (cbcInput s)).1 := by
  obtain ⟨_, hresult⟩ := hc.finished
  rw [outputOf, hresult, hc.output]

/-- Output block `j` stands at `16 * j` in the output range (R112). -/
theorem CbcProcessed.output_block (hc : CbcProcessed h s t) {j : Nat} {y : Block}
    (hy : (cbcCrypt s.cfg (s.slot h.toNat) (cbcInput s)).1[j]? = some y) :
    memRead t.mem (addrOf s.args .arg3 + 16 * j) 16 = bytesOfBlock y := by
  obtain ⟨hj, rfl⟩ := List.getElem?_eq_some_iff.1 hy
  have hj' : j < len32 s.args .arg2 := by simpa using hj
  rw [memRead_sub (n := 16 * len32 s.args .arg2) _ (by omega), hc.output, bytesOfBlocks_sub]

/-- The chaining value after the first `j` blocks of a CBC.PROCESS on a slot (R112). -/
def cbcChain (s : State) (x : Slot) (j : Nat) : Block := (cbcCrypt s.cfg x ((cbcInput s).take j)).2

theorem cbcChain_zero (s : State) (x : Slot) : cbcChain s x 0 = x.chain := by
  rw [cbcChain, List.take_zero, cbcCrypt_nil]

theorem CbcProcessed.slot_cbcChain (hc : CbcProcessed h s t) :
    t.slot h.toNat = { s.slot h.toNat with chain := cbcChain s (s.slot h.toNat) (len32 s.args .arg2) } := by
  rw [cbcChain, List.take_of_length_le (cbcInput_length s).le, hc.slot]

/-- A session started with a key and an IV holds both (R111). -/
theorem cbcStarts_slot {key iv : List Byte} (hs : CbcStarts h key iv t) :
    rawKey key = some (slotKey (t.slot h.toNat)) ∧ (t.slot h.toNat).chain = blockOfBytes iv := by
  obtain ⟨s, ⟨hx, hok⟩, rfl, rfl⟩ := hs
  rcases execCbcInit_cases hx with hraise | ⟨x, _, _, hsize, hlen, hiv, _, _, ht⟩
  · exact absurd hok (err_ne_of_raise hraise (by decide))
  · obtain ⟨hkey, hsize', hchain⟩ :
        (t.slot h.toNat).key = keyField (memRead s.mem (addrOf s.args .arg0) (len32 s.args .arg1)) ∧
          (t.slot h.toNat).keySize = x.keySize ∧
          (t.slot h.toNat).chain = blockOfBytes (memRead s.mem (addrOf s.args .arg2) 16) := by
      rw [ht, finish_slot, slot_setSlot_same]
      exact ⟨rfl, rfl, rfl⟩
    have hbytes := (memRead_length s.mem (addrOf s.args .arg0) (len32 s.args .arg1)).trans hlen
    obtain ⟨k, hk⟩ := rawKey_isSome hsize hbytes
    rw [slotKey_init hkey (hsize'.symm ▸ hbytes) hk, hiv]
    exact ⟨hk, hchain⟩

/-- After any cut of a string of blocks into commands, the session stands where one run of the loop over all of them would leave
it, and has put out what that run puts out (R115). -/
theorem cbcFeed_blocks {inp out : List Byte} (hf : CbcFeed h s inp out t) :
    ∃ xs, inp = bytesOfBlocks xs ∧ out = bytesOfBlocks (cbcCrypt s.cfg (s.slot h.toNat) xs).1 ∧
      t.slot h.toNat = { s.slot h.toNat with chain := (cbcCrypt s.cfg (s.slot h.toNat) xs).2 } ∧ t.cfg = s.cfg := by
  induction hf with
  | start => exact ⟨[], rfl, by rw [cbcCrypt_nil, bytesOfBlocks_nil], by rw [cbcCrypt_nil], rfl⟩
  | between _ hb ih =>
    obtain ⟨xs, hin, hout, hslot, hcfg⟩ := ih
    obtain ⟨hslot', hcfg'⟩ := hb
    exact ⟨xs, hin, hout, hslot'.trans hslot, hcfg'.trans hcfg⟩
  | @process _ _ t u _ hr ih =>
    obtain ⟨xs, rfl, rfl, hslot, hcfg⟩ := ih
    have hc := cbcProcessed_of_runsOk hr
    obtain ⟨_, _, _, hcfg', _⟩ := hc.registers
    refine ⟨xs ++ cbcInput t, ?_, ?_, ?_, hcfg'.trans hcfg⟩
    · rw [bytesOfBlocks_append, bytesOfBlocks_cbcInput]
    · rw [hc.outputOf_eq, hslot, hcfg, cbcCrypt_append, bytesOfBlocks_append]
    · rw [hc.slot, hslot, hcfg, cbcCrypt_append]

end

/-- Settles O25: BLKSZ ends in `finish` alone. -/
theorem blkszReturnsSixteen : Obligations.BlkszReturnsSixteen := fun s =>
  ⟨s.finish .ok 16, rfl, ⟨rfl, rfl⟩, ⟨rfl, rfl, rfl, rfl, rfl, rfl, rfl⟩, fun _ => rfl, fun _ => rfl⟩

/-- Settles O30: the checks of CBC.INIT pass, and its rule writes the one slot. -/
theorem cbcInitLoadsKeyAndIv : Obligations.CbcInitLoadsKeyAndIv := by
  intro h s x hn hl hsize hlen hiv hkey hivmem
  have hx : exec (.cbcInit h) s = _ := execCbcInit_run hl (resolve_of_names hn) hsize hlen hiv hkey hivmem
  exact ⟨_, hx, ⟨rfl, rfl⟩, slot_setSlot_same .., exec_otherSlotsKept rfl hx, exec_registersKept hx, fun _ => rfl⟩

/-- Settles O31, by the loop's values block by block. -/
theorem cbcProcessEncrypts : Obligations.CbcProcessEncrypts := by
  intro h s x hn hl hp hd hi ho h1 h2
  obtain ⟨t, hx, hc, rfl⟩ := exec_cbcProcess hn hl hp hi ho h1 h2
  refine ⟨t, cbcChain s (s.slot h.toNat), hx, hc.finished, cbcChain_zero .., fun j hj => ?_, hc.slot_cbcChain, hc.others,
    hc.registers, hc.memory⟩
  have hj' : j < (cbcInput s).length := by rwa [cbcInput_length]
  obtain ⟨hchain, hout⟩ := cbcEncrypt_getElem s.cfg (slotKey (s.slot h.toNat)) (s.slot h.toNat).chain _ j hj'
  simp only [← cbcCrypt_encrypt hd] at hchain hout
  rw [cbcInput_getElem] at hchain
  exact ⟨hchain, hc.output_block hout⟩

/-- Settles O32, by the loop's values block by block. -/
theorem cbcProcessDecrypts : Obligations.CbcProcessDecrypts := by
  intro h s x hn hl hp hd hi ho h1 h2
  obtain ⟨t, hx, hc, rfl⟩ := exec_cbcProcess hn hl hp hi ho h1 h2
  refine ⟨t, cbcChain s (s.slot h.toNat), hx, hc.finished, cbcChain_zero .., fun j hj => ?_, hc.slot_cbcChain, hc.others,
    hc.registers, hc.memory⟩
  have hj' : j < (cbcInput s).length := by rwa [cbcInput_length]
  obtain ⟨hchain, hout⟩ := cbcDecrypt_getElem s.cfg (slotKey (s.slot h.toNat)) (s.slot h.toNat).chain _ j hj'
  rw [← hchain] at hout
  simp only [← cbcCrypt_decrypt hd] at hchain hout
  rw [cbcInput_getElem] at hchain
  exact ⟨hchain, hc.output_block hout⟩

/-- Settles O33: the second CBC.RESET writes the slot that the first one left. -/
theorem cbcResetRestoresTheChain : Obligations.CbcResetRestoresTheChain := by
  intro h s x hn hp
  have hx : exec (.cbcReset h) s = _ := execCbcReset_run (resolve_of_names hn) hp
  have hn' := hn.finish_setSlot (y := { x with chain := x.iv }) rfl rfl .ok 0
  exact ⟨_, hx, ⟨rfl, rfl⟩, slot_setSlot_same .., exec_otherSlotsKept rfl hx, exec_registersKept hx, fun _ => rfl,
    (execCbcReset_run (resolve_of_names hn') hp).trans (congrArg Host.Outcome.next (finish_setSlot_again ..))⟩

/-- Settles O34: both cuts are one run of the loop over the same blocks. -/
theorem cbcBatchesAgree : Obligations.CbcBatchesAgree := by
  intro h s inp out out' t t' hf hf'
  obtain ⟨xs, hin, rfl, hslot, _⟩ := cbcFeed_blocks hf
  obtain ⟨ys, hin', rfl, hslot', _⟩ := cbcFeed_blocks hf'
  obtain rfl := bytesOfBlocks_injective (hin.symm.trans hin')
  exact ⟨rfl, hslot'.trans hslot.symm⟩

/-- Settles O35: either session is one run of the loop from the same key and IV (`cbcFeed_blocks`), and the decrypting run undoes the
encrypting one (property P1). -/
theorem cbcRoundTrip : Obligations.CbcRoundTrip := by
  intro h h' key iv pt ct pt' s s' t t' hstart hstart' henc hdec hprim hf hf'
  obtain ⟨hkey, hchain⟩ := cbcStarts_slot hstart
  obtain ⟨hkey', hchain'⟩ := cbcStarts_slot hstart'
  obtain ⟨xs, rfl, hct, _, _⟩ := cbcFeed_blocks hf
  obtain ⟨ys, hct', rfl, _, _⟩ := cbcFeed_blocks hf'
  have hsame : slotKey (s'.slot h'.toNat) = slotKey (s.slot h.toNat) := Option.some.inj (hkey'.symm.trans hkey)
  have hys : ys = (cbcEncrypt s.cfg (slotKey (s.slot h.toNat)) (blockOfBytes iv) xs).1 := by
    rw [← hchain, ← cbcCrypt_encrypt henc]
    exact bytesOfBlocks_injective (hct'.symm.trans hct)
  rw [cbcCrypt_decrypt hdec, hsame, hchain', cbcDecrypt_congr hprim, hys, cbcDecrypt_cbcEncrypt]

end Sys2Proof.Machine
end

section
/-! The state machines of the sessions (41_cbc.md R110, 42_aead.md R140): where a session command raises InvalidStateTransition, and
the phase it leaves otherwise. -/

namespace Sys2Proof.Machine

/-! The phases the procedures of the AEAD engine leave (R149 to R153). -/

theorem absorbAad_phase (x : Slot) (a : List Byte) : (absorbAad x a).phase = x.phase := by rw [absorbAad_shape]

theorem absorbData_phase (p : Platform) (x : Slot) (d : List Byte) : (absorbData p x d).1.phase = x.phase := by
  rw [absorbData_shape]

theorem initSlot_phase (p : Platform) (x : Slot) (d : Dir) (key nonce aad : List Byte) (tagBits : Nat) :
    (initSlot p x d key nonce aad tagBits).phase = .aad := by rw [initSlot_closed rfl]

/-- How a command on session `h` ends where its table gives the phase `q` (R110, R140): `none` is refused; a phase is left by OK and by
AuthenticationFailure, and the other errors leave the state. -/
inductive PhaseOutcome (h : Nat) (s : State) : Option Phase → State → Prop
  | refused : PhaseOutcome h s none (s.raise .invalidStateTransition)
  | failed {p : Phase} {e : ErrCode} : e ∉ [.ok, .invalidStateTransition, .authenticationFailure] →
      PhaseOutcome h s (some p) (s.raise e)
  | ended {p : Phase} {t : State} {e : ErrCode} {r : Word64} : e ∈ [.ok, .authenticationFailure] → (t.slot h).phase = p →
      PhaseOutcome h s (some p) (t.finish e r)

theorem errByte_eq_iff {e f : ErrCode} : errByte e = errByte f ↔ e = f := ⟨errByte_inj, congrArg errByte⟩

namespace PhaseOutcome
variable {h : Nat} {s t u : State} {q : Option Phase} {p : Phase} {C : Prop} [Decidable C]

/-- The check of the phase, where the table lists the phases it admits (R110, R140). -/
theorem gate {A : Prop} [Decidable A] (hA : ¬ C ↔ A) (hu : A → PhaseOutcome h s (some p) u) :
    PhaseOutcome h s (if A then some p else none) (if C then s.raise .invalidStateTransition else u) := by
  by_cases hc : C
  · rw [if_pos hc, if_neg fun ha => hA.2 ha hc]
    exact refused
  · rw [if_neg hc, if_pos (hA.1 hc)]
    exact hu (hA.1 hc)

/-- The check of the phase, where the table lists the phase it refuses. -/
theorem gate_refusing (hu : PhaseOutcome h s (some p) u) :
    PhaseOutcome h s (if C then none else some p) (if C then s.raise .invalidStateTransition else u) := by
  split
  · exact refused
  · exact hu

/-- A check of anything else (R224). -/
theorem check {e : ErrCode} (he : e ∉ [.ok, .invalidStateTransition, .authenticationFailure])
    (hu : PhaseOutcome h s (some p) u) : PhaseOutcome h s (some p) (if C then s.raise e else u) := by
  split
  · exact failed he
  · exact hu

theorem ite (ht : C → PhaseOutcome h s q t) (hu : ¬ C → PhaseOutcome h s q u) : PhaseOutcome h s q (if C then t else u) := by
  split
  · rename_i hc
    exact ht hc
  · rename_i hc
    exact hu hc

/-- A command that has written its slot. -/
theorem slot {y : Slot} {e : ErrCode} {r : Word64} (he : e ∈ [.ok, .authenticationFailure]) (hy : y.phase = p) :
    PhaseOutcome h s (some p) ((s.setSlot h y).finish e r) := ended he (by rw [slot_setSlot_same, hy])

/-- A command that has written its slot and its output. -/
theorem both {y : Slot} {a : Nat} {v : List Byte} {e : ErrCode} {r : Word64} (he : e ∈ [.ok, .authenticationFailure])
    (hy : y.phase = p) : PhaseOutcome h s (some p) (((s.setSlot h y).store a v).finish e r) :=
  ended he (by rw [store_slot, slot_setSlot_same, hy])

/-- The statement of R110 and R140 about one end of a command. -/
theorem law (ho : PhaseOutcome h s q t) :
    (t.err = errByte .invalidStateTransition ↔ q = none) ∧
      (t.err = errByte .ok ∨ t.err = errByte .authenticationFailure → q = some (t.slot h).phase) := by
  cases ho with
  | refused => simp [errByte_eq_iff]
  | failed he =>
    simp only [List.mem_cons, List.not_mem_nil, or_false, not_or] at he
    simp [errByte_eq_iff, he]
  | ended he hp =>
    simp only [List.mem_cons, List.not_mem_nil, or_false] at he
    rcases he with rfl | rfl <;> simp [errByte_eq_iff, hp]

end PhaseOutcome

/-- A session command that passes `Decode` and `Resolve` ends as its own rule says (R92). -/
theorem eq_body_of_next {op : Op} {m : Option Mode} {h : Handle} {s t : State} {body : Slot → State} {x : Slot}
    (hl : operandsLegal op s.args = true) (hr : s.resolve m h = some x) (ht : sessionCommand op m h s body = .next t) :
    t = body x := Host.Outcome.next.inj (ht.symm.trans (sessionCommand_run hl hr))

/-- Every session command keeps to the tables of R110 and R140: its check of the phase is the table's, the others raise other errors, and
its rule leaves the table's phase. The invariants serve GCM.MAC alone, whose check of `tagValid` is no entry of the table. -/
theorem exec_phaseOutcome {i : Instr} {h : Handle} {s t : State} {x : Slot} (hi : handleOf i = some h)
    (hl : operandsLegal (opOf i) s.args = true) (hr : s.resolve (modeOf i) h = some x) (hinv : SlotInv x)
    (ht : exec i s = .next t) : PhaseOutcome h.toNat s (phaseAfter i (len32 s.args .arg1) x) t := by
  obtain ⟨-, -, halloc, hx⟩ := resolve_some hr
  cases i
  case caps | create | blksz => cases hi
  all_goals
    obtain rfl := Option.some.inj hi
    rw [eq_body_of_next hl hr ht]
  case dispose => exact .slot (by decide) rfl
  case cbcInit => exact .check (by decide) (.check (by decide) (.check (by decide) (.slot (by decide) rfl)))
  case cbcProcess =>
    exact .gate not_not fun hp => .check (by decide) (.check (by decide) (.both (by decide) hp))
  case cbcReset => exact .gate not_not fun hp => .slot (by decide) hp
  case gcmInit =>
    exact .check (by decide) (.check (by decide) (.check (by decide) (.check (by decide)
      (.slot (by decide) (initSlot_phase ..)))))
  case gcmAadByte =>
    exact .gate not_not fun hp => .check (by decide) (.slot (by decide) ((absorbAad_phase ..).trans hp))
  case gcmAadBytes =>
    exact .gate not_not fun hp => .check (by decide) (.check (by decide)
      (.slot (by decide) ((absorbAad_phase ..).trans hp)))
  case gcmByte =>
    exact .gate (dataPhase_iff x) fun hp => .check (by decide) (.check (by decide) (.check (by decide)
      (.both (by decide) ((absorbData_phase ..).trans (enterData_phase hp)))))
  case gcmBytes =>
    refine .gate (dataPhase_iff x) fun hp => .ite (fun h0 => ?_) fun h0 => ?_
    · rw [if_pos h0, hx]
      exact .ended (by decide) rfl
    · rw [if_neg h0]
      exact .check (by decide) (.check (by decide) (.check (by decide)
        (.both (by decide) ((absorbData_phase ..).trans (enterData_phase hp)))))
  case gcmFinal =>
    refine .gate (dataPhase_iff x) fun _ => .ite (fun _ => .slot (by decide) rfl) fun _ => ?_
    refine .check (by decide) (.check (by decide) ?_)
    cases x.dir with
    | encrypt => exact .both (by decide) rfl
    | decrypt => exact .both (by split <;> decide) rfl
  case gcmUosize => exact .gate_refusing (.ended (by decide) (by rw [hx]))
  case gcmOsize => exact .gate_refusing (.ended (by decide) (by rw [hx]))
  case gcmMac =>
    obtain ⟨_, _, hmode⟩ := slot_of_resolve hr
    obtain ⟨_, _, haead⟩ := hinv halloc
    obtain ⟨_, haux⟩ := haead (hx ▸ hmode)
    have hadmits : ¬ (x.phase ≠ .final ∨ x.dir ≠ .encrypt ∨ x.tagValid = false) ↔ x.phase = .final ∧ x.dir = .encrypt := by
      simp only [not_or, not_not, Bool.not_eq_false]
      exact ⟨fun ⟨hp, hd, _⟩ => ⟨hp, hd⟩, fun ⟨hp, hd⟩ => ⟨hp, hd, haux.final_tag hp hd⟩⟩
    exact .gate hadmits fun ⟨hp, _⟩ => .check (by decide) (.check (by decide)
      (.ended (by decide) (by rw [store_slot, ← hx, hp])))
  case gcmReset keep =>
    cases keep with
    | false => exact .slot (by decide) rfl
    | true => exact .gate_refusing (.slot (by decide) rfl)

/-- Settles O36, by the checks of each command in their order. -/
theorem phasesFollowTheTables : Obligations.PhasesFollowTheTables := by
  intro i h m s t x hi hn hm hinv hl ht
  have hr : s.resolve (modeOf i) h = some x := by
    rcases hm with hany | hmode
    · rw [hany]
      exact resolve_any_of_names hn
    · rw [hmode]
      exact resolve_of_names hn
  exact (exec_phaseOutcome hi hl hr hinv ht).law

end Sys2Proof.Machine
end

section
/-! The algebra of the AEAD engine (42_aead.md R141, R142): `GFMul` as multiplication of polynomials, and the counters as arithmetic. -/

namespace Sys2Proof.Machine

section
open Polynomial

/-- The field polynomial z^128 + z^7 + z^2 + z + 1 (R141); irreducible, so that no check of an equality unfolds the 128th power. -/
@[irreducible] noncomputable def gfModulus : (ZMod 2)[X] := X ^ 128 + X ^ 7 + X ^ 2 + X + 1

theorem gfModulus_eq : gfModulus = X ^ 128 + X ^ 7 + X ^ 2 + X + 1 := by
  unfold gfModulus
  rfl

/-- `v` times z, reduced: the update of `V` in the loop of `GFMul` (R141). -/
def gfShift (v : Block) : Block := if v.getLsbD 0 then (v >>> 1) ^^^ gfR else v >>> 1

/-- The factor of `GFMul` that its last `n` iterations multiply with: bit `x_i` with `i = 128 - n + j` is the coefficient of z^j. -/
noncomputable def gfTail (x : Block) (n : Nat) : (ZMod 2)[X] :=
  ∑ j ∈ Finset.range n, if x.getMsbD (128 - n + j) then (X : (ZMod 2)[X]) ^ j else 0

theorem gfLoop_succ (x : Block) (k : Nat) (z v : Block) :
    gfLoop x (k + 1) z v = gfLoop x k (if x.getMsbD (127 - k) then z ^^^ v else z) (gfShift v) := rfl

theorem gfPoly_zero : gfPoly 0 = 0 := by simp [gfPoly]

theorem gfTail_all (x : Block) : gfTail x 128 = gfPoly x := by simp [gfTail, gfPoly]

theorem gfTail_succ (x : Block) {k : Nat} (hk : k < 128) :
    gfTail x (k + 1) = (if x.getMsbD (127 - k) then 1 else 0) + X * gfTail x k := by
  unfold gfTail
  have hshift : ∀ j, 128 - (k + 1) + (j + 1) = 128 - k + j := fun j => by omega
  simp only [Finset.sum_range_succ', Finset.mul_sum, hshift, mul_ite, mul_zero, pow_succ', pow_zero]
  rw [add_comm, show 128 - (k + 1) + 0 = 127 - k by omega]

/-- The block `R` is the field polynomial without z^128 (R141). -/
theorem gfPoly_gfR : gfPoly gfR = X ^ 7 + X ^ 2 + X + 1 := by
  have hzero : ∀ j ∈ Finset.range 128, j ∉ Finset.range 8 → (if gfR.getMsbD j then (X : (ZMod 2)[X]) ^ j else 0) = 0 := by
    intro j hj hj8
    have hj : j < 128 := Finset.mem_range.1 hj
    have hj8 : ¬ j < 8 := fun h => hj8 (Finset.mem_range.2 h)
    have hlow : 127 - j < 120 := by omega
    rw [gfR, BitVec.getMsbD, BitVec.getLsbD_shiftLeft]
    simp [hlow]
  have hbits : ∀ j : Fin 8, gfR.getMsbD j = decide (j ∈ ({0, 1, 2, 7} : Finset (Fin 8))) := by decide
  rw [gfPoly, ← Finset.sum_subset (Finset.range_subset_range.2 (by omega)) hzero, Finset.sum_range]
  simp [hbits, Fin.sum_univ_succ]
  ring

/-- The update of `V` is multiplication by z in the field (R141). -/
theorem gfModulus_dvd_shift (v : Block) : gfModulus ∣ X * gfPoly v - gfPoly (gfShift v) := by
  rw [← gfPoly_shift v, gfShift]
  cases v.getLsbD 0 with
  | false => simp
  | true =>
    have hneg : -gfPoly gfR = gfPoly gfR := CharTwo.neg_eq _
    have hmod : gfPoly (v >>> 1) + X ^ 128 - (gfPoly (v >>> 1) + gfPoly gfR) = gfModulus := by
      rw [add_sub_add_left_eq_sub, sub_eq_add_neg, hneg, gfPoly_gfR, gfModulus_eq]
      ring
    simp only [if_true, gfPoly_xor, hmod, dvd_refl]

/-- With `n` iterations left the loop adds, in the field, the product of `V` and what is left of the factor (R141). -/
theorem gfModulus_dvd_loop (x : Block) {n : Nat} (hn : n ≤ 128) (z v : Block) :
    gfModulus ∣ gfPoly z + gfTail x n * gfPoly v - gfPoly (gfLoop x n z v) := by
  induction n generalizing z v with
  | zero => simp [gfLoop, gfTail]
  | succ k ih =>
    have hz : gfPoly (if x.getMsbD (127 - k) then z ^^^ v else z) =
        gfPoly z + (if x.getMsbD (127 - k) then 1 else 0) * gfPoly v := by
      cases x.getMsbD (127 - k) <;> simp [gfPoly_xor]
    have hrest := ih (by omega) (if x.getMsbD (127 - k) then z ^^^ v else z) (gfShift v)
    rw [← gfLoop_succ, hz] at hrest
    rw [gfTail_succ x hn]
    convert dvd_add hrest ((gfModulus_dvd_shift v).mul_left (gfTail x k)) using 1
    ring

/-- Settles O53: the whole loop, with the whole factor left and `Z` still 0. -/
theorem gfMulIsPolynomialMultiplication : Obligations.GfMulIsPolynomialMultiplication := by
  intro poly hpoly x y
  obtain rfl : poly = gfPoly := funext hpoly
  rw [← gfModulus_eq, gfMul]
  simpa only [gfPoly_zero, zero_add, gfTail_all] using gfModulus_dvd_loop x le_rfl 0 y

end

theorem intBe_bytesOfBlock (x : Block) : intBe (bytesOfBlock x) = x.toNat := by
  rw [bytesOfBlock, intBe_beBytes]
  exact Nat.mod_eq_of_lt x.isLt

/-- The first 12 bytes of a block as an integer, and the last 4, which count (R142). -/
theorem intBe_counterBlock (x : Block) :
    intBe ((bytesOfBlock x).take 12) = x.toNat / 2 ^ 32 ∧ intBe ((bytesOfBlock x).drop 12) = x.toNat % 2 ^ 32 := by
  have hsplit := intBe_split (bytesOfBlock x) (n := 12)
  rwa [bytesOfBlock_length, intBe_bytesOfBlock] at hsplit

/-- Settles O54, on the integer of the block (`inc32Iter_toNat`). -/
theorem countersDoNotRepeat : Obligations.CountersDoNotRepeat := by
  intro x n m
  obtain ⟨hhigh, hlow⟩ := intBe_counterBlock x
  obtain ⟨hhigh', hlow'⟩ := intBe_counterBlock (inc32Iter n x)
  have hn := inc32Iter_toNat n x
  refine ⟨intBe_inj (by simp) ?_, ?_, fun hlt hgap heq => ?_⟩
  · rw [hhigh', hhigh]
    omega
  · rw [hlow', hlow]
    omega
  · have hm := inc32Iter_toNat m x
    rw [← heq] at hm
    omega

end Sys2Proof.Machine
end

section
/-! The commands of the AEAD engine one by one (42_aead.md R149 to R165): what each leaves of its slot, of memory and of the registers. -/

namespace Sys2Proof.Machine

/-! The three ways in which a command of a session ends, with their frames. -/

section
variable {i : Instr} {h : Handle} {s : State} {e : ErrCode}

/-- A command that has written its slot alone (R39, R220). -/
theorem exec_setSlot_spec {y : Slot} (hi : handleOf i = some h)
    (hx : exec i s = .next ((s.setSlot h.toNat y).finish e 0)) :
    ∃ t, exec i s = .next t ∧ Finished e 0 t ∧ t.slot h.toNat = y ∧ OtherSlotsKept h.toNat s t ∧ RegistersKept s t ∧
      MemoryKept s t :=
  ⟨_, hx, ⟨rfl, rfl⟩, slot_setSlot_same .., exec_otherSlotsKept hi hx, exec_registersKept hx, fun _ => rfl⟩

/-- A command that has written its slot and an output of `n` bytes (R39, R69, R220). -/
theorem exec_output_spec {y : Slot} {v : List Byte} {n : Nat} (hi : handleOf i = some h) (hv : v.length = n)
    (hn : n < 2 ^ 32)
    (hx : exec i s = .next (((s.setSlot h.toNat y).store (addrOf s.args .arg3) v).finish e (BitVec.ofNat 64 n))) :
    ∃ t, exec i s = .next t ∧ Finished e n t ∧ memRead t.mem (addrOf s.args .arg3) n = v ∧ t.slot h.toNat = y ∧
      OtherSlotsKept h.toNat s t ∧ RegistersKept s t ∧ MemoryKeptOutside (addrOf s.args .arg3) n s t :=
  ⟨_, hx, ⟨rfl, toNat_ofNat_of_lt hn⟩, memRead_memWrite_of_length _ _ hv, slot_setSlot_same .., exec_otherSlotsKept hi hx,
    exec_registersKept hx, fun _ hb => memByte_memWrite_outside _ _ _ (hv.symm ▸ hb)⟩

/-- A command that has written STATUS and RESULT alone (R220). -/
theorem exec_query_spec {n : Nat} (hn : n < 2 ^ 64) (hx : exec i s = .next (s.finish e (BitVec.ofNat 64 n))) :
    ∃ t, exec i s = .next t ∧ Finished e n t ∧ SlotsKept s t ∧ RegistersKept s t ∧ MemoryKept s t :=
  ⟨_, hx, ⟨rfl, (BitVec.toNat_ofNat ..).trans (Nat.mod_eq_of_lt hn)⟩, fun _ => rfl, exec_registersKept hx, fun _ => rfl⟩

end

/-- Settles O37: the checks of GCM.INIT pass, and `initSlot_closed` is the slot it leaves. -/
theorem gcmInitStartsAMessage : Obligations.GcmInitStartsAMessage := by
  rintro h d s x k nonce aad acc rest hn hl hsize hlen hnonce ht ht1 ht2 ha0 ha2 ha4 hkey rfl rfl rfl rfl
  have hslotKey := slotKey_init (x := { x with key := keyField _, dir := d }) rfl ((memRead_length ..).trans hlen) hkey
  have hx := execGcmInit_run (d := d) hl (resolve_of_names hn) hsize hlen hnonce ht ht1 ht2 ha0 ha2 ha4
  rw [initSlot_closed hslotKey] at hx
  rw [Nat.mul_comm _ 16]
  exact exec_setSlot_spec rfl hx

/-- Settles O38: either command absorbs its bytes, which `absorbAad_closed` takes as a whole. -/
theorem aadCommandsAbsorb : Obligations.AadCommandsAbsorb := by
  intro i h s x a hn hl hp hbuf hi hcount
  have hrun : handleOf i = some h ∧ exec i s = .next ((s.setSlot h.toNat (absorbAad x a)).finish .ok 0) := by
    rcases hi with ⟨rfl, rfl⟩ | ⟨rfl, rfl, hacc⟩
    · exact ⟨rfl, execGcmAadByte_run hl (resolve_of_names hn) hp hcount⟩
    · rw [memRead_length] at hcount
      exact ⟨rfl, execGcmAadBytes_run hl (resolve_of_names hn) hp hcount hacc⟩
  obtain ⟨hhandle, hx⟩ := hrun
  rw [absorbAad_closed a hbuf, Nat.mul_comm 16] at hx
  exact exec_setSlot_spec hhandle hx

/-- Settles O39: either command absorbs its bytes, which `data_closed` takes as a whole. -/
theorem dataCommandsProcessWholeBlocks : Obligations.DataCommandsProcessWholeBlocks := by
  intro i h s x d ct need acc hn hl hinv hp hi hneed hcap hmax hacc hclosed hct
  subst hneed
  have hrun : handleOf i = some h ∧ exec i s = .next (((s.setSlot h.toNat (absorbData s.cfg (enterData x) d).1).store
      (addrOf s.args .arg3) (absorbData s.cfg (enterData x) d).2).finish .ok (BitVec.ofNat 64 (uoSize x d.length))) := by
    rcases hi with ⟨rfl, rfl⟩ | ⟨rfl, rfl, hpos, hin⟩
    · exact ⟨rfl, execGcmByte_run hl (resolve_of_names hn) hp hcap hmax hacc rfl⟩
    · rw [memRead_length] at hcap hmax hacc ⊢
      exact ⟨rfl, execGcmBytes_run hl (resolve_of_names hn) hp hpos hcap hmax hin hacc rfl⟩
  obtain ⟨hhandle, hx⟩ := hrun
  have hct' : ciphertextOf s.cfg x ((x.dataBuf ++ d).take (uoSize x d.length)) = ct := hct.symm
  have hclosed' : closedAcc x = acc := hclosed.symm
  have hlen : (gctr s.cfg (slotKey x) x.ctr ((x.dataBuf ++ d).take (uoSize x d.length))).length = uoSize x d.length := by
    rw [gctr_length, List.length_take_of_le (by rw [List.length_append]; exact uoSize_le ..)]
  rw [data_closed hinv hp, hct', hclosed'] at hx
  exact exec_output_spec hhandle hlen (hcap.trans_lt (len32_lt ..)) hx

/-- Settles O40: the check of the phase passes, and a length of 0 ends the command. -/
theorem gcmBytesOfNothingIsNoOp : Obligations.GcmBytesOfNothingIsNoOp := fun _ _ _ hn hl hp h0 =>
  execGcmBytes_zero hl (resolve_of_names hn) hp h0

/-- Settles O41: `final_closed` for the slot and the data bytes, and the tag after them. -/
theorem gcmFinalEmitsTheTag : Obligations.GcmFinalEmitsTheTag := by
  intro h s x ct acc tag hn hl hinv hp hd htag hcap hout hct hacc htagEq
  have hlast : finalLen x = x.dataBuf.length := by simp [finalLen, hd]
  have hsize : oSize x 0 = x.dataBuf.length + x.tagLen.toNat := by rw [← finalOut_encrypt hd, hlast]
  have hct' : ct = ciphertextOf s.cfg x (x.dataBuf.take (finalLen x)) := by
    rw [hlast, List.take_length, ciphertextOf, hd]
    exact hct
  have hctLen : ct.length = x.dataBuf.length := by rw [hct, gctr_length]
  rw [hctLen, ← hlast] at hacc
  obtain ⟨hslot, hbytes⟩ := final_closed hinv hp hct' hacc
  rw [hlast, List.take_length, ← hct] at hbytes
  have hx := execGcmFinal_encrypt hl (resolve_of_names hn) hp hd (hsize.trans_le hcap) (hsize.symm ▸ hout) rfl rfl
  rw [hbytes, hslot, ← htagEq, hsize, hlast] at hx
  exact exec_output_spec rfl (by simp [hctLen, htag]) (hcap.trans_lt (len32_lt ..)) hx

/-- Settles O42: `final_closed` for the slot and the data bytes; the tag is compared with what is left of the stream. -/
theorem gcmFinalVerifiesTheTag : Obligations.GcmFinalVerifiesTheTag := by
  intro h s x m ct acc tag hn hl hinv hp hd hlen hcap hout hct hacc htagEq
  have hlast : finalLen x = m := by simp [finalLen, hd, hlen]
  have hsize : oSize x 0 = m := by rw [← finalOut_decrypt hd, hlast]
  have hct' : ct = ciphertextOf s.cfg x (x.dataBuf.take (finalLen x)) := by
    rw [hlast, ciphertextOf, hd]
    exact hct
  rw [← hlast] at hacc
  obtain ⟨hslot, hbytes⟩ := final_closed hinv hp hct' hacc
  rw [hlast, ← hct] at hbytes
  have hctLen : ct.length = m := by rw [hct, List.length_take_of_le (by omega)]
  have hx := execGcmFinal_decrypt hl (resolve_of_names hn) hp hd (by omega) (hsize.trans_le hcap) (hsize.symm ▸ hout) rfl rfl
  rw [hbytes, hslot, ← htagEq, hsize, hlast] at hx
  exact exec_output_spec rfl ((gctr_length ..).trans hctLen) (hcap.trans_lt (len32_lt ..)) hx

/-- Settles O43: the check of the stream's length comes before the output's, and the AAD phase is closed first. -/
theorem gcmFinalRefusesAShortStream : Obligations.GcmFinalRefusesAShortStream := by
  intro h s x hn hl hinv hp hd hshort
  have hx := execGcmFinal_short hl (resolve_of_names hn) hp hd hshort
  rw [enterData_closed hp hinv.aadBuf_phase] at hx
  exact exec_setSlot_spec rfl hx

/-- Settles O44: either query answers a number below 2^34. -/
theorem sizeQueriesAnswer : Obligations.SizeQueriesAnswer := by
  rintro h s x n hn hp hbuf rfl
  have hlt := len32_lt s.args .arg1
  have htag := x.tagLen.isLt
  refine ⟨fun hl => ?_, fun hl => ?_⟩
  · have hpending : pending x (len32 s.args .arg1) < 2 ^ 64 := by
      unfold pending
      cases x.dir <;> simp only <;> omega
    obtain ⟨t, ht, hfin, hframe⟩ := exec_query_spec (i := .gcmUosize h) ((Nat.sub_le _ _).trans_lt hpending)
      (execGcmUosize_run hl (resolve_of_names hn) hp)
    exact ⟨t, pending x _, ht, hfin, fun hd => by simp [pending, hd], fun hd => by simp [pending, hd], hframe⟩
  · have hsize : oSize x (len32 s.args .arg1) < 2 ^ 64 := by
      unfold oSize
      cases x.dir <;> simp only <;> omega
    obtain ⟨t, ht, hfin, hframe⟩ := exec_query_spec (i := .gcmOsize h) hsize (execGcmOsize_run hl (resolve_of_names hn) hp)
    exact ⟨t, oSize x _, ht, hfin, fun hd => by simp [oSize, hd], fun hd => by simp [oSize, hd], hframe⟩

/-- A write done again changes no byte (R60). -/
theorem memByte_memWrite_again (m : Memory) (a : Nat) (v : List Byte) (b : Nat) :
    memByte (memWrite (memWrite m a v) a v) b = memByte (memWrite m a v) b := by
  by_cases hb : b < a ∨ a + v.length ≤ b
  · exact memByte_memWrite_outside _ _ _ hb
  · obtain ⟨i, rfl⟩ := Nat.exists_eq_add_of_le (show a ≤ b by omega)
    rw [memByte_memWrite_inside _ _ _ i (by omega), memByte_memWrite_inside _ _ _ i (by omega)]

/-- Settles O46: GCM.MAC writes no slot and no operand, so its checks pass again and it writes the same bytes. -/
theorem gcmMacWritesTheTag : Obligations.GcmMacWritesTheTag := by
  intro h s x hn hl hp hd hv htag hcap hout
  have hlen := tagBytes_length htag
  have hnum := toNat_ofNat_of_lt (hcap.trans_lt (len32_lt ..))
  have hx : exec (.gcmMac h) s = _ := execGcmMac_run hl (resolve_of_names hn) hp hd hv hcap hout
  have hagain := execGcmMac_run (h := h) (x := x)
    (s := (s.store (addrOf s.args .arg3) (tagBytes x)).finish .ok (BitVec.ofNat 64 x.tagLen.toNat))
    hl (resolve_of_names hn) hp hd hv hcap hout
  exact ⟨_, hx, ⟨rfl, hnum⟩, memRead_memWrite_of_length _ _ hlen, fun _ => rfl, exec_registersKept hx,
    fun _ hb => memByte_memWrite_outside _ _ _ (hlen.symm ▸ hb), _, hagain, memByte_memWrite_again _ _ _, ⟨rfl, hnum⟩⟩

/-- Settles O47: GCM.RESET checks the phase for KEEP = 1 alone, and writes the one slot. -/
theorem gcmResetRestartsOrClears : Obligations.GcmResetRestartsOrClears := by
  intro h s x hn
  refine ⟨fun hp => ?_, ?_⟩
  · exact exec_setSlot_spec rfl (execGcmReset_keep (resolve_of_names hn) hp)
  · exact exec_setSlot_spec rfl (execGcmReset_drop (resolve_of_names hn))

end Sys2Proof.Machine
end

section
/-! Whole messages (42_aead.md R145 to R168): a message, however it is cut into commands, against the mode in one shot, and what follows from
it: streaming, the round trip, the sizes announced, and the return to the checkpoint. -/

namespace Sys2Proof.Machine

/-! One command of a message. -/

/-- What an AAD or data command that ends in OK does to its slot `x`: the AAD and data bytes it takes in, the bytes it puts out, the slot it
leaves (R154 to R156, R159). -/
inductive FeedStep (p : Platform) (x : Slot) : List Byte → List Byte → List Byte → Slot → Prop
  | nothing : FeedStep p x [] [] [] x
  | aad (a : List Byte) : x.phase = .aad → x.aadCount.toNat + a.length ≤ aadMax → FeedStep p x a [] [] (absorbAad x a)
  | data (e : List Byte) : x.phase = .aad ∨ x.phase = .data → x.dataCount.toNat + pending x e.length ≤ dataMax →
      FeedStep p x [] e (absorbData p (enterData x) e).2 (absorbData p (enterData x) e).1

section
variable {p : Platform} {x y : Slot} {a e o : List Byte}

/-- The output of data absorption has the announced size (R153, R157). -/
theorem absorbData_enterData_length (hi : AeadInv x) (hp : x.phase = .aad ∨ x.phase = .data) :
    (absorbData p (enterData x) e).2.length = uoSize x e.length := by
  rw [data_closed hi hp, gctr_length, List.length_take_of_le]
  rw [List.length_append]
  exact uoSize_le ..

/-- The commands of a message keep what the slot says of the message. -/
theorem FeedStep.inMessage {d : Dir} {k : AesKey} {nonce aad data out : List Byte} {tagLen : Nat}
    (hf : FeedStep p x a e o y) (hM : InMessage p d k nonce aad data out tagLen x) :
    InMessage p d k nonce (aad ++ a) (data ++ e) (out ++ o) tagLen y := by
  cases hf with
  | nothing => simpa using hM
  | aad a hp hc => simpa using inMessage_absorbAad hM hp hc
  | data e hp hc => simpa using inMessage_absorbData hM hc

/-- What a command puts out is taken off what is still to come out (R158). -/
theorem FeedStep.oSize_eq (hf : FeedStep p x a e o y) (hi : AeadInv x) : oSize x e.length = o.length + oSize y 0 := by
  cases hf with
  | nothing => simp
  | aad a => rw [absorbAad_shape]; simp [oSize]
  | data e hp =>
    have hu : uoSize x e.length = pending x e.length - pending x e.length % 16 := rfl
    rw [absorbData_enterData_length hi hp, data_closed hi hp]
    unfold oSize
    unfold pending at hu
    cases hd : x.dir <;> simp only [hd, List.length_drop, List.length_append] at hu ⊢ <;> omega

end

section
variable {h : Handle} {t u : State}

theorem feedStep_of_gcmAadByte (hr : RunsOk (.gcmAadByte h) t u) :
    FeedStep t.cfg (t.slot h.toNat) [byte8 t.args] [] [] (u.slot h.toNat) := by
  obtain ⟨hx, hok⟩ := hr
  rcases execGcmAadByte_cases hx with hraise | ⟨x, _, hres, hp, hc, rfl⟩
  · exact absurd hok (err_ne_of_raise hraise (by decide))
  · obtain ⟨rfl, _, _⟩ := slot_of_resolve hres
    rw [finish_slot, slot_setSlot_same]
    exact .aad _ hp hc

theorem feedStep_of_gcmAadBytes (hr : RunsOk (.gcmAadBytes h) t u) :
    FeedStep t.cfg (t.slot h.toNat) (memRead t.mem (addrOf t.args .arg0) (len32 t.args .arg1)) [] [] (u.slot h.toNat) := by
  obtain ⟨hx, hok⟩ := hr
  rcases execGcmAadBytes_cases hx with hraise | ⟨x, _, hres, hp, hc, _, rfl⟩
  · exact absurd hok (err_ne_of_raise hraise (by decide))
  · obtain ⟨rfl, _, _⟩ := slot_of_resolve hres
    rw [finish_slot, slot_setSlot_same]
    exact .aad _ hp (by rwa [memRead_length])

/-- A data command that has written its slot and its output (R156, R159). -/
theorem feedStep_of_data {x : Slot} {e : List Byte} {r : Slot × List Byte} (hi : AeadInv x)
    (hp : x.phase = .aad ∨ x.phase = .data) (hc : x.dataCount.toNat + pending x e.length ≤ dataMax)
    (hn : uoSize x e.length < 2 ^ 32) (hr : r = absorbData t.cfg (enterData x) e)
    (hu : u = ((t.setSlot h.toNat r.1).store (addrOf t.args .arg3) r.2).finish .ok (BitVec.ofNat 64 (uoSize x e.length))) :
    FeedStep t.cfg x [] e (outputOf t u) (u.slot h.toNat) := by
  have hlen : r.2.length = uoSize x e.length := by rw [hr, absorbData_enterData_length hi hp]
  have hout : outputOf t u = r.2 := by
    rw [outputOf, hu, finish_result, toNat_ofNat_of_lt hn]
    exact memRead_memWrite_of_length _ _ hlen
  rw [hout, hu, finish_slot, store_slot, slot_setSlot_same, hr]
  exact .data e hp hc

theorem feedStep_of_gcmByte (hi : AeadInv (t.slot h.toNat)) (hr : RunsOk (.gcmByte h) t u) :
    FeedStep t.cfg (t.slot h.toNat) [] [byte8 t.args] (outputOf t u) (u.slot h.toNat) := by
  obtain ⟨hx, hok⟩ := hr
  rcases execGcmByte_cases hx with hraise | ⟨x, _, hres, hp, hcap, hc, _, r, hr, hu⟩
  · exact absurd hok (err_ne_of_raise hraise (by decide))
  · obtain ⟨rfl, _, _⟩ := slot_of_resolve hres
    exact feedStep_of_data hi hp hc (hcap.trans_lt (len32_lt ..)) hr hu

theorem feedStep_of_gcmBytes (hi : AeadInv (t.slot h.toNat)) (hr : RunsOk (.gcmBytes h) t u) :
    FeedStep t.cfg (t.slot h.toNat) [] (memRead t.mem (addrOf t.args .arg0) (len32 t.args .arg1)) (outputOf t u)
      (u.slot h.toNat) := by
  obtain ⟨hx, hok⟩ := hr
  rcases execGcmBytes_cases hx with hraise | ⟨_, _, _, _, h0, rfl⟩ | ⟨x, _, hres, hp, _, hcap, hc, _, _, r, hr, hu⟩
  · exact absurd hok (err_ne_of_raise hraise (by decide))
  · rw [h0]
    exact .nothing
  · obtain ⟨rfl, _, _⟩ := slot_of_resolve hres
    have hlen := memRead_length t.mem (addrOf t.args .arg0) (len32 t.args .arg1)
    rw [← hlen] at hcap hc hu
    exact feedStep_of_data hi hp hc (hcap.trans_lt (len32_lt ..)) hr hu

theorem exec_cfg_eq {i : Instr} (hx : exec i t = .next u) : u.cfg = t.cfg := by
  obtain ⟨_, _, _, hcfg, _⟩ := exec_registersKept hx
  exact hcfg

/-- A successful GCM.INIT of a message, from its session's slot (R149). -/
theorem gcmStarts_slot {d : Dir} {key nonce aad : List Byte} {tagLen : Nat} (hs : GcmStarts h d key nonce aad tagLen t) :
    ∃ x, x.keySize ≠ .none ∧ key.length = keyBytes x.keySize ∧ aad.length ≤ aadMax ∧ 32 ≤ 8 * tagLen ∧ 8 * tagLen ≤ 128 ∧
      t.slot h.toNat = initSlot t.cfg x d key nonce aad (8 * tagLen) := by
  obtain ⟨s, ⟨hx, hok⟩, rfl, rfl, rfl, htag⟩ := hs
  rcases execGcmInit_cases hx with hraise | ⟨x, _, _, hsize, hlen, _, _, h1, h2, _, _, _, rfl⟩
  · exact absurd hok (err_ne_of_raise hraise (by decide))
  · rw [htag] at h1 h2 ⊢
    exact ⟨x, hsize, (memRead_length ..).trans hlen, by rw [memRead_length]; exact len32_le_aadMax .., h1, h2,
      slot_setSlot_same ..⟩

/-- A session right after its GCM.INIT has its key and stands at the start of a message. -/
theorem gcmStarts_inMessage {d : Dir} {key nonce aad : List Byte} {tagLen : Nat}
    (hs : GcmStarts h d key nonce aad tagLen t) :
    ∃ k, rawKey key = some k ∧ InMessage t.cfg d k nonce aad [] [] tagLen (t.slot h.toNat) := by
  obtain ⟨x, hsize, hlen, haad, h1, h2, hslot⟩ := gcmStarts_slot hs
  obtain ⟨k, hk⟩ := rawKey_isSome hsize hlen
  have hM := inMessage_init (p := t.cfg) (d := d) (nonce := nonce) hlen hk haad h1 h2
  rw [← hslot, Nat.mul_div_cancel_left _ (by omega)] at hM
  exact ⟨k, hk, hM⟩

/-- One command of a message (R154 to R156, R159). -/
theorem FeedStep.next {i : Instr} {d : Dir} {k : AesKey} {nonce aad0 aad data out a e o : List Byte} {tagLen : Nat}
    (hf : FeedStep t.cfg (t.slot h.toNat) a e o (u.slot h.toNat)) (hr : RunsOk i t u)
    (hM : InMessage t.cfg d k nonce (aad0 ++ aad) data out tagLen (t.slot h.toNat)) :
    InMessage u.cfg d k nonce (aad0 ++ (aad ++ a)) (data ++ e) (out ++ o) tagLen (u.slot h.toNat) := by
  obtain ⟨hx, _⟩ := hr
  rw [exec_cfg_eq hx, ← List.append_assoc]
  exact hf.inMessage hM

/-- The commands of a message, and what happens between them, keep what the slot says of the message (R166). -/
theorem gcmFeed_inMessage {s : State} {d : Dir} {k : AesKey} {nonce aad0 aad data out : List Byte} {tagLen : Nat}
    (hM : InMessage s.cfg d k nonce aad0 [] [] tagLen (s.slot h.toNat)) (hf : GcmFeed h s aad data out t) :
    InMessage t.cfg d k nonce (aad0 ++ aad) data out tagLen (t.slot h.toNat) := by
  induction hf with
  | start => rwa [List.append_nil]
  | between _ hb ih =>
    obtain ⟨hslot, hcfg⟩ := hb
    rwa [hslot, hcfg]
  | aadByte _ hr ih => simpa only [List.append_nil] using (feedStep_of_gcmAadByte hr).next hr ih
  | aadBytes _ hr ih => simpa only [List.append_nil] using (feedStep_of_gcmAadBytes hr).next hr ih
  | byte _ hr ih => simpa only [List.append_nil] using (feedStep_of_gcmByte ih.inv hr).next hr ih
  | bytes _ hr ih => simpa only [List.append_nil] using (feedStep_of_gcmBytes ih.inv hr).next hr ih

/-- A session before its GCM.FINAL says what its message is, however it was cut. -/
theorem gcmMessage_inMessage {d : Dir} {key nonce aad data out : List Byte} {tagLen : Nat}
    (hm : GcmMessage h d key nonce aad tagLen data out t) :
    ∃ k, rawKey key = some k ∧ InMessage t.cfg d k nonce aad data out tagLen (t.slot h.toNat) := by
  obtain ⟨s, aad0, aad1, hstart, hfeed, rfl⟩ := hm
  obtain ⟨k, hk, hM⟩ := gcmStarts_inMessage hstart
  exact ⟨k, hk, gcmFeed_inMessage hM hfeed⟩

end

/-! The mode in one shot, tag and verdict included. -/

/-- The AEAD mode over a whole message (R143 to R147, R160, R161): all its output bytes, GCM.FINAL's included, and GCM.FINAL's outcome. The
data of a decrypt session is the ciphertext and then the tag. -/
def gcmOneShot (p : Platform) (d : Dir) (k : AesKey) (nonce aad data : List Byte) (tagLen : Nat) : List Byte × ErrCode :=
  match d with
  | .encrypt => (gcmCrypt p k nonce data ++ gcmTag p k nonce aad (gcmCrypt p k nonce data) tagLen, .ok)
  | .decrypt =>
    if data.length < tagLen then ([], .authenticationFailure)
    else
      (gcmCrypt p k nonce (data.take (data.length - tagLen)),
        if gcmTag p k nonce aad (data.take (data.length - tagLen)) tagLen = data.drop (data.length - tagLen) then .ok
        else .authenticationFailure)

section
variable {p : Platform} {d : Dir} {k : AesKey} {nonce aad data out : List Byte} {tagLen : Nat} {x : Slot}

/-- What GCM.FINAL completes the output to, and the tag it computes (R160). -/
theorem InMessage.seal_oneShot (hM : InMessage p d k nonce aad data out tagLen x) {done : List Byte}
    (hdone : done = data.take (x.dataCount.toNat + finalLen x)) :
    out ++ (finalBlock p (enterData x)).2 = gcmCrypt p k nonce done ∧
      tagBytes (sealTag p (finalBlock p (enterData x)).1) = gcmTag p k nonce aad (messageCt p d k nonce done) tagLen := by
  obtain ⟨hout, htag⟩ := hM.seal hdone
  refine ⟨hout, htag.trans ?_⟩
  rw [gcmTag, ghash_message _ _ _ _ _ (beBytes_length ..) (beBytes_length ..), messageCt_length, hM.hkey_eq, hM.j0_eq]

/-- The data bytes an encrypt message has had once its last partial block is done: all of them (R160). -/
theorem InMessage.done_encrypt (hM : InMessage p .encrypt k nonce aad data out tagLen x) :
    data.take (x.dataCount.toNat + finalLen x) = data := by
  have hbuf := hM.dataBuf_length
  rw [finalLen, hM.dir_eq]
  exact List.take_of_length_le (by simp only; omega)

/-- The data bytes of a decrypt message: all but the tag (R160). -/
theorem InMessage.done_decrypt (hM : InMessage p .decrypt k nonce aad data out tagLen x) (hlen : tagLen ≤ x.dataBuf.length) :
    x.dataCount.toNat + finalLen x = data.length - tagLen ∧ x.dataBuf.drop (finalLen x) = data.drop (data.length - tagLen) := by
  have hbuf := hM.dataBuf_length
  have hcount := hM.dataCount_le
  have hlast : finalLen x = x.dataBuf.length - tagLen := by rw [finalLen, hM.dir_eq, hM.tagLen_eq]
  have hdone : x.dataCount.toNat + finalLen x = data.length - tagLen := by omega
  refine ⟨hdone, ?_⟩
  rw [hM.dataBuf_eq, List.drop_drop, hdone]

/-- A stream shorter than the tag has put nothing out (R161). -/
theorem InMessage.short (hM : InMessage p .decrypt k nonce aad data out tagLen x) (hlen : x.dataBuf.length < tagLen) :
    data.length < tagLen ∧ out = [] := by
  have hbuf := hM.dataBuf_length
  have hheld := hM.held_back rfl
  have h0 : x.dataCount.toNat = 0 := by omega
  refine ⟨by omega, ?_⟩
  rw [hM.out_eq, h0, List.take_zero, gcmCrypt, gctr_nil]

end

/-- A message, however it is cut into commands and whatever happens between them, puts out and ends in what the mode in one shot gives
(R166). -/
theorem gcmMessage_oneShot {h : Handle} {d : Dir} {key nonce aad data out : List Byte} {tagLen : Nat} {s t : State}
    (hm : GcmMessage h d key nonce aad tagLen data out s) (hx : exec (.gcmFinal h) s = .next t)
    (he : t.err = errByte .ok ∨ t.err = errByte .authenticationFailure) :
    ∃ k, rawKey key = some k ∧ tagLen ≤ 16 ∧ out ++ outputOf s t = (gcmOneShot s.cfg d k nonce aad data tagLen).1 ∧
      t.err = errByte (gcmOneShot s.cfg d k nonce aad data tagLen).2 := by
  obtain ⟨k, hk, hM⟩ := gcmMessage_inMessage hm
  refine ⟨k, hk, hM.tagLen_le, ?_⟩
  have htag := hM.tagLen_eq
  rcases final_outcome hx he rfl hM.inv (htag.trans_le hM.tagLen_le) with
    ⟨hd, herr, hout⟩ | ⟨hd, hlen, hout, hok⟩ | ⟨hd, hlen, hout, herr⟩
  · obtain rfl := hM.dir_eq.symm.trans hd
    obtain ⟨hbytes, htagBytes⟩ := hM.seal_oneShot hM.done_encrypt.symm
    rw [hout, ← List.append_assoc, hbytes, htagBytes]
    exact ⟨rfl, herr⟩
  · obtain rfl := hM.dir_eq.symm.trans hd
    rw [htag] at hlen
    obtain ⟨hdone, hrest⟩ := hM.done_decrypt hlen
    have hbuf := hM.dataBuf_length
    obtain ⟨hbytes, htagBytes⟩ := hM.seal_oneShot rfl
    rw [hdone] at hbytes htagBytes
    rw [htagBytes, hrest] at hok
    rw [hout, hbytes, gcmOneShot, if_neg (by omega)]
    refine ⟨rfl, ?_⟩
    split
    · rename_i heq
      exact hok.2 heq
    · rename_i hne
      exact he.resolve_left (mt hok.1 hne)
  · obtain rfl := hM.dir_eq.symm.trans hd
    rw [htag] at hlen
    obtain ⟨hshort, rfl⟩ := hM.short hlen
    rw [hout, gcmOneShot, if_pos hshort]
    exact ⟨rfl, herr⟩

/-- Settles O49: `gcmMessage_oneShot`, encrypting. -/
theorem gcmEncryptsInOneShot : Obligations.GcmEncryptsInOneShot := by
  intro h key nonce aad pt out tagLen k s t hm hk hr
  obtain ⟨hx, hok⟩ := hr
  obtain ⟨k', hk', _, hout, _⟩ := gcmMessage_oneShot hm hx (.inl hok)
  obtain rfl := Option.some.inj (hk.symm.trans hk')
  exact hout

/-- The mode in one shot over a ciphertext and a tag (R160, R161). -/
theorem gcmOneShot_decrypt (p : Platform) (k : AesKey) (nonce aad ct : List Byte) {tag : List Byte} {tagLen : Nat}
    (htag : tag.length = tagLen) :
    gcmOneShot p .decrypt k nonce aad (ct ++ tag) tagLen =
      (gcmCrypt p k nonce ct, if gcmTag p k nonce aad ct tagLen = tag then .ok else .authenticationFailure) := by
  have hlen : (ct ++ tag).length - tagLen = ct.length := by
    rw [List.length_append, htag, Nat.add_sub_cancel]
  have hnot : ¬ (ct ++ tag).length < tagLen := by
    rw [List.length_append]
    omega
  rw [gcmOneShot, if_neg hnot, hlen, List.take_left, List.drop_left]

/-- Settles O50: `gcmMessage_oneShot`, decrypting. -/
theorem gcmDecryptsInOneShot : Obligations.GcmDecryptsInOneShot := by
  intro h key nonce aad ct tag out tagLen k s t hm htag hk hx he
  obtain ⟨k', hk', _, hout, herr⟩ := gcmMessage_oneShot hm hx he
  obtain rfl := Option.some.inj (hk.symm.trans hk')
  rw [gcmOneShot_decrypt _ _ _ _ _ htag] at hout herr
  refine ⟨hout, ?_⟩
  rw [herr, errByte_eq_iff, eq_comm (a := tag)]
  simp

/-- Settles O51: both messages are the same one of the mode in one shot. -/
theorem streamingIsEquivalent : Obligations.StreamingIsEquivalent := by
  intro h d key nonce aad data out out' tagLen s s' t t' hm hm' hcfg hx hx' he he'
  obtain ⟨k, hk, _, hout, herr⟩ := gcmMessage_oneShot hm hx he
  obtain ⟨k', hk', _, hout', herr'⟩ := gcmMessage_oneShot hm' hx' he'
  obtain rfl := Option.some.inj (hk.symm.trans hk')
  rw [hcfg] at hout' herr'
  exact ⟨hout'.trans hout.symm, herr'.trans herr.symm⟩

/-- Encryption is its own inverse on the whole message (R152). -/
theorem gcmCrypt_gcmCrypt (p : Platform) (k : AesKey) (nonce data : List Byte) :
    gcmCrypt p k nonce (gcmCrypt p k nonce data) = data := gctr_gctr ..

theorem gcmTag_length (p : Platform) (k : AesKey) (nonce aad ct : List Byte) {tagLen : Nat} (h : tagLen ≤ 16) :
    (gcmTag p k nonce aad ct tagLen).length = tagLen := by
  rw [gcmTag, List.length_take_of_le]
  rwa [bytesOfBlock_length]

/-- The mode in one shot reads nothing of the platform but the block primitive (R9). -/
theorem gcmOneShot_congr {p p' : Platform} (hp : p'.primitive = p.primitive) : gcmOneShot p' = gcmOneShot p := by
  have haes : aesEnc p' = aesEnc p := by
    funext k x
    simp only [aesEnc, hp]
  have hcrypt : gcmCrypt p' = gcmCrypt p := by
    funext k nonce data
    simp only [gcmCrypt, gctr, keystream, baseCounter, haes]
  have htag : gcmTag p' = gcmTag p := by
    funext k nonce aad ct tagLen
    simp only [gcmTag, baseCounter, haes]
  funext d k nonce aad data tagLen
  cases d <;> simp only [gcmOneShot, hcrypt, htag]

/-- Settles O52: the decrypting message in one shot, over the ciphertext and the tag that the encrypting one gives. -/
theorem aeadRoundTrip : Obligations.AeadRoundTrip := by
  intro h h' key nonce aad pt out out' tagLen s s' t t' hm hr hm' hprim hx' he'
  obtain ⟨hx, hok⟩ := hr
  obtain ⟨k, hk, htagLen, hout, _⟩ := gcmMessage_oneShot hm hx (.inl hok)
  obtain ⟨k', hk', _, hout', herr'⟩ := gcmMessage_oneShot hm' hx' he'
  obtain rfl := Option.some.inj (hk.symm.trans hk')
  have hdec : gcmOneShot s'.cfg .decrypt k nonce aad (out ++ outputOf s t) tagLen = (pt, .ok) := by
    rw [hout, gcmOneShot_congr hprim, gcmOneShot, gcmOneShot_decrypt _ _ _ _ _ (gcmTag_length _ _ _ _ _ htagLen), if_pos rfl,
      gcmCrypt_gcmCrypt]
  rw [hdec] at hout' herr'
  exact ⟨herr', hout'⟩

/-! Sizes and the checkpoint over several commands. -/

/-- What GCM.FINAL writes is what GCM.OSIZE announces for no more input (R158, R160, R161). -/
theorem gcmFinal_result {h : Handle} {s t : State} (hx : exec (.gcmFinal h) s = .next t)
    (he : t.err = errByte .ok ∨ t.err = errByte .authenticationFailure) : t.result.toNat = oSize (s.slot h.toNat) 0 := by
  rcases execGcmFinal_cases hx with hraise | ⟨x, _, hres, _, hend⟩
  · rcases he with he | he <;> exact absurd he (err_ne_of_raise hraise (by decide))
  · obtain ⟨rfl, _, _⟩ := slot_of_resolve hres
    rcases hend with ⟨hd, hshort, rfl⟩ | ⟨_, hcap, _, r, z, _, _, ⟨_, rfl⟩ | ⟨_, rfl⟩⟩
    · rw [oSize, hd]
      exact (Nat.sub_eq_zero_of_le hshort.le).symm
    · exact toNat_ofNat_of_lt (hcap.trans_lt (len32_lt ..))
    · exact toNat_ofNat_of_lt (hcap.trans_lt (len32_lt ..))

theorem gcmOsize_result {h : Handle} {s t : State} (hr : RunsOk (.gcmOsize h) s t) :
    t.result = BitVec.ofNat 64 (oSize (s.slot h.toNat) (len32 s.args .arg1)) := by
  obtain ⟨hx, hok⟩ := hr
  rcases execGcmOsize_cases hx with hraise | ⟨x, _, hres, _, rfl⟩
  · exact absurd hok (err_ne_of_raise hraise (by decide))
  · obtain ⟨rfl, _, _⟩ := slot_of_resolve hres
    rfl

/-- The sizes of a slot that meets R34 fit in RESULT. -/
theorem oSize_lt {x : Slot} (hi : AeadInv x) {n : Nat} (hn : n < 2 ^ 32) : oSize x n < 2 ^ 64 := by
  have htag := x.tagLen.isLt
  have hbuf := hi.dataBuf_short
  unfold oSize
  cases hd : x.dir <;> simp only [hd] at hbuf ⊢ <;> omega

/-- Settles O45: the GCM.BYTES takes its output off the announced size, and GCM.FINAL writes what is left of it. -/
theorem outputSizeIsWhatIsWritten : Obligations.OutputSizeIsWhatIsWritten := by
  rintro h s s' t u u' v x ⟨_, _, rfl, _, _⟩ hi ⟨hslot, _⟩ hlen hosize hbytes ⟨hslot', _⟩ hfinal he
  have hstep := (feedStep_of_gcmBytes (hslot ▸ hi) hbytes).oSize_eq (hslot ▸ hi)
  rw [memRead_length, outputOf, memRead_length, hslot, hlen] at hstep
  rw [gcmOsize_result hosize, BitVec.toNat_ofNat, Nat.mod_eq_of_lt (oSize_lt hi (len32_lt ..)), hstep, gcmFinal_result hfinal he,
    hslot']

/-- The commands of a running message leave what GCM.RESET restores (R33, R165). -/
theorem MessageStep.restartSlot_eq {p : Platform} {x y : Slot} (hm : MessageStep p x y) : restartSlot y = restartSlot x := by
  rw [hm.shape]
  rfl

/-- The commands that go on with a message or end it (R154 to R161). -/
def messageOps : List Op := [.gcmAadByte, .gcmAadBytes, .gcmByte, .gcmBytes, .gcmFinal]

theorem SlotWrite.restartSlot_eq {p : Platform} {x y : Slot} {i : Instr} {j : Nat} (hw : SlotWrite p x i j y)
    (hi : opOf i ∈ messageOps) : restartSlot y = restartSlot x := by
  cases hw with
  | message _ _ _ _ hm => exact hm.restartSlot_eq
  | create | dispose | cbcInit | cbcProcess | cbcReset | gcmInit | clear => simp [opOf, messageOps] at hi

/-- However such a command ends, GCM.RESET would restore the same checkpoint as before it. -/
theorem exec_restartSlot {i : Instr} {s t : State} (hi : opOf i ∈ messageOps) (hx : exec i s = .next t) (j : Nat) :
    restartSlot (t.slot j) = restartSlot (s.slot j) := by
  rcases exec_slot hx j with hkept | hw
  · rw [hkept]
  · exact hw.restartSlot_eq hi

theorem gcmFeed_restartSlot {h : Handle} {s t : State} {aad data out : List Byte} (hf : GcmFeed h s aad data out t) :
    restartSlot (t.slot h.toNat) = restartSlot (s.slot h.toNat) := by
  induction hf with
  | start => rfl
  | between _ hb ih =>
    obtain ⟨hslot, _⟩ := hb
    rw [hslot, ih]
  | aadByte _ hr ih | aadBytes _ hr ih | byte _ hr ih | bytes _ hr ih =>
    obtain ⟨hx, _⟩ := hr
    rw [exec_restartSlot (by simp [opOf, messageOps]) hx, ih]

/-- A successful GCM.RESET with KEEP = 1 leaves the session at its checkpoint (R165). -/
theorem gcmReset_keep_slot {h : Handle} {s t : State} (hr : RunsOk (.gcmReset h true) s t) :
    t.slot h.toNat = restartSlot (s.slot h.toNat) := by
  obtain ⟨hx, hok⟩ := hr
  rcases execGcmReset_cases hx with ⟨e, rfl, he⟩ | ⟨x, hres, ⟨_, _, rfl⟩ | ⟨hdrop, _⟩⟩
  · obtain rfl := errByte_inj hok
    simp at he
  · obtain ⟨rfl, _, _⟩ := slot_of_resolve hres
    exact slot_setSlot_same ..
  · cases hdrop

/-- Settles O48: the checkpoint stays from the GCM.INIT on, and GCM.INIT leaves the slot at its checkpoint. -/
theorem gcmResetReturnsToInit : Obligations.GcmResetReturnsToInit := by
  intro h d key nonce aad0 aad data out tagLen s t u v hstart hfeed hu hr
  obtain ⟨x, _, _, _, _, _, hinit⟩ := gcmStarts_slot hstart
  have hfinal : restartSlot (u.slot h.toNat) = restartSlot (t.slot h.toNat) := by
    rcases hu with rfl | hfinal
    · rfl
    · exact exec_restartSlot (by simp [opOf, messageOps]) hfinal _
  rw [gcmReset_keep_slot hr, hfinal, gcmFeed_restartSlot hfeed, hinit, restartSlot_init]

end Sys2Proof.Machine
end

section
/-! The engine factory and the mode multiplexer (44_dispatcher.md R200 to R203): the path CREATE selects, the handle and the slot it
allocates, what it reads for that, and DISPOSE. -/

namespace Sys2Proof.Machine

/-! The fields of a capability record (R25), and the path they select (R200). -/

theorem capsAesHw_capsWord (c : CapsRecord) : capsAesHw (capsWord c) = aesHwBit c.aes := by
  rw [capsAesHw, capsWord, BitVec.getLsbD_append]
  simp

theorem capsVaesWidth_capsWord (c : CapsRecord) : capsVaesWidth (capsWord c) = vaesWidthBits c.aes := by
  rw [capsVaesWidth, capsWord, extract_append_high _ _ (by omega), extract_append_low _ _ (by omega), extract_self]

/-- DIGEST_ACCEL, bit 3 of CAPS (R25). -/
theorem capsWord_digestAccel (c : CapsRecord) : (capsWord c).getLsbD 3 = c.digestAccel := by
  rw [capsWord, BitVec.getLsbD_append, BitVec.getLsbD_append, BitVec.getLsbD_append]
  simp

/-- HOST_LE, bit 4 of CAPS (R25). -/
theorem capsWord_hostLe (c : CapsRecord) : (capsWord c).getLsbD 4 = c.hostLe := by
  rw [capsWord, BitVec.getLsbD_append, BitVec.getLsbD_append, BitVec.getLsbD_append, BitVec.getLsbD_append]
  simp

/-- `SelectPath` on the fields of a record (R200). -/
theorem selectPath_capsWord (c : CapsRecord) (w : WideTable) (m : Mode) (k : KeySize) :
    selectPath (capsWord c) w m k =
      if aesHwBit c.aes = true ∧ vaesWidthBits c.aes ≠ 0 ∧ wideOk w m k = true then .wide
      else if aesHwBit c.aes = true then .narrow else .soft := by
  rw [selectPath, capsAesHw_capsWord, capsVaesWidth_capsWord]

/-- Settles O27: `selectPath_capsWord` on each record; the record of a failed probe has no AES_HW. -/
theorem pathFollowsTheCapabilities : Obligations.PathFollowsTheCapabilities := by
  intro c w m k hostLe
  refine ⟨?_, capsAesHw_capsWord _, capsVaesWidth_capsWord _, capsWord_digestAccel _, capsWord_hostLe _,
    selectPath_capsWord _ _ _ _⟩
  rw [selectPath_capsWord]
  cases c.aes with
  | absent | narrow => rfl
  | wide256 | wide512 => simp [aesHwBit, vaesWidthBits]

/-! CREATE (R201, R203). -/

theorem pathNumber_lt (p : Path) : pathNumber p < 2 ^ 2 := by cases p <;> decide

theorem numSessions_lt (p : Platform) : numSessions p < 2 ^ 16 := by
  have := p.lastSession.isLt
  unfold numSessions
  omega

/-- RESULT[17:16] of CREATE (R201). -/
theorem createResult_path {n j : Nat} (hn : n < 2 ^ 2) (hj : j < 2 ^ 16) :
    ((BitVec.ofNat 64 (n * 2 ^ 16 + j)).extractLsb' 16 2).toNat = n := by
  rw [BitVec.extractLsb'_toNat, BitVec.toNat_ofNat, Nat.shiftRight_eq_div_pow]
  omega

/-- RESULT[63:18] of CREATE (R201). -/
theorem createResult_upper {n j : Nat} (hn : n < 2 ^ 2) (hj : j < 2 ^ 16) :
    (BitVec.ofNat 64 (n * 2 ^ 16 + j)).extractLsb' 18 46 = 0 := by
  apply BitVec.eq_of_toNat_eq
  rw [BitVec.extractLsb'_toNat, BitVec.toNat_ofNat, Nat.shiftRight_eq_div_pow]
  change _ = 0
  omega

/-- Settles O26: the search finds `h`, CREATE writes its slot alone, and RESULT is read back field by field. -/
theorem createAllocatesTheLeastFreeHandle : Obligations.CreateAllocatesTheLeastFreeHandle := by
  intro d m s k h hk hsize hpos hmax hfree hleast
  have hfound : firstFree s (numSessions s.cfg) 1 = some h :=
    (firstFree_some_iff _ _ _ _).2 ⟨hpos, by omega, hfree, hleast⟩
  have hx : exec (.create d m) s = _ := execCreate_run ((keySizeOf_some_iff _ _).2 ⟨hk, hsize⟩) hfound
  have hpath := pathNumber_lt (selectPath s.caps s.cfg.wideOk m k)
  have hhandle : h < 2 ^ 16 := hmax.trans_lt (numSessions_lt _)
  exact ⟨_, hx, rfl, createResult_handle _ _, createResult_path hpath hhandle, createResult_upper hpath hhandle,
    by rw [finish_slot, slot_setSlot_same]; rfl, fun _ hj => by rw [finish_slot, slot_setSlot_other _ _ _ hj],
    exec_registersKept hx, fun _ => rfl⟩

/-- One write of one slot on two machines leaves the slot alike and the others as they were. -/
theorem slot_setSlot_both (s s' : State) (j : Nat) (y : Slot) (h : Nat) :
    (s.setSlot j y).slot h = s.slot h ∧ (s'.setSlot j y).slot h = s'.slot h ∨
      (s'.setSlot j y).slot h = (s.setSlot j y).slot h := by
  by_cases hj : h = j
  · subst hj
    exact .inr (by rw [slot_setSlot_same, slot_setSlot_same])
  · exact .inl ⟨slot_setSlot_other _ _ _ hj, slot_setSlot_other _ _ _ hj⟩

/-- Settles O28: the checks, the search and the path come out alike, so both machines end in the same error or write the same slot. -/
theorem createIsDeterministic : Obligations.CreateIsDeterministic := by
  intro d m s s' t hcaps hwide hlast harg halloc ht
  have hsize : keySizeOf s'.args.arg0.toNat = keySizeOf s.args.arg0.toNat := by rw [harg]
  have hfree : firstFree s' (numSessions s'.cfg) 1 = firstFree s (numSessions s.cfg) 1 := by
    rw [firstFree_congr halloc, numSessions, numSessions, hlast]
  cases hk : keySizeOf s.args.arg0.toNat with
  | none =>
    obtain rfl := Host.Outcome.next.inj ((execCreate_unsupported hk).symm.trans ht)
    exact ⟨_, execCreate_unsupported (hsize.trans hk), rfl, rfl, fun _ => .inl ⟨rfl, rfl⟩⟩
  | some k =>
    cases hj : firstFree s (numSessions s.cfg) 1 with
    | none =>
      obtain rfl := Host.Outcome.next.inj ((execCreate_full hk hj).symm.trans ht)
      exact ⟨_, execCreate_full (hsize.trans hk) (hfree.trans hj), rfl, rfl, fun _ => .inl ⟨rfl, rfl⟩⟩
    | some j =>
      obtain rfl := Host.Outcome.next.inj ((execCreate_run hk hj).symm.trans ht)
      have hx := execCreate_run (d := d) (m := m) (hsize.trans hk) (hfree.trans hj)
      rw [hcaps, hwide] at hx
      exact ⟨_, hx, rfl, rfl, slot_setSlot_both s s' j (createdSlot m d k (selectPath s.caps s.cfg.wideOk m k))⟩

/-! DISPOSE (R202). -/

/-- Settles O29: the handle resolves in either mode, DISPOSE writes its slot alone, and a free slot does not resolve. -/
theorem disposeFreesTheSlot : Obligations.DisposeFreesTheSlot := by
  intro h s m x hn
  obtain ⟨t, hx, hfin, hfree, hframe⟩ :=
    exec_setSlot_spec (i := .dispose h) rfl (execDispose_run (resolve_any_of_names hn))
  have hfreed : (t.slot h.toNat).alloc = false := by rw [hfree]; rfl
  have hagain : exec (.dispose h) t = .next (t.raise .invalidHandle) :=
    exec_badHandle rfl rfl (resolve_none_of_bad (.inr (.inr (.inl hfreed))))
  obtain ⟨hothers, hregs, hmem⟩ := hframe
  exact ⟨t, hx, hfin, hfree, hothers, hregs, hmem, hagain⟩

end Sys2Proof.Machine
end

section
/-! Errors (60_exceptions.md R220 to R224): that every command ends, in the error of its first failing check or past all of them, what an
error leaves, and where AuthenticationFailure comes from. -/

namespace Sys2Proof.Machine

/-! The order of the checks (R224). -/

/-- The errors the checks of an opcode raise, in the order in which they are made (R224). -/
def checkedErrors (op : Op) : List ErrCode :=
  .illegalCommand :: .invalidHandle ::
    match op with
    | .caps | .blksz | .dispose => []
    | .create => [.unsupportedKeySize, .noFreeSession]
    | .cbcInit => [.invalidKeySize, .invalidIVLength, .busError]
    | .cbcProcess => [.invalidStateTransition, .outputBufferTooShort, .busError]
    | .gcmInit => [.invalidKeySize, .invalidIVLength, .invalidTagLength, .busError]
    | .gcmAadByte => [.invalidStateTransition, .dataLimitExceeded]
    | .gcmAadBytes => [.invalidStateTransition, .dataLimitExceeded, .busError]
    | .gcmByte | .gcmBytes => [.invalidStateTransition, .outputLengthException, .dataLimitExceeded, .busError]
    | .gcmFinal | .gcmMac => [.invalidStateTransition, .outputLengthException, .busError]
    | .cbcReset | .gcmUosize | .gcmOsize | .gcmReset => [.invalidStateTransition]

/-- Which errors are checked depends on the opcode alone. -/
theorem checks_errors (i : Instr) (s : State) : (checks i s).map Prod.fst = checkedErrors (opOf i) := by
  cases i <;> rfl

theorem checkedErrors_ordered (op : Op) : (checkedErrors op).Pairwise fun e f => precedence e < precedence f := by
  cases op <;> decide

theorem checks_ordered (i : Instr) (s : State) :
    (checks i s).Pairwise fun c d => precedence c.1 < precedence d.1 := by
  have h := checkedErrors_ordered (opOf i)
  rwa [← checks_errors i s, List.pairwise_map] at h

/-! The end of a command, along its checks. -/

/-- The outcomes of a command that passes its checks (R221, R223). -/
def EndsPastChecks (i : Instr) (t : State) : Prop :=
  t.err = errByte .ok ∨ (opOf i = .gcmFinal ∧ t.err = errByte .authenticationFailure)

/-- How command `i` ends from `s`, where `l` holds the checks it has still to make: in the error of the first that fails, or past all of
them. -/
inductive CheckedEnd (i : Instr) (s : State) : List (ErrCode × Bool) → State → Prop
  | failed {e : ErrCode} {b : Bool} {l : List (ErrCode × Bool)} : b = true → CheckedEnd i s ((e, b) :: l) (s.raise e)
  | passed {e : ErrCode} {b : Bool} {l : List (ErrCode × Bool)} {t : State} : b = false → CheckedEnd i s l t →
      CheckedEnd i s ((e, b) :: l) t
  | ended {t : State} : EndsPastChecks i t → CheckedEnd i s [] t

namespace CheckedEnd
variable {i : Instr} {s t u : State} {l : List (ErrCode × Bool)} {e : ErrCode} {b : Bool} {C : Prop} [Decidable C]

/-- The statement of R224 about one end of a command. -/
theorem law (h : CheckedEnd i s l t) :
    (∀ e, firstError l = some e → t = s.raise e) ∧ (firstError l = none → EndsPastChecks i t) := by
  induction h with
  | failed hb =>
    subst hb
    exact ⟨fun _ he => congrArg _ (Option.some.inj he), fun hnone => (nomatch hnone)⟩
  | passed hb _ ih =>
    subst hb
    exact ih
  | ended ht => exact ⟨fun _ he => (nomatch he), fun _ => ht⟩

theorem ok {r : Word64} : CheckedEnd i s [] (t.finish .ok r) := ended (.inl rfl)

/-- A decrypt GCM.FINAL that compares the tags (R161). -/
theorem verdict {r : Word64} (hi : opOf i = .gcmFinal) :
    CheckedEnd i s [] (t.finish (if C then .ok else .authenticationFailure) r) := by
  split
  · exact ok
  · exact ended (.inr ⟨hi, rfl⟩)

/-- A check that a command's rule makes as `C` and R224's list as `b`. -/
theorem check (hb : C ↔ b = true) (hu : ¬ C → CheckedEnd i s l u) :
    CheckedEnd i s ((e, b) :: l) (if C then s.raise e else u) := by
  by_cases hc : C
  · rw [if_pos hc]
    exact failed (hb.1 hc)
  · rw [if_neg hc]
    exact passed (Bool.eq_false_iff.2 fun h => hc (hb.2 h)) (hu hc)

/-- A command whose remaining checks all pass. -/
theorem allPassed (hl : ∀ c ∈ l, c.2 = false) (ht : EndsPastChecks i t) : CheckedEnd i s l t := by
  induction l with
  | nil => exact ended ht
  | cons c l ih =>
    exact passed (hl c List.mem_cons_self) (ih fun c hc => hl c (List.mem_cons_of_mem _ hc))

/-- A branch of a command's rule that R224 lists no error for. -/
theorem branch (ht : C → CheckedEnd i s l t) (hu : ¬ C → CheckedEnd i s l u) :
    CheckedEnd i s l (if C then t else u) := by
  split
  · rename_i hc
    exact ht hc
  · rename_i hc
    exact hu hc

end CheckedEnd

/-- The check of the handle is that `Resolve` fails (R92). -/
theorem badHandle_iff {i : Instr} {h : Handle} {s : State} (hi : handleOf i = some h) :
    badHandle s i = true ↔ s.resolve (modeOf i) h = none := by
  simp only [badHandle, hi, State.resolve]
  split
  · rename_i hbad
    rcases hbad with h0 | hfree | hrange
    · simp [h0]
    · simp [hfree]
    · simp [hrange]
  · rename_i hgood
    simp only [not_or, Bool.not_eq_false] at hgood
    simp [hgood]

/-- The frame of a session command makes the first two checks and leaves the others to its rule (R92, R224). -/
theorem sessionCommand_checkedEnd {i : Instr} {h : Handle} {s : State} {body : Slot → State} (hi : handleOf i = some h)
    (hb : CheckedEnd i s (ownChecks i s) (body (s.slot h.toNat))) :
    ∃ t, sessionCommand (opOf i) (modeOf i) h s body = .next t ∧ CheckedEnd i s (checks i s) t := by
  cases hl : operandsLegal (opOf i) s.args with
  | false => exact ⟨_, sessionCommand_illegal hl, .failed (by rw [hl]; rfl)⟩
  | true =>
    have hlegal : (!operandsLegal (opOf i) s.args) = false := by rw [hl]; rfl
    cases hr : s.resolve (modeOf i) h with
    | none => exact ⟨_, sessionCommand_badHandle hl hr, .passed hlegal (.failed ((badHandle_iff hi).2 hr))⟩
    | some x =>
      have hgood : badHandle s i = false :=
        Bool.eq_false_iff.2 fun hbad => by simp [(badHandle_iff hi).1 hbad] at hr
      obtain ⟨-, -, -, rfl⟩ := resolve_some hr
      exact ⟨_, sessionCommand_run hl hr, .passed hlegal (.passed hgood hb)⟩

/-- An INIT command's check of the key length (R111, R149). -/
theorem badKeyLen_iff (s : State) (x : Slot) :
    keySizeOf (len32 s.args .arg1) = none ∨ len32 s.args .arg1 ≠ keyBytes x.keySize ↔ badKeyLen s x = true := by
  rw [keySizeOf_none_iff]
  simp [badKeyLen, and_assoc]

/-- CREATE's check of the key size (R85, R201). -/
theorem createSize_iff (a : Word64) :
    keySizeOf a.toNat = none ↔ (a != 16 && a != 24 && a != 32) = true := by
  rw [keySizeOf_none_iff]
  simp [BitVec.toNat_eq, and_assoc]

/-- CREATE's search fails where every slot of the table is allocated (R201). -/
theorem tableFull_iff (s : State) :
    firstFree s (numSessions s.cfg) 1 = none ↔
      ((List.range (numSessions s.cfg)).all fun j => (s.slot (j + 1)).alloc) = true := by
  rw [firstFree_none_iff, List.all_eq_true]
  constructor
  · intro h j hj
    have := List.mem_range.1 hj
    exact h _ (by omega) (by omega)
  · intro h j h1 h2
    have hj := h (j - 1) (List.mem_range.2 (by omega))
    rwa [Nat.sub_add_cancel h1] at hj

/-- CREATE names no handle; its own checks are those of the key size and of the table (R201, R224). -/
theorem execCreate_checkedEnd (d : Dir) (m : Mode) (s : State) :
    ∃ t, execCreate d m s = .next t ∧ CheckedEnd (.create d m) s (checks (.create d m) s) t := by
  suffices h : ∃ t, execCreate d m s = .next t ∧ CheckedEnd (.create d m) s (ownChecks (.create d m) s) t from
    h.imp fun _ ⟨hx, hend⟩ => ⟨hx, .passed rfl (.passed rfl hend)⟩
  cases hk : keySizeOf s.args.arg0.toNat with
  | none => exact ⟨_, execCreate_unsupported hk, .failed ((createSize_iff _).1 hk)⟩
  | some k =>
    have hsize := Bool.eq_false_iff.2 (mt (createSize_iff _).2 (by rw [hk]; exact Option.some_ne_none k))
    cases hj : firstFree s (numSessions s.cfg) 1 with
    | none => exact ⟨_, execCreate_full hk hj, .passed hsize (.failed ((tableFull_iff s).1 hj))⟩
    | some j =>
      have hroom := Bool.eq_false_iff.2 (mt (tableFull_iff s).2 (by rw [hj]; exact Option.some_ne_none j))
      exact ⟨_, execCreate_run hk hj, .passed hsize (.passed hroom .ok)⟩

/-- Every command ends, along the checks of R224 in their order. -/
theorem exec_checkedEnd (i : Instr) (s : State) : ∃ t, exec i s = .next t ∧ CheckedEnd i s (checks i s) t := by
  cases i with
  | caps => exact ⟨_, rfl, .passed rfl (.passed rfl .ok)⟩
  | blksz => exact ⟨_, rfl, .passed rfl (.passed rfl .ok)⟩
  | create d m => exact execCreate_checkedEnd d m s
  | dispose h => exact sessionCommand_checkedEnd (i := .dispose h) rfl .ok
  | cbcInit h =>
    exact sessionCommand_checkedEnd (i := .cbcInit h) rfl (.check (badKeyLen_iff ..) fun _ => .check (by simp) fun _ =>
      .check (by simp) fun _ => .ok)
  | cbcProcess h =>
    exact sessionCommand_checkedEnd (i := .cbcProcess h) rfl (.check (by simp) fun _ => .check (by simp) fun _ =>
      .check (by simp) fun _ => .ok)
  | cbcReset h => exact sessionCommand_checkedEnd (i := .cbcReset h) rfl (.check (by simp) fun _ => .ok)
  | gcmInit h d =>
    exact sessionCommand_checkedEnd (i := .gcmInit h d) rfl (.check (badKeyLen_iff ..) fun _ => .check (by simp) fun _ =>
      .check (by simp [or_assoc]) fun _ => .check (by simp [or_assoc]) fun _ => .ok)
  | gcmAadByte h =>
    exact sessionCommand_checkedEnd (i := .gcmAadByte h) rfl (.check (by simp) fun _ => .check (by simp) fun _ => .ok)
  | gcmAadBytes h =>
    exact sessionCommand_checkedEnd (i := .gcmAadBytes h) rfl (.check (by simp) fun _ => .check (by simp) fun _ =>
      .check (by simp) fun _ => .ok)
  | gcmByte h =>
    exact sessionCommand_checkedEnd (i := .gcmByte h) rfl (.check (by simp) fun _ => .check (by simp) fun _ =>
      .check (by simp) fun _ => .check (by simp) fun _ => .ok)
  | gcmBytes h =>
    exact sessionCommand_checkedEnd (i := .gcmBytes h) rfl (.check (by simp) fun _ => .branch
      (fun h0 => .allPassed (by simp [h0]) (.inl rfl)) fun h0 => .check (by simp [h0]) fun _ =>
      .check (by simp [h0]) fun _ => .check (by simp [h0]) fun _ => .ok)
  | gcmFinal h =>
    refine sessionCommand_checkedEnd (i := .gcmFinal h) rfl (.check (by simp) fun _ => .branch
      (fun hshort => .allPassed (by simp [hshort]) (.inr ⟨rfl, rfl⟩)) fun hlong => ?_)
    cases hd : (s.slot h.toNat).dir with
    | encrypt =>
      rw [finalOut_encrypt hd]
      exact .check (by simp) fun _ => .check (by simp) fun _ => .ok
    | decrypt =>
      have hwhole := Nat.not_lt.1 fun hshort => hlong ⟨hd, hshort⟩
      rw [finalOut_decrypt hd]
      exact .check (by simp [hwhole]) fun _ => .check (by simp [hwhole]) fun _ => .verdict rfl
  | gcmUosize h => exact sessionCommand_checkedEnd (i := .gcmUosize h) rfl (.check (by simp) fun _ => .ok)
  | gcmOsize h => exact sessionCommand_checkedEnd (i := .gcmOsize h) rfl (.check (by simp) fun _ => .ok)
  | gcmMac h =>
    exact sessionCommand_checkedEnd (i := .gcmMac h) rfl (.check (by simp [or_assoc]) fun _ => .check (by simp) fun _ =>
      .check (by simp) fun _ => .ok)
  | gcmReset h keep =>
    cases keep with
    | false => exact sessionCommand_checkedEnd (i := .gcmReset h false) rfl (.passed rfl .ok)
    | true => exact sessionCommand_checkedEnd (i := .gcmReset h true) rfl (.check (by simp) fun _ => .ok)

/-! The settled statements. -/

/-- Settles O11: `exec_checkedEnd` follows the checks, whose order is that of their opcode. -/
theorem firstFailingCheckIsReported : Obligations.FirstFailingCheckIsReported := by
  intro i s
  obtain ⟨t, hx, hend⟩ := exec_checkedEnd i s
  obtain ⟨hfail, hpass⟩ := hend.law
  refine ⟨checks_ordered i s, fun e he => ?_, fun hnone => ⟨t, hx, hpass hnone⟩⟩
  rw [hx, hfail e he]
  rfl

/-- Settles O8: each command ends at its first failing check, or past all of them. -/
theorem everyCommandCompletes : Obligations.EveryCommandCompletes := fun i s =>
  (exec_checkedEnd i s).imp fun _ ⟨hx, _⟩ => hx

/-- Settles O9: the errors other than AuthenticationFailure end in `raise`. -/
theorem errorsChangeNothing : Obligations.ErrorsChangeNothing := by
  intro i s t hx hok hauth
  rcases exec_cases hx with ⟨e, rfl, _⟩ | ⟨e, r, he, heff⟩
  · rfl
  · obtain ⟨herr, _⟩ := heff.err
    rcases he with rfl | ⟨_, rfl⟩
    · exact absurd herr hok
    · exact absurd herr hauth

/-- Settles O10: an error is one its opcode raises; OK is every opcode's, and AuthenticationFailure GCM.FINAL's. -/
theorem commandsReportInStatus : Obligations.CommandsReportInStatus := by
  intro i s t hx
  refine ⟨exec_registersKept hx, ?_⟩
  rcases exec_cases hx with ⟨e, rfl, _, _, hby⟩ | ⟨e, r, he, heff⟩
  · exact ⟨e, hby, rfl⟩
  · refine ⟨e, ?_, heff.err.1⟩
    rcases he with rfl | ⟨hop, rfl⟩
    · rfl
    · rw [hop]
      rfl

/-- AuthenticationFailure is GCM.FINAL's (R221). -/
theorem gcmFinal_of_authenticationFailure {i : Instr} {s t : State} (hx : exec i s = .next t)
    (ht : t.err = errByte .authenticationFailure) : ∃ h, i = .gcmFinal h := by
  obtain ⟨_, e, hby, he⟩ := commandsReportInStatus i s t hx
  obtain rfl := errByte_inj (he.symm.trans ht)
  cases i with
  | gcmFinal h => exact ⟨h, rfl⟩
  | _ => cases hby

/-- A GCM.FINAL that ends in AuthenticationFailure: a decrypt session, finished, with RESULT the bytes that were left to decrypt (R161). -/
theorem gcmFinal_authenticationFailure {h : Handle} {s t : State} {x : Slot} (hslot : s.slot h.toNat = x)
    (hx : exec (.gcmFinal h) s = .next t) (ht : t.err = errByte .authenticationFailure) :
    x.dir = .decrypt ∧ (t.slot h.toNat).phase = .final ∧ t.result.toNat = x.dataBuf.length - x.tagLen.toNat := by
  rcases execGcmFinal_cases hx with
    ⟨e, rfl, he⟩ | ⟨x', _, hr, _, ⟨hd, hshort, rfl⟩ | ⟨_, hcap, _, r, z, _, rfl, ⟨_, rfl⟩ | ⟨hd, rfl⟩⟩⟩
  · obtain rfl := errByte_inj ht
    exact absurd he (by decide)
  · obtain ⟨rfl, _⟩ := slot_of_resolve hr
    subst hslot
    refine ⟨hd, by rw [finish_slot, slot_setSlot_same], ?_⟩
    rw [finish_result]
    exact (Nat.sub_eq_zero_of_le hshort.le).symm
  · exact absurd (errByte_inj (e := .ok) ht) (by decide)
  · obtain ⟨rfl, _⟩ := slot_of_resolve hr
    subst hslot
    refine ⟨hd, by rw [finish_slot, store_slot, slot_setSlot_same]; rfl, ?_⟩
    rw [finish_result, toNat_ofNat_of_lt (hcap.trans_lt (len32_lt ..)), ← finalOut_decrypt hd, finalLen, hd]

/-- Settles O12: R221 leaves GCM.FINAL alone, whose other slots and bytes are those of any command with a handle and an output. -/
theorem authenticationFailureOnlyAtFinal : Obligations.AuthenticationFailureOnlyAtFinal := by
  intro i s t hx ht
  obtain ⟨h, rfl⟩ := gcmFinal_of_authenticationFailure hx ht
  obtain ⟨hdir, hphase, hresult⟩ := gcmFinal_authenticationFailure rfl hx ht
  obtain ⟨hmem, _⟩ := onlyOutputBytesChange _ s t hx
  exact ⟨h, rfl, hdir, hphase, hresult, exec_otherSlotsKept rfl hx, hmem⟩

end Sys2Proof.Machine
end

section
/-! Reset (70_reset_and_hazards.md R250, R251). -/

namespace Sys2Proof.Machine

/-- STATUS is its error byte, which a reset clears (R24, R250). -/
@[simp] theorem afterReset_status (s : State) : s.afterReset.status = 0 := by
  rw [State.status, afterReset_err]
  decide

/-- With the reset input next, the step is the reset, and the accesses after it are still to come (R250). -/
theorem step_reset {s : State} {rest : List HostAccess} (hn : HostNext s .reset rest) :
    step s = .next ({ s with host := rest } : State).afterReset := step_of_hostNext hn

/-- Settles O19: the registers are `afterReset`'s fields, and every slot it leaves is the free slot of R29. -/
theorem resetGivesTheResetState : Obligations.ResetGivesTheResetState := by
  intro s rest hn
  have hslot (h : Nat) : ({ s with host := rest } : State).afterReset.slot h = Slot.free := afterReset_slot _ h
  have hmem : MemoryKept s ({ s with host := rest } : State).afterReset := fun _ => rfl
  exact ⟨_, step_reset hn, afterReset_cmd _, afterReset_cmdStarted _, afterReset_args _, afterReset_result _,
    afterReset_status _, afterReset_caps _, hslot, hmem, afterReset_cfg _, afterReset_host _⟩

end Sys2Proof.Machine
end
